-- ==== Sys2Proof/Word.lean ====
section
/-!
DEFINITION. Word.lean: the widths of the machine (00_scope.md R9) and the closed vocabularies that the fields of an
instruction word are read as: the 21 ops (R64), the 3 conds (R65), the sub-field codes of CMP, SHI and FM
(R73 to R76), the scan direction of a jump (R183, R184) and the I/O devices (R197). Only names stand here; the codes
that number them stand in Decode.lean.
-/

namespace Sys2Proof

/-- A 6-bit value: a register's content, a register number, an immediate, a memory-window cell, a serial value or one
operand field of an instruction word (R9, R12, R44). -/
abbrev Word := BitVec 6

/-- One 24-bit instruction word, bit 23 being the most significant bit of the first ROM byte (R11, R43). -/
abbrev InsnWord := BitVec 24

/-- One ROM byte (R43). -/
abbrev Byte := BitVec 8

/-- A label key `64*a + b`, and the clock (R9). -/
abbrev Word12 := BitVec 12

/-- The memory cursor (R9, R47). -/
abbrev Cursor := BitVec 18

/-- Reduction to 6 bits: the only narrowing of the machine (R12, R22). -/
abbrev mask6 (n : Nat) : Word := BitVec.ofNat 6 n

/-- The 21 ops (R64). -/
inductive Op where
  | add | addi | sub | or | ori | xor | xori | and | andi | shl | shr | shi | cmp | fm | ld | st | lbl | hlt | jup | jdn | io
  deriving DecidableEq, Repr

/-- The condition an instruction is gated by (R65). -/
inductive Cond where
  | always | ifTrue | ifFalse
  deriving DecidableEq, Repr

/-- The four shift types of SHI (R75). -/
inductive ShiftType where
  | lsl | lsr | asr | rol
  deriving DecidableEq, Repr

/-- Which of CMP's operands are registers (R) and which immediates (I) (R73). -/
inductive CmpType where
  | rr | ri | ir | ii
  deriving DecidableEq, Repr

/-- The eight comparators of CMP (R74). -/
inductive Comparator where
  | tr | fa | eq | ne | slt | sgt | ult | ugt
  deriving DecidableEq, Repr

/-- FM's mode: U shifts the product logically, S arithmetically (R76). -/
inductive FmMode where
  | unsigned | signed
  deriving DecidableEq, Repr

/-- The direction of a label search: JUP scans backward, JDN forward (R183, R184). -/
inductive Direction where
  | up | down
  deriving DecidableEq, Repr

/-- The devices an IO instruction can name (R197). -/
inductive Device where
  | serialIncoming | serialRead | serialWrite | clockLoCs | clockHiCs | memAddrLo | memAddrMid | memAddrHi
  | memRead | memWrite | gpuX | gpuY | gpuDraw
  deriving DecidableEq, Repr

end Sys2Proof
end

