-- ==== Sys2Proof/Machine/Flags.lean ====
section
/-!
DEFINITION. Machine/Flags.lean: the comparison flag's two sides: the conditional gate that reads it (30_encoding.md R85) and
the comparator that computes it (42_comparator.md R142, R143). There are no other flags (R26).
-/

namespace Sys2Proof.Machine

/-- The conditional gate (R85). -/
def gate (c : Cond) (cf : Bool) : Bool :=
  match c with
  | .always => true
  | .ifTrue => cf
  | .ifFalse => !cf

/-- A 6-bit value read as two's complement, -32 to 31 (R12, R143). -/
def sext6 (v : Word) : Int := if v.toNat < 32 then v.toNat else (v.toNat : Int) - 64

/-- A 12-bit value read as two's complement (R12). -/
def sext12 (v : Word12) : Int := if v.toNat < 2048 then v.toNat else (v.toNat : Int) - 4096

/-- The comparator functions (R142). -/
def compareValues (cm : Comparator) (a b : Word) : Bool :=
  match cm with
  | .tr => true
  | .fa => false
  | .eq => decide (a = b)
  | .ne => decide (a ≠ b)
  | .slt => decide (sext6 a < sext6 b)
  | .sgt => decide (sext6 a > sext6 b)
  | .ult => decide (a.toNat < b.toNat)
  | .ugt => decide (a.toNat > b.toNat)

end Sys2Proof.Machine
end

