-- ==== Sys2Proof/Machine/Operands.lean ====
section
/-!
DEFINITION. Machine/Operands.lean: the values an instruction computes from the values it reads: the second operand of the
logic ops (40_alu.md R110), the shift helpers (41_shifter.md R127), the multiplier's product and shift (43_multiplier.md
R160 to R163), CMP's operand selection (42_comparator.md R141), the effective register index (44_register_indirect.md
R172), the colour expansion (R206) and the 6-bit parts of the clock and the cursor (R44, R48, R202).
-/

namespace Sys2Proof.Machine

/-- The source's two's complement of n (R12, R109). -/
def tc6 (v : Word) : Word := (v ^^^ 0b111111#6) + 1#6

/-- The second operand of OR, XOR and AND: raw, or negated under LOGIC_NEG_B (R110). -/
def logicOperand (logicNegB : Bool) (v : Word) : Word := if logicNegB then tc6 v else v

/-- Logical left shift within the width; 0 when d reaches it (R127). -/
def lsl {w : Nat} (v : BitVec w) (d : Nat) : BitVec w := v <<< d

/-- Logical right shift; 0 when d reaches the width (R127). -/
def lsr {w : Nat} (v : BitVec w) (d : Nat) : BitVec w := v >>> d

/-- The vacated high bits of a right shift by d (R127). -/
def signmask (w d : Nat) : BitVec w := BitVec.ofNat w ((2 ^ min d w - 1) <<< (w - min d w))

/-- Arithmetic right shift (R127). -/
def asr {w : Nat} (v : BitVec w) (d : Nat) : BitVec w := if v.msb then (v >>> d) ||| signmask w d else v >>> d

/-- 6-bit left rotation, the distance taken modulo 6 (R127). -/
def rol6 (v : Word) (d : Nat) : Word := (v <<< (d % 6)) ||| (v >>> (6 - d % 6))

/-- SHI's sub-dispatch on the shift type (R122). -/
def shiftBy (ty : ShiftType) (v : Word) (d : Nat) : Word :=
  match ty with
  | .lsl => lsl v d
  | .lsr => lsr v d
  | .asr => asr v d
  | .rol => rol6 v d

/-- FM's 12-bit working product (R163). -/
def fmProduct (fmSignedOperands : Bool) (mode : FmMode) (u v : Word) : Word12 :=
  match mode with
  | .unsigned => BitVec.ofNat 12 (u.toNat * v.toNat)
  | .signed =>
    if fmSignedOperands then BitVec.ofInt 12 (sext6 u * sext6 v) else BitVec.ofNat 12 (u.toNat * v.toNat)

/-- FM's shift of the working product, then the truncation to 6 bits (R160 to R162). -/
def fmResult (mode : FmMode) (p : Word12) (frac : Nat) : Word :=
  match mode with
  | .unsigned => (lsr p frac).setWidth 6
  | .signed => (asr p frac).setWidth 6

/-- CMP's operand A: a register's value, or the field itself (R141). -/
def cmpOperandA (ctype : CmpType) (field regValue : Word) : Word :=
  match ctype with
  | .rr | .ri => regValue
  | .ir | .ii => field

/-- CMP's operand B (R141). -/
def cmpOperandB (ctype : CmpType) (field regValue : Word) : Word :=
  match ctype with
  | .rr | .ir => regValue
  | .ri | .ii => field

/-- The effective register index of LD and ST (R41, R172). -/
def effectiveIndex (base imm : Word) : Word := base + imm

/-- The label key `64*a + b` (R71, R183). -/
def labelKey (keyHi keyLo : Word) : Word12 := keyHi ++ keyLo

/-- A 2-bit colour channel as 8 bits: 0x00, 0x55, 0xAA, 0xFF (R206). -/
def colourLevel (v : BitVec 2) : Byte := v ++ v ++ v ++ v

/-- Clock bits 5:0 (R44, R202). -/
def clockLo (v : Word12) : Word := v.extractLsb' 0 6

/-- Clock bits 11:6 (R44, R202). -/
def clockHi (v : Word12) : Word := v.extractLsb' 6 6

/-- The cursor with bits 5:0 written (R48). -/
def cursorSetLo (k : Cursor) (v : Word) : Cursor := k.extractLsb' 6 12 ++ v

/-- The cursor with bits 11:6 written (R48). -/
def cursorSetMid (k : Cursor) (v : Word) : Cursor := k.extractLsb' 12 6 ++ v ++ k.extractLsb' 0 6

/-- The cursor with bits 17:12 written (R48). -/
def cursorSetHi (k : Cursor) (v : Word) : Cursor := v ++ k.extractLsb' 0 12

/-- The auto-increment: modulo MEM_SIZE (R49). -/
def cursorNext (memSize : Nat) (k : Cursor) : Cursor := BitVec.ofNat 18 ((k.toNat + 1) % memSize)

/-- The refreshed clock: the elapsed wall time in CLOCK_UNITs, rounded down and clamped to 12 bits (R209). A wall time
before the baseline counts as no time elapsed (DESIGN CHOICE, log entry 16). -/
def clockAt (unit wall baseline : Nat) : Word12 := BitVec.ofNat 12 (min 4095 ((wall - baseline) / unit))

end Sys2Proof.Machine
end

