-- ==== Sys2Proof/Config.lean ====
section
/-!
DEFINITION. Config.lean: the parameters the spec leaves to the implementation (00_scope.md R10), and the free values of the
model (constants without a body). The parameters are DATA: State carries a `Params`, which no step changes, so that a
claim about every state covers every machine the parameters allow. The defaults the spec decides are Codes.default
(Decode.lean) and Params.default (Machine/State.lean).
-/

namespace Sys2Proof

/-- GPU_TICK_POLICY: where the renderer is polled (R210, 90_conflicts.md C4). -/
inductive TickPolicy where
  | both | everyCycle | clockReset
  deriving DecidableEq, Repr

/-- CLOCK_RESET_TEST: whether the clock devices test the field rs or the value x[rs] (R202, 90_conflicts.md C13). -/
inductive ClockResetTest where
  | field | value
  deriving DecidableEq, Repr

/-- When a quit that the poll inside a clock reset returns halts the machine. The spec's rules differ: R210, R221,
R228, R230 and D27 put it at the end of the cycle, after pc has advanced; R208 and R232 put it inside the step.
DESIGN CHOICE, log entry 7: both are modelled, and the first is the default. -/
inductive QuitPoint where
  | endOfCycle | insideStep
  deriving DecidableEq, Repr

/-- Which of the word's fields carry an op's first, second and third operand, in that order. R70 counts the operands as
its table does: its column a holds the first, b the second, c the third. -/
inductive FieldOrder where
  | abc | acb | bac | bca | cab | cba
  deriving DecidableEq, Repr

/-- FIELD_MAP: one entry per row of R70 whose placement is the spec's own choice (D3). The placements of LBL, JUP, JDN and
IO are the source's, and HLT ignores its fields. -/
structure FieldMap where
  /-- ADD SUB OR XOR AND SHL SHR. -/
  registers : FieldOrder
  /-- ADDI ORI XORI ANDI. -/
  immediates : FieldOrder
  shi : FieldOrder
  cmp : FieldOrder
  fm : FieldOrder
  ld : FieldOrder
  st : FieldOrder
  deriving DecidableEq, Repr

/-- Where the six bits of a sub-field stand: entry i is the bit of the 6-bit field that holds bit i of the layout in
R72, R75 or R76. -/
abbrev Layout := Vector (Fin 6) 6

/-- The numberings and placements that R10 makes parameters, as tables. -/
structure Codes where
  /-- OP_CODE: the op of each number (R64, D1). -/
  ops : Vector Op 21
  /-- COND_CODE: the cond of each number (R65, D2). -/
  conds : Vector Cond 3
  /-- FIELD_MAP (R70, D3). -/
  fieldMap : FieldMap
  /-- CMP_LAYOUT: where the bits of {0, ctype, cm} stand (R72, D4). -/
  cmpLayout : Layout
  /-- CMP_TYPE_CODE: the comparison type of each code (R73, D4). -/
  cmpTypes : Vector CmpType 4
  /-- CM_CODE: the comparator of each code (R74, D5). -/
  comparators : Vector Comparator 8
  /-- SHI_LAYOUT: where the bits of {0, shtype, dist} stand (R75, D6). -/
  shiLayout : Layout
  /-- SHI_TYPE_CODE: the shift type of each code (R75, D6). -/
  shiftTypes : Vector ShiftType 4
  /-- FM_LAYOUT: where the bits of {0, mode, frac} stand (R76, D7). -/
  fmLayout : Layout
  /-- FM_MODE_CODE: the mode of each code (R76, D7). -/
  fmModes : Vector FmMode 2
  /-- IO_DEV_CODE: the registry of devices, keyed by device index (R195, R197, D21). -/
  devices : List (Word × Device)
  deriving DecidableEq, Repr

/-- The parameters of R10 that a model takes as arguments. REG_INIT, CF_INIT and the tape, whose length is TAPE_LEN, are
draws of Machine.Launch. -/
structure Params where
  /-- OP_CODE, COND_CODE, FIELD_MAP, the sub-field layouts and codes, and IO_DEV_CODE. -/
  codes : Codes
  /-- LOGIC_NEG_B: OR, XOR and AND negate their second register operand (R110). -/
  logicNegB : Bool
  /-- FM_SIGNED_OPERANDS: FM in signed mode sign-extends its operands before the multiply (R163). -/
  fmSignedOperands : Bool
  /-- PC_INIT: the first pc (R50, R255). -/
  pcInit : Nat
  /-- HAS_MEM: the machine has the memory window (R47). -/
  hasMem : Bool
  /-- MEM_SIZE: the number of memory-window cells, 1 to 2^18 (R47). -/
  memSize : Nat
  /-- HAS_RENDERER: a renderer is attached (R207, R208). -/
  hasRenderer : Bool
  /-- CLOCK_RESET_TEST (R202). -/
  clockResetTest : ClockResetTest
  /-- CLOCK_UNIT: how much wall time one clock count is, at least 1 of whatever the wall time is counted in (R209). -/
  clockUnit : Nat
  /-- GPU_TICK_POLICY (R210). -/
  gpuTickPolicy : TickPolicy
  /-- The model's own parameter: see QuitPoint. -/
  clockResetQuit : QuitPoint
  deriving DecidableEq, Repr

/-- FREE VALUE (log entry 3): CLOCK_UNIT of the default machine. R10 and D36 leave it OPEN, with no default. -/
opaque Config.clockUnit : ℕ+

/-- FREE VALUE (log entry 3): the wall times that are read in cycles which the schedule in State does not list. The spec
leaves every clock value open (R209, D36), so nothing constrains it. -/
opaque Config.wallTime : Nat → Nat

/-- FREE VALUE (log entry 12): the printed glyph of serial value 63, which the source does not give (R201, I24). -/
opaque Config.placeholderGlyph : Char

end Sys2Proof
end

