-- ==== Sys2Proof/Syntax.lean ====
section
/-!
DEFINITION. Syntax.lean: the instructions, one constructor per row of opcode_table.json: INVALID (the reserved field
value 0, R63) and each of the 21 ops (R64) under each of the 3 conds (R65). A constructor with no suffix is the
unconditional row, one ending in T the row gated by cf, one ending in F the row gated by not cf.
The operands stand in the order of the word's fields a, b and c (R70), with the sub-fields of CMP, SHI and FM taken apart
(R72, R75, R76). `zero` is the sub-field bit the spec wants clear (R78); a word from ROM bytes may have it set.
HLT's three fields are ignored when it runs (R82) but are part of its word (R67).
-/

namespace Sys2Proof

/-- One instruction: one constructor per row of the opcode table. -/
inductive Instr where
  /-- INVALID: F = 0, whatever the other fields hold (R63, R182). -/
  | invalid
  -- cond always (R65)
  /-- ADD rd, ra, rb (R100). -/
  | add (rd ra rb : Word)
  /-- ADDI rd, ra, imm (R101). -/
  | addi (rd ra imm : Word)
  /-- SUB rd, ra, rb (R102). -/
  | sub (rd ra rb : Word)
  /-- OR rd, ra, rb (R103). -/
  | or (rd ra rb : Word)
  /-- ORI rd, ra, imm (R104). -/
  | ori (rd ra imm : Word)
  /-- XOR rd, ra, rb (R105). -/
  | xor (rd ra rb : Word)
  /-- XORI rd, ra, imm (R106). -/
  | xori (rd ra imm : Word)
  /-- AND rd, ra, rb (R107). -/
  | and (rd ra rb : Word)
  /-- ANDI rd, ra, imm (R108). -/
  | andi (rd ra imm : Word)
  /-- SHL rd, ra, rb (R120). -/
  | shl (rd ra rb : Word)
  /-- SHR rd, ra, rb (R121). -/
  | shr (rd ra rb : Word)
  /-- SHI rd, ra, TYPE, dist (R122). -/
  | shi (rd ra : Word) (zero : Bool) (ty : ShiftType) (dist : BitVec 3)
  /-- CMP cm, A, B (R140). -/
  | cmp (zero : Bool) (ctype : CmpType) (cm : Comparator) (a b : Word)
  /-- FM rd, rs, MODE, frac (R160). -/
  | fm (rd rs : Word) (zero : Bool) (mode : FmMode) (frac : BitVec 4)
  /-- LD rd, [ra+imm] (R170). -/
  | ld (rd ra imm : Word)
  /-- ST [ra+imm], rs (R171). -/
  | st (rs ra imm : Word)
  /-- LBL a, b, c (R180). -/
  | lbl (keyHi keyLo val : Word)
  /-- HLT (R181). -/
  | hlt (a b c : Word)
  /-- JUP a, b, rc (R183). -/
  | jup (keyHi keyLo rc : Word)
  /-- JDN a, b, rc (R184). -/
  | jdn (keyHi keyLo rc : Word)
  /-- IO rd, DEVICE, rs (R190). -/
  | io (rd device rs : Word)
  -- cond ifTrue (R65)
  /-- ADD.T rd, ra, rb (R100). -/
  | addT (rd ra rb : Word)
  /-- ADDI.T rd, ra, imm (R101). -/
  | addiT (rd ra imm : Word)
  /-- SUB.T rd, ra, rb (R102). -/
  | subT (rd ra rb : Word)
  /-- OR.T rd, ra, rb (R103). -/
  | orT (rd ra rb : Word)
  /-- ORI.T rd, ra, imm (R104). -/
  | oriT (rd ra imm : Word)
  /-- XOR.T rd, ra, rb (R105). -/
  | xorT (rd ra rb : Word)
  /-- XORI.T rd, ra, imm (R106). -/
  | xoriT (rd ra imm : Word)
  /-- AND.T rd, ra, rb (R107). -/
  | andT (rd ra rb : Word)
  /-- ANDI.T rd, ra, imm (R108). -/
  | andiT (rd ra imm : Word)
  /-- SHL.T rd, ra, rb (R120). -/
  | shlT (rd ra rb : Word)
  /-- SHR.T rd, ra, rb (R121). -/
  | shrT (rd ra rb : Word)
  /-- SHI.T rd, ra, TYPE, dist (R122). -/
  | shiT (rd ra : Word) (zero : Bool) (ty : ShiftType) (dist : BitVec 3)
  /-- CMP.T cm, A, B (R140). -/
  | cmpT (zero : Bool) (ctype : CmpType) (cm : Comparator) (a b : Word)
  /-- FM.T rd, rs, MODE, frac (R160). -/
  | fmT (rd rs : Word) (zero : Bool) (mode : FmMode) (frac : BitVec 4)
  /-- LD.T rd, [ra+imm] (R170). -/
  | ldT (rd ra imm : Word)
  /-- ST.T [ra+imm], rs (R171). -/
  | stT (rs ra imm : Word)
  /-- LBL.T a, b, c (R180). -/
  | lblT (keyHi keyLo val : Word)
  /-- HLT.T (R181). -/
  | hltT (a b c : Word)
  /-- JUP.T a, b, rc (R183). -/
  | jupT (keyHi keyLo rc : Word)
  /-- JDN.T a, b, rc (R184). -/
  | jdnT (keyHi keyLo rc : Word)
  /-- IO.T rd, DEVICE, rs (R190). -/
  | ioT (rd device rs : Word)
  -- cond ifFalse (R65)
  /-- ADD.F rd, ra, rb (R100). -/
  | addF (rd ra rb : Word)
  /-- ADDI.F rd, ra, imm (R101). -/
  | addiF (rd ra imm : Word)
  /-- SUB.F rd, ra, rb (R102). -/
  | subF (rd ra rb : Word)
  /-- OR.F rd, ra, rb (R103). -/
  | orF (rd ra rb : Word)
  /-- ORI.F rd, ra, imm (R104). -/
  | oriF (rd ra imm : Word)
  /-- XOR.F rd, ra, rb (R105). -/
  | xorF (rd ra rb : Word)
  /-- XORI.F rd, ra, imm (R106). -/
  | xoriF (rd ra imm : Word)
  /-- AND.F rd, ra, rb (R107). -/
  | andF (rd ra rb : Word)
  /-- ANDI.F rd, ra, imm (R108). -/
  | andiF (rd ra imm : Word)
  /-- SHL.F rd, ra, rb (R120). -/
  | shlF (rd ra rb : Word)
  /-- SHR.F rd, ra, rb (R121). -/
  | shrF (rd ra rb : Word)
  /-- SHI.F rd, ra, TYPE, dist (R122). -/
  | shiF (rd ra : Word) (zero : Bool) (ty : ShiftType) (dist : BitVec 3)
  /-- CMP.F cm, A, B (R140). -/
  | cmpF (zero : Bool) (ctype : CmpType) (cm : Comparator) (a b : Word)
  /-- FM.F rd, rs, MODE, frac (R160). -/
  | fmF (rd rs : Word) (zero : Bool) (mode : FmMode) (frac : BitVec 4)
  /-- LD.F rd, [ra+imm] (R170). -/
  | ldF (rd ra imm : Word)
  /-- ST.F [ra+imm], rs (R171). -/
  | stF (rs ra imm : Word)
  /-- LBL.F a, b, c (R180). -/
  | lblF (keyHi keyLo val : Word)
  /-- HLT.F (R181). -/
  | hltF (a b c : Word)
  /-- JUP.F a, b, rc (R183). -/
  | jupF (keyHi keyLo rc : Word)
  /-- JDN.F a, b, rc (R184). -/
  | jdnF (keyHi keyLo rc : Word)
  /-- IO.F rd, DEVICE, rs (R190). -/
  | ioF (rd device rs : Word)
  deriving DecidableEq, Repr

end Sys2Proof
end

