-- ==== Sys2Proof/WellFormed.lean ====
section
/-!
DEFINITION. WellFormed.lean: the instructions that the assembler can produce (30_encoding.md R95): every register,
immediate and sub-field is in range by its type, and what remains to be checked is that the sub-field bit of SHI, CMP and
FM is clear (R78) and that the instruction is not INVALID, which has no assembler form (R91) and no encoding (R67).
-/

namespace Sys2Proof

/-- The assembler can produce this instruction (R95). -/
def Instr.wellFormed : Instr → Bool
  | .invalid => false
  | .add _ _ _ => true
  | .addi _ _ _ => true
  | .sub _ _ _ => true
  | .or _ _ _ => true
  | .ori _ _ _ => true
  | .xor _ _ _ => true
  | .xori _ _ _ => true
  | .and _ _ _ => true
  | .andi _ _ _ => true
  | .shl _ _ _ => true
  | .shr _ _ _ => true
  | .shi _ _ zero _ _ => !zero
  | .cmp zero _ _ _ _ => !zero
  | .fm _ _ zero _ _ => !zero
  | .ld _ _ _ => true
  | .st _ _ _ => true
  | .lbl _ _ _ => true
  | .hlt _ _ _ => true
  | .jup _ _ _ => true
  | .jdn _ _ _ => true
  | .io _ _ _ => true
  | .addT _ _ _ => true
  | .addiT _ _ _ => true
  | .subT _ _ _ => true
  | .orT _ _ _ => true
  | .oriT _ _ _ => true
  | .xorT _ _ _ => true
  | .xoriT _ _ _ => true
  | .andT _ _ _ => true
  | .andiT _ _ _ => true
  | .shlT _ _ _ => true
  | .shrT _ _ _ => true
  | .shiT _ _ zero _ _ => !zero
  | .cmpT zero _ _ _ _ => !zero
  | .fmT _ _ zero _ _ => !zero
  | .ldT _ _ _ => true
  | .stT _ _ _ => true
  | .lblT _ _ _ => true
  | .hltT _ _ _ => true
  | .jupT _ _ _ => true
  | .jdnT _ _ _ => true
  | .ioT _ _ _ => true
  | .addF _ _ _ => true
  | .addiF _ _ _ => true
  | .subF _ _ _ => true
  | .orF _ _ _ => true
  | .oriF _ _ _ => true
  | .xorF _ _ _ => true
  | .xoriF _ _ _ => true
  | .andF _ _ _ => true
  | .andiF _ _ _ => true
  | .shlF _ _ _ => true
  | .shrF _ _ _ => true
  | .shiF _ _ zero _ _ => !zero
  | .cmpF zero _ _ _ _ => !zero
  | .fmF _ _ zero _ _ => !zero
  | .ldF _ _ _ => true
  | .stF _ _ _ => true
  | .lblF _ _ _ => true
  | .hltF _ _ _ => true
  | .jupF _ _ _ => true
  | .jdnF _ _ _ => true
  | .ioF _ _ _ => true

end Sys2Proof
end

