-- ==== Sys2Proof/Decode.lean ====
section
/-!
DEFINITION. Decode.lean: the decoder (30_encoding.md R60 to R79), from ROM bytes and from the 24-bit word, and after it
the encoder (R66), both over the same tables. The decoder is total on words (R68): the field value 0 is INVALID and each
of the other 63 is an op under a cond. On bytes it rejects, by name, an input shorter than a word.
The numberings and placements are the parameters Codes of R10; their defaults are the spec's own decisions D1 to D7 and
D21 (log entry 9), and `decode` and `encode` are the decoder and the encoder under the defaults.
-/

namespace Sys2Proof

/-! ## The default code tables -/

/-- Op numbers (R64, the default OP_CODE). -/
def Op.code : Op → Nat
  | .add => 0
  | .addi => 1
  | .sub => 2
  | .or => 3
  | .ori => 4
  | .xor => 5
  | .xori => 6
  | .and => 7
  | .andi => 8
  | .shl => 9
  | .shr => 10
  | .shi => 11
  | .cmp => 12
  | .fm => 13
  | .ld => 14
  | .st => 15
  | .lbl => 16
  | .hlt => 17
  | .jup => 18
  | .jdn => 19
  | .io => 20

/-- The ops in the order of their numbers (R64). -/
def Op.table : List Op :=
  [.add, .addi, .sub, .or, .ori, .xor, .xori, .and, .andi, .shl, .shr, .shi, .cmp, .fm, .ld, .st, .lbl, .hlt, .jup, .jdn, .io]

/-- Cond numbers (R65, the default COND_CODE). -/
def Cond.code : Cond → Nat
  | .always => 0
  | .ifTrue => 1
  | .ifFalse => 2

/-- The conds in the order of their numbers (R65). -/
def Cond.table : List Cond := [.always, .ifTrue, .ifFalse]

/-- SHI shift-type codes (R75). -/
def ShiftType.code : ShiftType → BitVec 2
  | .lsl => 0
  | .lsr => 1
  | .asr => 2
  | .rol => 3

/-- The shift types in the order of their codes (R75). -/
def ShiftType.table : List ShiftType := [.lsl, .lsr, .asr, .rol]

/-- The inverse of ShiftType.code; every code is used. -/
def ShiftType.ofCode (v : BitVec 2) : ShiftType :=
  match (v.toFin : Fin 4) with
  | 0 => .lsl
  | 1 => .lsr
  | 2 => .asr
  | 3 => .rol

/-- CMP comparison-type codes (R73). -/
def CmpType.code : CmpType → BitVec 2
  | .rr => 0
  | .ri => 1
  | .ir => 2
  | .ii => 3

/-- The comparison types in the order of their codes (R73). -/
def CmpType.table : List CmpType := [.rr, .ri, .ir, .ii]

/-- The inverse of CmpType.code; every code is used. -/
def CmpType.ofCode (v : BitVec 2) : CmpType :=
  match (v.toFin : Fin 4) with
  | 0 => .rr
  | 1 => .ri
  | 2 => .ir
  | 3 => .ii

/-- CMP comparator codes (R74). -/
def Comparator.code : Comparator → BitVec 3
  | .tr => 0
  | .fa => 1
  | .eq => 2
  | .ne => 3
  | .slt => 4
  | .sgt => 5
  | .ult => 6
  | .ugt => 7

/-- The comparators in the order of their codes (R74). -/
def Comparator.table : List Comparator := [.tr, .fa, .eq, .ne, .slt, .sgt, .ult, .ugt]

/-- The inverse of Comparator.code; every code is used. -/
def Comparator.ofCode (v : BitVec 3) : Comparator :=
  match (v.toFin : Fin 8) with
  | 0 => .tr
  | 1 => .fa
  | 2 => .eq
  | 3 => .ne
  | 4 => .slt
  | 5 => .sgt
  | 6 => .ult
  | 7 => .ugt

/-- FM mode codes (R76). -/
def FmMode.code : FmMode → BitVec 1
  | .unsigned => 0
  | .signed => 1

/-- The modes in the order of their codes (R76). -/
def FmMode.table : List FmMode := [.unsigned, .signed]

/-- The inverse of FmMode.code; every code is used. -/
def FmMode.ofCode (v : BitVec 1) : FmMode :=
  match (v.toFin : Fin 2) with
  | 0 => .unsigned
  | 1 => .signed

/-- The devices in the order of R197. -/
def Device.table : List Device :=
  [.serialIncoming, .serialRead, .serialWrite, .clockLoCs, .clockHiCs, .memAddrLo, .memAddrMid, .memAddrHi, .memRead,
    .memWrite, .gpuX, .gpuY, .gpuDraw]

/-- The defaults of OP_CODE, COND_CODE, FIELD_MAP, the sub-field layouts and codes, and IO_DEV_CODE (R10). -/
def Codes.default : Codes where
  ops :=
    #v[.add, .addi, .sub, .or, .ori, .xor, .xori, .and, .andi, .shl, .shr, .shi, .cmp, .fm, .ld, .st, .lbl, .hlt, .jup,
      .jdn, .io]
  conds := #v[.always, .ifTrue, .ifFalse]
  fieldMap := { registers := .abc, immediates := .abc, shi := .abc, cmp := .abc, fm := .abc, ld := .abc, st := .abc }
  cmpLayout := #v[0, 1, 2, 3, 4, 5]
  cmpTypes := #v[.rr, .ri, .ir, .ii]
  comparators := #v[.tr, .fa, .eq, .ne, .slt, .sgt, .ult, .ugt]
  shiLayout := #v[0, 1, 2, 3, 4, 5]
  shiftTypes := #v[.lsl, .lsr, .asr, .rol]
  fmLayout := #v[0, 1, 2, 3, 4, 5]
  fmModes := #v[.unsigned, .signed]
  devices :=
    [(0, .serialIncoming), (1, .serialRead), (2, .serialWrite), (3, .clockLoCs), (4, .clockHiCs), (5, .memAddrLo),
      (6, .memAddrMid), (7, .memAddrHi), (8, .memRead), (9, .memWrite), (10, .gpuX), (11, .gpuY), (12, .gpuDraw)]

/-! ## Numberings and placements in general -/

/-- The number a table gives x. -/
def codeIn {α : Type} [DecidableEq α] {n : Nat} (t : Vector α n) (x : α) : Nat := t.toList.idxOf x

/-- Every bit of the field is used once. -/
def Layout.wf (l : Layout) : Bool := l.toList.isPerm (List.finRange 6)

/-- The tables are what R10 says they are: each numbers every name once, each layout uses every bit of its field once, and
no two devices share an index. -/
def Codes.wf (k : Codes) : Bool :=
  k.ops.toList.isPerm Op.table && k.conds.toList.isPerm Cond.table &&
  Layout.wf k.cmpLayout && k.cmpTypes.toList.isPerm CmpType.table && k.comparators.toList.isPerm Comparator.table &&
  Layout.wf k.shiLayout && k.shiftTypes.toList.isPerm ShiftType.table &&
  Layout.wf k.fmLayout && k.fmModes.toList.isPerm FmMode.table &&
  (k.devices.map (·.2)).isPerm Device.table && decide (k.devices.map (·.1)).Nodup

/-- The device an index names; the others name none (R195, R197, R207). -/
def Codes.deviceOf (k : Codes) (index : Word) : Option Device := k.devices.lookup index

/-- The index of a device (R197). -/
def Codes.indexOf (k : Codes) (d : Device) : Option Word := (k.devices.find? fun e => decide (e.2 = d)).map (·.1)

/-- The order of an op's operands in its word (R70). -/
def FieldMap.order (m : FieldMap) : Op → FieldOrder
  | .add | .sub | .or | .xor | .and | .shl | .shr => m.registers
  | .addi | .ori | .xori | .andi => m.immediates
  | .shi => m.shi
  | .cmp => m.cmp
  | .fm => m.fm
  | .ld => m.ld
  | .st => m.st
  | .lbl | .hlt | .jup | .jdn | .io => .abc

/-- The 6-bit value with these bits. -/
def ofBits (b : Nat → Bool) : Word :=
  BitVec.ofBool (b 5) ++ BitVec.ofBool (b 4) ++ BitVec.ofBool (b 3) ++ BitVec.ofBool (b 2) ++ BitVec.ofBool (b 1) ++
    BitVec.ofBool (b 0)

/-- A sub-field with its bits put where R72, R75 and R76 have them. -/
def Layout.gather (l : Layout) (v : Word) : Word := ofBits fun i => v.getLsbD (l.toList.getD i 0).val

/-- The field that holds the bits of a sub-field where the layout wants them. -/
def Layout.scatter (l : Layout) (v : Word) : Word := ofBits fun j => v.getLsbD (l.toList.idxOf (Fin.ofNat 6 j))

/-! ## The instruction word and its fields -/

/-- The opcode-combined field `F = w[23:18]` (R62). -/
def fieldF (w : InsnWord) : Word := w.extractLsb' 18 6

/-- `a = w[17:12]` (R62). -/
def fieldA (w : InsnWord) : Word := w.extractLsb' 12 6

/-- `b = w[11:6]` (R62). -/
def fieldB (w : InsnWord) : Word := w.extractLsb' 6 6

/-- `c = w[5:0]` (R62). -/
def fieldC (w : InsnWord) : Word := w.extractLsb' 0 6

/-- The word `{F, a, b, c}` (R60, R66). -/
def mkWord (f a b c : Word) : InsnWord := f ++ a ++ b ++ c

/-- Word assembly: three bytes, big-endian (R43, R61). -/
def wordOfBytes (b0 b1 b2 : Byte) : InsnWord := b0 ++ b1 ++ b2

/-- `B0 = w[23:16]`, `B1 = w[15:8]`, `B2 = w[7:0]` (R66). -/
def bytesOfWord (w : InsnWord) : List Byte :=
  [w.extractLsb' 16 8, w.extractLsb' 8 8, w.extractLsb' 0 8]

/-- A record of a word with F ≠ 0: op, cond and three 6-bit fields. The decoder's own record holds the word's fields a, b
and c as they stand (R79). The operand record holds the op's operands in the order of R70, with the sub-fields laid out
and coded as in R72 to R76; under the default codes the two are the same. -/
structure Fields where
  op : Op
  cond : Cond
  a : Word
  b : Word
  c : Word
  deriving DecidableEq, Repr

/-- SHI's field c is `{zero, shtype[1:0], dist[2:0]}` (R75). -/
def shiSub (zero : Bool) (ty : ShiftType) (dist : BitVec 3) : Word := BitVec.ofBool zero ++ ty.code ++ dist

/-- CMP's field a is `{zero, ctype[1:0], cm[2:0]}` (R72). -/
def cmpSub (zero : Bool) (ctype : CmpType) (cm : Comparator) : Word := BitVec.ofBool zero ++ ctype.code ++ cm.code

/-- FM's field c is `{zero, mode, frac[3:0]}` (R76). -/
def fmSub (zero : Bool) (mode : FmMode) (frac : BitVec 4) : Word := BitVec.ofBool zero ++ mode.code ++ frac

/-- The sub-field bit that must be 0: bit 5 (R72, R75, R76, R78). -/
def subZero (v : Word) : Bool := v.getLsbD 5

/-- `shtype = c[4:3]` (R75). -/
def shiType (c : Word) : ShiftType := ShiftType.ofCode (c.extractLsb' 3 2)

/-- `dist = c[2:0]` (R75). -/
def shiDist (c : Word) : BitVec 3 := c.extractLsb' 0 3

/-- `ctype = a[4:3]` (R72). -/
def cmpType (a : Word) : CmpType := CmpType.ofCode (a.extractLsb' 3 2)

/-- `cm = a[2:0]` (R72). -/
def cmpComparator (a : Word) : Comparator := Comparator.ofCode (a.extractLsb' 0 3)

/-- `mode = c[4]` (R76). -/
def fmMode (c : Word) : FmMode := FmMode.ofCode (c.extractLsb' 4 1)

/-- `frac = c[3:0]` (R76). -/
def fmFrac (c : Word) : BitVec 4 := c.extractLsb' 0 4

/-! ## The decoder -/

/-- The instruction of an operand record: the columns of R70. -/
def Instr.ofFields (f : Fields) : Instr :=
  match f.op, f.cond with
  | .add, .always => .add f.a f.b f.c
  | .addi, .always => .addi f.a f.b f.c
  | .sub, .always => .sub f.a f.b f.c
  | .or, .always => .or f.a f.b f.c
  | .ori, .always => .ori f.a f.b f.c
  | .xor, .always => .xor f.a f.b f.c
  | .xori, .always => .xori f.a f.b f.c
  | .and, .always => .and f.a f.b f.c
  | .andi, .always => .andi f.a f.b f.c
  | .shl, .always => .shl f.a f.b f.c
  | .shr, .always => .shr f.a f.b f.c
  | .shi, .always => .shi f.a f.b (subZero f.c) (shiType f.c) (shiDist f.c)
  | .cmp, .always => .cmp (subZero f.a) (cmpType f.a) (cmpComparator f.a) f.b f.c
  | .fm, .always => .fm f.a f.b (subZero f.c) (fmMode f.c) (fmFrac f.c)
  | .ld, .always => .ld f.a f.b f.c
  | .st, .always => .st f.a f.b f.c
  | .lbl, .always => .lbl f.a f.b f.c
  | .hlt, .always => .hlt f.a f.b f.c
  | .jup, .always => .jup f.a f.b f.c
  | .jdn, .always => .jdn f.a f.b f.c
  | .io, .always => .io f.a f.b f.c
  | .add, .ifTrue => .addT f.a f.b f.c
  | .addi, .ifTrue => .addiT f.a f.b f.c
  | .sub, .ifTrue => .subT f.a f.b f.c
  | .or, .ifTrue => .orT f.a f.b f.c
  | .ori, .ifTrue => .oriT f.a f.b f.c
  | .xor, .ifTrue => .xorT f.a f.b f.c
  | .xori, .ifTrue => .xoriT f.a f.b f.c
  | .and, .ifTrue => .andT f.a f.b f.c
  | .andi, .ifTrue => .andiT f.a f.b f.c
  | .shl, .ifTrue => .shlT f.a f.b f.c
  | .shr, .ifTrue => .shrT f.a f.b f.c
  | .shi, .ifTrue => .shiT f.a f.b (subZero f.c) (shiType f.c) (shiDist f.c)
  | .cmp, .ifTrue => .cmpT (subZero f.a) (cmpType f.a) (cmpComparator f.a) f.b f.c
  | .fm, .ifTrue => .fmT f.a f.b (subZero f.c) (fmMode f.c) (fmFrac f.c)
  | .ld, .ifTrue => .ldT f.a f.b f.c
  | .st, .ifTrue => .stT f.a f.b f.c
  | .lbl, .ifTrue => .lblT f.a f.b f.c
  | .hlt, .ifTrue => .hltT f.a f.b f.c
  | .jup, .ifTrue => .jupT f.a f.b f.c
  | .jdn, .ifTrue => .jdnT f.a f.b f.c
  | .io, .ifTrue => .ioT f.a f.b f.c
  | .add, .ifFalse => .addF f.a f.b f.c
  | .addi, .ifFalse => .addiF f.a f.b f.c
  | .sub, .ifFalse => .subF f.a f.b f.c
  | .or, .ifFalse => .orF f.a f.b f.c
  | .ori, .ifFalse => .oriF f.a f.b f.c
  | .xor, .ifFalse => .xorF f.a f.b f.c
  | .xori, .ifFalse => .xoriF f.a f.b f.c
  | .and, .ifFalse => .andF f.a f.b f.c
  | .andi, .ifFalse => .andiF f.a f.b f.c
  | .shl, .ifFalse => .shlF f.a f.b f.c
  | .shr, .ifFalse => .shrF f.a f.b f.c
  | .shi, .ifFalse => .shiF f.a f.b (subZero f.c) (shiType f.c) (shiDist f.c)
  | .cmp, .ifFalse => .cmpF (subZero f.a) (cmpType f.a) (cmpComparator f.a) f.b f.c
  | .fm, .ifFalse => .fmF f.a f.b (subZero f.c) (fmMode f.c) (fmFrac f.c)
  | .ld, .ifFalse => .ldF f.a f.b f.c
  | .st, .ifFalse => .stF f.a f.b f.c
  | .lbl, .ifFalse => .lblF f.a f.b f.c
  | .hlt, .ifFalse => .hltF f.a f.b f.c
  | .jup, .ifFalse => .jupF f.a f.b f.c
  | .jdn, .ifFalse => .jdnF f.a f.b f.c
  | .io, .ifFalse => .ioF f.a f.b f.c

/-- The decoder's record of a word whose field F is not 0: `value = F - 1`, `op = value mod 21`,
`cond = value div 21` (R64, R79). -/
def Codes.decodeFields (k : Codes) (w : InsnWord) (h : fieldF w ≠ 0#6) : Fields where
  op := k.ops[((fieldF w).toNat - 1) % 21]'(Nat.mod_lt _ (by decide))
  cond := k.conds[((fieldF w).toNat - 1) / 21]'(by
    have := (fieldF w).isLt
    have : (fieldF w).toNat ≠ 0 := fun h0 => h (BitVec.eq_of_toNat_eq h0)
    omega)
  a := fieldA w
  b := fieldB w
  c := fieldC w

/-- The operands in the fields a, b and c, put into the columns of R70. -/
def FieldOrder.operands (o : FieldOrder) (f : Fields) : Fields :=
  match o with
  | .abc => f
  | .acb => { f with b := f.c, c := f.b }
  | .bac => { f with a := f.b, b := f.a }
  | .bca => { f with a := f.b, b := f.c, c := f.a }
  | .cab => { f with a := f.c, b := f.a, c := f.b }
  | .cba => { f with a := f.c, c := f.a }

/-- The op's sub-field, changed by the function for its op. -/
def Fields.mapSubfield (cmp shi fm : Word → Word) (f : Fields) : Fields :=
  match f.op with
  | .cmp => { f with a := cmp f.a }
  | .shi => { f with c := shi f.c }
  | .fm => { f with c := fm f.c }
  | .add | .addi | .sub | .or | .ori | .xor | .xori | .and | .andi | .shl | .shr | .ld | .st | .lbl | .hlt | .jup
  | .jdn | .io => f

/-- CMP's sub-field as R72 to R74 lay it out and code it. -/
def Codes.readCmp (k : Codes) (v : Word) : Word :=
  let u := k.cmpLayout.gather v
  cmpSub (subZero u) (k.cmpTypes.get (u.extractLsb' 3 2).toFin) (k.comparators.get (u.extractLsb' 0 3).toFin)

/-- SHI's sub-field as R75 lays it out and codes it. -/
def Codes.readShi (k : Codes) (v : Word) : Word :=
  let u := k.shiLayout.gather v
  shiSub (subZero u) (k.shiftTypes.get (u.extractLsb' 3 2).toFin) (shiDist u)

/-- FM's sub-field as R76 lays it out and codes it. -/
def Codes.readFm (k : Codes) (v : Word) : Word :=
  let u := k.fmLayout.gather v
  fmSub (subZero u) (k.fmModes.get (u.extractLsb' 4 1).toFin) (fmFrac u)

/-- The operand record of the decoder's record (R70, R72 to R76). -/
def Codes.operands (k : Codes) (f : Fields) : Fields :=
  ((k.fieldMap.order f.op).operands f).mapSubfield k.readCmp k.readShi k.readFm

/-- The decoder on a word, total (R63, R64, R68, R79). -/
def Codes.decode (k : Codes) (w : InsnWord) : Instr :=
  if h : fieldF w = 0#6 then .invalid else .ofFields (k.operands (k.decodeFields w h))

/-- Why the decoder rejects an input: fewer than the three bytes of a word are left. No word is rejected (R68). -/
inductive DecodeError where
  | tooFewBytes
  deriving DecidableEq, Repr

/-- The decoder on ROM bytes: the first instruction and the bytes after it (R61). -/
def Codes.decodeBytes (k : Codes) : List Byte → Except DecodeError (Instr × List Byte)
  | b0 :: b1 :: b2 :: rest => .ok (k.decode (wordOfBytes b0 b1 b2), rest)
  | _ => .error .tooFewBytes

/-- The decoder under the default codes. -/
abbrev decode (w : InsnWord) : Instr := Codes.default.decode w

/-- The decoder on ROM bytes under the default codes. -/
abbrev decodeBytes (bytes : List Byte) : Except DecodeError (Instr × List Byte) := Codes.default.decodeBytes bytes

/-- The decoder on a word numbered as opcode_table.json numbers it. A row has 24 bits, bit 0 being the least
significant bit of the 24-bit word (R11); its bytes lie most significant first (R43). -/
def decodeTableWord (nbits w : Nat) : Option Instr :=
  if nbits ≤ 24 then
    match decodeBytes (bytesOfWord (BitVec.ofNat 24 (w % 2 ^ nbits))) with
    | .ok (i, _) => some i
    | .error _ => none
  else none

/-! ## The encoder -/

/-- The operand record of an instruction; INVALID has none (R67, R70). -/
def Instr.fields : Instr → Option Fields
  | .invalid => none
  | .add rd ra rb => some ⟨.add, .always, rd, ra, rb⟩
  | .addi rd ra imm => some ⟨.addi, .always, rd, ra, imm⟩
  | .sub rd ra rb => some ⟨.sub, .always, rd, ra, rb⟩
  | .or rd ra rb => some ⟨.or, .always, rd, ra, rb⟩
  | .ori rd ra imm => some ⟨.ori, .always, rd, ra, imm⟩
  | .xor rd ra rb => some ⟨.xor, .always, rd, ra, rb⟩
  | .xori rd ra imm => some ⟨.xori, .always, rd, ra, imm⟩
  | .and rd ra rb => some ⟨.and, .always, rd, ra, rb⟩
  | .andi rd ra imm => some ⟨.andi, .always, rd, ra, imm⟩
  | .shl rd ra rb => some ⟨.shl, .always, rd, ra, rb⟩
  | .shr rd ra rb => some ⟨.shr, .always, rd, ra, rb⟩
  | .shi rd ra zero ty dist => some ⟨.shi, .always, rd, ra, shiSub zero ty dist⟩
  | .cmp zero ctype cm a b => some ⟨.cmp, .always, cmpSub zero ctype cm, a, b⟩
  | .fm rd rs zero mode frac => some ⟨.fm, .always, rd, rs, fmSub zero mode frac⟩
  | .ld rd ra imm => some ⟨.ld, .always, rd, ra, imm⟩
  | .st rs ra imm => some ⟨.st, .always, rs, ra, imm⟩
  | .lbl keyHi keyLo val => some ⟨.lbl, .always, keyHi, keyLo, val⟩
  | .hlt a b c => some ⟨.hlt, .always, a, b, c⟩
  | .jup keyHi keyLo rc => some ⟨.jup, .always, keyHi, keyLo, rc⟩
  | .jdn keyHi keyLo rc => some ⟨.jdn, .always, keyHi, keyLo, rc⟩
  | .io rd device rs => some ⟨.io, .always, rd, device, rs⟩
  | .addT rd ra rb => some ⟨.add, .ifTrue, rd, ra, rb⟩
  | .addiT rd ra imm => some ⟨.addi, .ifTrue, rd, ra, imm⟩
  | .subT rd ra rb => some ⟨.sub, .ifTrue, rd, ra, rb⟩
  | .orT rd ra rb => some ⟨.or, .ifTrue, rd, ra, rb⟩
  | .oriT rd ra imm => some ⟨.ori, .ifTrue, rd, ra, imm⟩
  | .xorT rd ra rb => some ⟨.xor, .ifTrue, rd, ra, rb⟩
  | .xoriT rd ra imm => some ⟨.xori, .ifTrue, rd, ra, imm⟩
  | .andT rd ra rb => some ⟨.and, .ifTrue, rd, ra, rb⟩
  | .andiT rd ra imm => some ⟨.andi, .ifTrue, rd, ra, imm⟩
  | .shlT rd ra rb => some ⟨.shl, .ifTrue, rd, ra, rb⟩
  | .shrT rd ra rb => some ⟨.shr, .ifTrue, rd, ra, rb⟩
  | .shiT rd ra zero ty dist => some ⟨.shi, .ifTrue, rd, ra, shiSub zero ty dist⟩
  | .cmpT zero ctype cm a b => some ⟨.cmp, .ifTrue, cmpSub zero ctype cm, a, b⟩
  | .fmT rd rs zero mode frac => some ⟨.fm, .ifTrue, rd, rs, fmSub zero mode frac⟩
  | .ldT rd ra imm => some ⟨.ld, .ifTrue, rd, ra, imm⟩
  | .stT rs ra imm => some ⟨.st, .ifTrue, rs, ra, imm⟩
  | .lblT keyHi keyLo val => some ⟨.lbl, .ifTrue, keyHi, keyLo, val⟩
  | .hltT a b c => some ⟨.hlt, .ifTrue, a, b, c⟩
  | .jupT keyHi keyLo rc => some ⟨.jup, .ifTrue, keyHi, keyLo, rc⟩
  | .jdnT keyHi keyLo rc => some ⟨.jdn, .ifTrue, keyHi, keyLo, rc⟩
  | .ioT rd device rs => some ⟨.io, .ifTrue, rd, device, rs⟩
  | .addF rd ra rb => some ⟨.add, .ifFalse, rd, ra, rb⟩
  | .addiF rd ra imm => some ⟨.addi, .ifFalse, rd, ra, imm⟩
  | .subF rd ra rb => some ⟨.sub, .ifFalse, rd, ra, rb⟩
  | .orF rd ra rb => some ⟨.or, .ifFalse, rd, ra, rb⟩
  | .oriF rd ra imm => some ⟨.ori, .ifFalse, rd, ra, imm⟩
  | .xorF rd ra rb => some ⟨.xor, .ifFalse, rd, ra, rb⟩
  | .xoriF rd ra imm => some ⟨.xori, .ifFalse, rd, ra, imm⟩
  | .andF rd ra rb => some ⟨.and, .ifFalse, rd, ra, rb⟩
  | .andiF rd ra imm => some ⟨.andi, .ifFalse, rd, ra, imm⟩
  | .shlF rd ra rb => some ⟨.shl, .ifFalse, rd, ra, rb⟩
  | .shrF rd ra rb => some ⟨.shr, .ifFalse, rd, ra, rb⟩
  | .shiF rd ra zero ty dist => some ⟨.shi, .ifFalse, rd, ra, shiSub zero ty dist⟩
  | .cmpF zero ctype cm a b => some ⟨.cmp, .ifFalse, cmpSub zero ctype cm, a, b⟩
  | .fmF rd rs zero mode frac => some ⟨.fm, .ifFalse, rd, rs, fmSub zero mode frac⟩
  | .ldF rd ra imm => some ⟨.ld, .ifFalse, rd, ra, imm⟩
  | .stF rs ra imm => some ⟨.st, .ifFalse, rs, ra, imm⟩
  | .lblF keyHi keyLo val => some ⟨.lbl, .ifFalse, keyHi, keyLo, val⟩
  | .hltF a b c => some ⟨.hlt, .ifFalse, a, b, c⟩
  | .jupF keyHi keyLo rc => some ⟨.jup, .ifFalse, keyHi, keyLo, rc⟩
  | .jdnF keyHi keyLo rc => some ⟨.jdn, .ifFalse, keyHi, keyLo, rc⟩
  | .ioF rd device rs => some ⟨.io, .ifFalse, rd, device, rs⟩

/-- The condition an instruction is gated by; INVALID has none (R86). -/
def Instr.cond (i : Instr) : Option Cond := i.fields.map (·.cond)

/-- The instruction's op; INVALID has none (R63). -/
def Instr.op (i : Instr) : Option Op := i.fields.map (·.op)

/-- The operands, put from the columns of R70 into the fields a, b and c. -/
def FieldOrder.place (o : FieldOrder) (f : Fields) : Fields :=
  match o with
  | .abc => f
  | .acb => { f with b := f.c, c := f.b }
  | .bac => { f with a := f.b, b := f.a }
  | .bca => { f with a := f.c, b := f.a, c := f.b }
  | .cab => { f with a := f.b, b := f.c, c := f.a }
  | .cba => { f with a := f.c, c := f.a }

/-- The field that holds CMP's sub-field v (R72 to R74). -/
def Codes.writeCmp (k : Codes) (v : Word) : Word :=
  k.cmpLayout.scatter (BitVec.ofBool (subZero v) ++ BitVec.ofNat 2 (codeIn k.cmpTypes (cmpType v)) ++
    BitVec.ofNat 3 (codeIn k.comparators (cmpComparator v)))

/-- The field that holds SHI's sub-field v (R75). -/
def Codes.writeShi (k : Codes) (v : Word) : Word :=
  k.shiLayout.scatter (BitVec.ofBool (subZero v) ++ BitVec.ofNat 2 (codeIn k.shiftTypes (shiType v)) ++ shiDist v)

/-- The field that holds FM's sub-field v (R76). -/
def Codes.writeFm (k : Codes) (v : Word) : Word :=
  k.fmLayout.scatter (BitVec.ofBool (subZero v) ++ BitVec.ofNat 1 (codeIn k.fmModes (fmMode v)) ++ fmFrac v)

/-- The decoder's record of an operand record (R70, R72 to R76). -/
def Codes.place (k : Codes) (f : Fields) : Fields :=
  (k.fieldMap.order f.op).place (f.mapSubfield k.writeCmp k.writeShi k.writeFm)

/-- `F = cond*21 + op + 1` (R66). -/
def Codes.opcodeField (k : Codes) (f : Fields) : Word :=
  BitVec.ofNat 6 (codeIn k.conds f.cond * 21 + codeIn k.ops f.op + 1)

/-- The word of a decoder's record (R66). -/
def Codes.word (k : Codes) (f : Fields) : InsnWord := mkWord (k.opcodeField f) f.a f.b f.c

/-- The encoder: the word of an instruction; INVALID has none (R66, R67). -/
def Codes.encode (k : Codes) (i : Instr) : Option InsnWord := i.fields.map fun f => k.word (k.place f)

/-- The encoder under the default codes. -/
abbrev encode (i : Instr) : Option InsnWord := Codes.default.encode i

/-- The encoder to ROM bytes, most significant first (R66). -/
def Codes.encodeBytes (k : Codes) (i : Instr) : Option (List Byte) := (k.encode i).map bytesOfWord

end Sys2Proof
end

