-- ==== Sys2Proof/Machine/State.lean ====
section
/-!
DEFINITION. Machine/State.lean: everything the spec gives the machine, as plain data: the block's register file and flag
(10_state.md R20 to R27), the environment's state (R28), the machine's parameters, and the inputs the outside world has
lined up (the input provider's lines, and what the wall clock, the renderer and the host do in the coming cycles).
The state after reset is State.launch applied to the draws of R252, R253 and R255.
-/

namespace Sys2Proof

/-- The defaults the spec decides (R10). CLOCK_UNIT has none: there the free value stands (log entry 3). -/
def Params.default : Params where
  codes := .default
  logicNegB := false
  fmSignedOperands := false
  pcInit := 0
  hasMem := true
  memSize := 2 ^ 18
  hasRenderer := true
  clockResetTest := .field
  clockUnit := Config.clockUnit
  gpuTickPolicy := .both
  clockResetQuit := .endOfCycle

/-- What R10 requires of the parameters: tables that number every name once, MEM_SIZE from 1 to 2^18, and a CLOCK_UNIT that
is some time. -/
def Params.wf (p : Params) : Bool :=
  p.codes.wf && decide (1 ≤ p.memSize) && decide (p.memSize ≤ 2 ^ 18) && decide (1 ≤ p.clockUnit)

end Sys2Proof

namespace Sys2Proof.Machine

/-- Why the machine halted, with what R221 records of it. A halt is STATE (R230): the instruction that halts takes a
next state in which this is set. -/
inductive Halt where
  /-- Executed HLT (R223). -/
  | hlt (pc : Nat)
  /-- Executed word with F = 0 (R222). -/
  | invalid (pc : Nat) (word : InsnWord)
  /-- Executed CMP, SHI or FM with the sub-field bit set (R224). -/
  | badSubfield (pc : Nat) (word : InsnWord)
  /-- Executed IO whose device index names no device (R225). -/
  | unknownIo (pc : Nat) (device : Word)
  /-- Executed JUP or JDN with no matching label (R226). -/
  | labelNotFound (pc : Nat) (key : Word12) (val : Word)
  /-- The renderer's update() returned quit (R228). -/
  | rendererQuit (pc : Nat)
  /-- The host's interrupt signal (R229). -/
  | hostAbort (pc : Nat)
  /-- ROM byte count not a multiple of 3; only the loader reports it (R227). -/
  | romLength (bytes : Nat)
  /-- ROM of no instructions; only the loader reports it (R227). -/
  | romEmpty
  /-- Executed MEM_READ or MEM_WRITE with the cursor at or beyond MEM_SIZE (R49). -/
  | memRange (pc : Nat) (cursor : Cursor)
  deriving DecidableEq, Repr

/-- A pixel submitted to the renderer's off-screen buffer: where, and the 8-bit channels (R206). -/
structure Plot where
  x : Word
  y : Word
  red : Byte
  green : Byte
  blue : Byte
  deriving DecidableEq, Repr

/-- What the outside world does in one cycle: draws of the spec (R209, R211, R229). -/
structure CycleInput where
  /-- The wall time read at this cycle's clock refresh (R209). -/
  wall : Nat
  /-- The wall time read by a clock reset of this cycle (R202). It need not lie before `wall`: time may be non-monotonic
  (R209). -/
  resetWall : Nat
  /-- The result of the end-of-cycle update() (R210). -/
  quit : Bool
  /-- The result of the update() inside a clock reset of this cycle (R202). -/
  resetQuit : Bool
  /-- The host's interrupt signal arrives during this cycle (R229). -/
  abort : Bool
  deriving DecidableEq, Repr

/-- The memory window's cells that do not read as `memUnlisted`: address and content, addresses rising (R47). -/
abbrev Mem := List (Nat × Word)

/-- The machine. -/
structure State where
  /-- The 64 cells of the register file; cell 0 is never read or written (R20 to R24). -/
  regs : Vector Word 64
  /-- The comparison flag (R25). -/
  cf : Bool
  /-- The program counter: an index into the tape (R29). -/
  pc : Nat
  /-- Running (none) or Halted, with the reason (R208, R221, R230). -/
  halt : Option Halt
  /-- The tape: the 24-bit words of the loaded ROM (R42, R256). -/
  tape : List InsnWord
  /-- The serial input buffer, front first (R28, R198). -/
  serialIn : List Word
  /-- The output sink, oldest first (R28, R200). -/
  output : List Word
  /-- The 12-bit clock (R209, R236). -/
  clock : Word12
  /-- The clock baseline: the wall time of the last clock reset (R28, R202). -/
  clockBaseline : Nat
  /-- The memory window (R47). -/
  mem : Mem
  /-- The memory cursor (R47, R48). -/
  cursor : Cursor
  /-- The renderer's draw cursor, x (R28, R205). -/
  gpuX : Word
  /-- The renderer's draw cursor, y (R28, R205). -/
  gpuY : Word
  /-- The renderer's off-screen buffer, as the pixels submitted to it, oldest first (R206). -/
  plots : List Plot
  /-- The renderer's pending quit signal (R28, R210): a clock reset's poll asked for a quit that the end of the cycle has yet
  to honour. -/
  quitPending : Bool
  /-- The renderer was started and is not torn down (R211, R231). -/
  rendererUp : Bool
  /-- The machine's parameters (R10); no step changes them. -/
  params : Params
  /-- The lines the input provider is ready to return, next first (R212). -/
  inputLines : List (List Word)
  /-- What the outside world does in the coming cycles, next first. -/
  schedule : List CycleInput
  /-- The model's own counter of the free wall times taken. -/
  cycles : Nat
  deriving DecidableEq, Repr

/-- What stops a step. -/
inductive Fault where
  /-- Raised by step on a halted machine: a halted state has no successor (R231). SAFE: nothing is concluded. -/
  | halted
  /-- Raised by step when pc is no index of the tape: no ROM is loaded, and such a machine never runs (R227).
  SAFE. -/
  | offTape
  /-- Raised by IO with SERIAL_INCOMING or SERIAL_READ when the buffer is empty and the provider has no line: the step
  has no successor until input arrives or the host aborts (R196). A stuck state. SAFE. -/
  | serialInputBlocked
  deriving DecidableEq, Repr

/-- Why an instruction has no meaning. -/
inductive Refusal where
  /-- Raised by an arm of exec whose instruction is not modelled; no arm raises it. SAFE. -/
  | notModelled (mnemonic : String)
  deriving DecidableEq, Repr

/-- The free inputs of a launch (R250 to R256): the draws of the reset, the parameters, the loaded tape, and what the
outside world has lined up. -/
structure Launch where
  /-- REG_INIT: any value per register (R252). -/
  regInit : Vector Word 64
  /-- CF_INIT (R253). -/
  cfInit : Bool
  /-- MEM_INIT: any value per cell (R255). -/
  memInit : Mem
  /-- The renderer's draw cursor at start: its own, unspecified. -/
  gpuX : Word
  gpuY : Word
  /-- The wall time at start: the first clock baseline (R255). -/
  wallStart : Nat
  params : Params
  tape : List InsnWord
  inputLines : List (List Word)
  schedule : List CycleInput
  deriving DecidableEq, Repr

/-- The machine right after reset and start, for every draw (R250, R255). -/
def State.launch (l : Launch) : State where
  regs := l.regInit.set 0 0
  cf := l.cfInit
  pc := l.params.pcInit
  halt := none
  tape := l.tape
  serialIn := []
  output := []
  clock := 0
  clockBaseline := l.wallStart
  mem := l.memInit
  cursor := 0
  gpuX := l.gpuX
  gpuY := l.gpuY
  plots := []
  quitPending := false
  rendererUp := l.params.hasRenderer
  params := l.params
  inputLines := l.inputLines
  schedule := l.schedule
  cycles := 0

/-- The draws that State.reset takes (DESIGN CHOICE, log entries 1, 2 and 4): zero for every register, cell and
coordinate, cf clear, wall time 0, the default parameters, no tape, no input lined up. -/
def Launch.default : Launch where
  regInit := Vector.replicate 64 0
  cfInit := false
  memInit := []
  gpuX := 0
  gpuY := 0
  wallStart := 0
  params := .default
  tape := []
  inputLines := []
  schedule := []

/-- The machine right after reset: the spec's values (R250, R255), and the model's own draws where it gives none. -/
def State.reset : State := State.launch Launch.default

end Sys2Proof.Machine
end

