-- ==== Sys2Proof/Machine/Ops.lean ====
section
/-!
DEFINITION. Machine/Ops.lean: the named operations every meaning is made of: the register file (10_state.md R21, R22), the
memory window's cells (20_memory.md R47), halting (60_exceptions.md R230), the gate (30_encoding.md R85), the pc's
advance (R29), the label query port and the label search (R33, R185, R186), and the end of a cycle (R208 to R210, R229).
-/

namespace Sys2Proof.Machine

/-- What a meaning and a step answer. -/
abbrev Result := Host.Outcome State Fault Refusal

/-! ## The register file -/

/-- `x[i]` (R21). -/
def State.readReg (s : State) (i : Word) : Word := if i = 0#6 then 0#6 else s.regs[i.toNat]

/-- `x[i] <- v` (R22). -/
def State.writeReg (s : State) (i v : Word) : State :=
  { s with regs := if i = 0#6 then s.regs else s.regs.set i.toNat v }

/-! ## The memory window -/

/-- What a cell that is not listed reads as (DESIGN CHOICE, log entry 2). -/
def memUnlisted : Word := 0#6

/-- The content of the cell at address a. -/
def memGet : Mem → Nat → Word
  | [], _ => memUnlisted
  | (b, v) :: m, a => if a = b then v else memGet m a

/-- The memory with v in the cell at address a, in canonical form. -/
def memPut : Mem → Nat → Word → Mem
  | [], a, v => if v = memUnlisted then [] else [(a, v)]
  | (b, u) :: m, a, v =>
    if a < b then (if v = memUnlisted then (b, u) :: m else (a, v) :: (b, u) :: m)
    else if a = b then (if v = memUnlisted then m else (a, v) :: m)
    else (b, u) :: memPut m a v

/-- Every listed address is at least lo, below size, and above those before it; no entry reads as an unlisted cell. -/
def memWfFrom (size : Nat) : Nat → Mem → Bool
  | _, [] => true
  | lo, (a, v) :: m => decide (lo ≤ a) && decide (a < size) && decide (v ≠ memUnlisted) && memWfFrom size (a + 1) m

/-- The canonical form of a memory window of `size` cells. -/
def Memory.wf (size : Nat) (m : Mem) : Bool := memWfFrom size 0 m

/-- `MemRead(a, 1)` (R49). -/
def State.readMem (s : State) (a : Nat) : Word := memGet s.mem a

/-- `MemWrite(a, 1, v)` (R49). -/
def State.writeMem (s : State) (a : Nat) (v : Word) : State := { s with mem := memPut s.mem a v }

/-! ## Halting: the machine's one exception (R220, R230) -/

/-- Halt with the reason h: the reason is recorded and an attached renderer is torn down; nothing else changes, so a
halting instruction leaves pc at itself (R230, R231). There is no return from a halt (R231). A quit pending from a clock
reset is not touched here: the end of the cycle has used it up before it halts (DESIGN CHOICE, log entry 18). -/
def State.raiseHalt (s : State) (h : Halt) : State := { s with halt := some h, rendererUp := false }

/-- The word at pc, for the record of a halt. Off the tape, where no step runs, it is the word 0. -/
def State.currentWord (s : State) : InsnWord := (s.tape[s.pc]?).getD 0

/-- Halt(BAD_SUBFIELD) (R224). -/
def State.haltBadSubfield (s : State) : State := s.raiseHalt (.badSubfield s.pc s.currentWord)

/-! ## The program counter and the gate -/

/-- `pc <- (pc + 1) mod TAPE_LEN` (R29). -/
def State.advance (s : State) : State := { s with pc := (s.pc + 1) % s.tape.length }

/-- Run body when the gate is true; a gated-out instruction only advances pc (R85). -/
def gated (c : Cond) (s : State) (body : State → Result) : Result :=
  if gate c s.cf then body s else .next s.advance

/-- Write a register and advance: the end of every instruction that only writes a register. -/
def State.writeBack (s : State) (rd v : Word) : Result := .next (s.writeReg rd v).advance

/-! ## The label query port and the label search -/

/-- The outputs of the label query port (R33). -/
structure LabelQuery where
  isLbl : Bool
  gate : Bool
  key : Word12
  val : Word
  deriving DecidableEq, Repr

/-- The label query port: the second copy of the decoder, asked about the word q (R33). DESIGN CHOICE, log entry 15: R33 gives
`q_gate` for an LBL only; for the word of any other op it is here that word's own gate, and false for INVALID, which has
none (R86); and `q_key` and `q_val` of an INVALID word are those of its bits. -/
def labelQuery (k : Codes) (q : InsnWord) (cf : Bool) : LabelQuery where
  isLbl := decide ((k.decode q).op = some .lbl)
  gate := match (k.decode q).cond with
    | some c => Machine.gate c cf
    | none => false
  key := labelKey (fieldA q) (fieldB q)
  val := fieldC q

/-- A jump request (R32, R187). -/
structure JumpRequest where
  dir : Direction
  key : Word12
  val : Word
  deriving DecidableEq, Repr

/-- Tape(i) is a label that matches key and val and whose own gate is true (R186). -/
def State.matchesLabel (s : State) (key : Word12) (val : Word) (i : Nat) : Bool :=
  match s.tape[i]? with
  | none => false
  | some q =>
    let m := labelQuery s.params.codes q s.cf
    m.isLbl && m.gate && decide (m.key = key) && decide (m.val = val)

/-- The index the search examines k-th, for k = 1 to N - 1 (R185). -/
def scanIndex (dir : Direction) (pc n k : Nat) : Nat :=
  match dir with
  | .down => (pc + k) % n
  | .up => (pc + (n - k)) % n

/-- The indices the search examines, nearest first (R185). -/
def State.candidates (s : State) (dir : Direction) : List Nat :=
  (List.range (s.tape.length - 1)).map fun k => scanIndex dir s.pc s.tape.length (k + 1)

/-- The label search: the first candidate that matches (R185). -/
def State.search (s : State) (r : JumpRequest) : Option Nat :=
  (s.candidates r.dir).find? (s.matchesLabel r.key r.val)

/-- What the environment does with a jump request: pc becomes the matched index, with no increment (R188), or the
machine halts (R189). -/
def State.serveJump (s : State) (r : JumpRequest) : Result :=
  match s.search r with
  | some i => .next { s with pc := i }
  | none => .next (s.raiseHalt (.labelNotFound s.pc r.key r.val))

/-! ## The outside world -/

/-- What the outside world does in the current cycle. Past the schedule's end it is quiet, and the wall time is a free
value (log entry 3). -/
def State.cycleInput (s : State) : CycleInput :=
  match s.schedule with
  | e :: _ => e
  | [] =>
    { wall := Config.wallTime (2 * s.cycles)
      resetWall := Config.wallTime (2 * s.cycles + 1)
      quit := false
      resetQuit := false
      abort := false }

/-- The renderer is attached and polled at the end of every cycle (R208, R210). -/
def Params.pollsEachCycle (p : Params) : Bool := p.hasRenderer && decide (p.gpuTickPolicy ≠ .clockReset)

/-- The renderer is attached and polled inside a clock reset (R202, R210). -/
def Params.pollsOnReset (p : Params) : Bool := p.hasRenderer && decide (p.gpuTickPolicy ≠ .everyCycle)

/-- The clock refresh (R209); the cycle's input and its pending quit are used up. -/
def State.closeCycle (s : State) : State :=
  { s with
    clock := clockAt s.params.clockUnit s.cycleInput.wall s.clockBaseline
    quitPending := false
    schedule := s.schedule.tail
    cycles := s.cycles + 1 }

/-- The end-of-cycle poll asks for a quit, or one is pending from a clock reset (R210). -/
def State.wantsQuit (s : State) : Bool :=
  s.quitPending || (Params.pollsEachCycle s.params && s.cycleInput.quit)

/-- The end of a cycle. A cycle whose instruction halted ends there; otherwise the clock is refreshed, then a host abort
or a quit halts the machine, the abort first (R208 to R210, R229, R232). DESIGN CHOICE, log entry 18: a quit that is
honoured here, or overtaken by the abort, is pending no longer; the spec does not say what becomes of it. -/
def State.endCycle (s : State) : State :=
  if s.halt.isSome then s
  else if s.cycleInput.abort then s.closeCycle.raiseHalt (.hostAbort s.pc)
  else if s.wantsQuit then s.closeCycle.raiseHalt (.rendererQuit s.pc)
  else s.closeCycle

/-- `Tape(pc)` (R42, R208). -/
def State.fetch (s : State) : Option InsnWord := s.tape[s.pc]?

/-- The bytes of an instruction at pc: the tape with its word there. Where the tape is shorter, the words before it
are INVALID. -/
def State.placeWord (s : State) (w : InsnWord) : State :=
  if s.pc < s.tape.length then { s with tape := s.tape.set s.pc w }
  else { s with tape := s.tape ++ List.replicate (s.pc - s.tape.length) 0 ++ [w] }

end Sys2Proof.Machine
end

