-- ==== Sys2Proof/Machine/Alu.lean ====
section
/-!
DEFINITION. Machine/Alu.lean: the ALU instructions (40_alu.md).
-/

namespace Sys2Proof.Machine

/-- `x[rd] <- mask6(x[ra] + x[rb])` (R100). -/
def opAdd (rd ra rb : Word) (s : State) : Result := s.writeBack rd (s.readReg ra + s.readReg rb)

/-- `x[rd] <- mask6(x[ra] + imm)` (R101). -/
def opAddi (rd ra imm : Word) (s : State) : Result := s.writeBack rd (s.readReg ra + imm)

/-- `x[rd] <- mask6(x[ra] + tc6(x[rb]))` (R102). -/
def opSub (rd ra rb : Word) (s : State) : Result := s.writeBack rd (s.readReg ra + tc6 (s.readReg rb))

/-- `x[rd] <- x[ra] | B` (R103, R110). -/
def opOr (rd ra rb : Word) (s : State) : Result :=
  s.writeBack rd (s.readReg ra ||| logicOperand s.params.logicNegB (s.readReg rb))

/-- `x[rd] <- x[ra] | imm` (R104). -/
def opOri (rd ra imm : Word) (s : State) : Result := s.writeBack rd (s.readReg ra ||| imm)

/-- `x[rd] <- x[ra] ^ B` (R105, R110). -/
def opXor (rd ra rb : Word) (s : State) : Result :=
  s.writeBack rd (s.readReg ra ^^^ logicOperand s.params.logicNegB (s.readReg rb))

/-- `x[rd] <- x[ra] ^ imm` (R106). -/
def opXori (rd ra imm : Word) (s : State) : Result := s.writeBack rd (s.readReg ra ^^^ imm)

/-- `x[rd] <- x[ra] & B` (R107, R110). -/
def opAnd (rd ra rb : Word) (s : State) : Result :=
  s.writeBack rd (s.readReg ra &&& logicOperand s.params.logicNegB (s.readReg rb))

/-- `x[rd] <- x[ra] & imm` (R108). -/
def opAndi (rd ra imm : Word) (s : State) : Result := s.writeBack rd (s.readReg ra &&& imm)

/-! ## The instructions -/

/-- ADD (R100). -/
def execAdd (rd ra rb : Word) (s : State) : Result := gated .always s (opAdd rd ra rb)

/-- ADD.T (R100), run only when cf is set (R85). -/
def execAddT (rd ra rb : Word) (s : State) : Result := gated .ifTrue s (opAdd rd ra rb)

/-- ADD.F (R100), run only when cf is clear (R85). -/
def execAddF (rd ra rb : Word) (s : State) : Result := gated .ifFalse s (opAdd rd ra rb)

/-- ADDI (R101). -/
def execAddi (rd ra imm : Word) (s : State) : Result := gated .always s (opAddi rd ra imm)

/-- ADDI.T (R101), run only when cf is set (R85). -/
def execAddiT (rd ra imm : Word) (s : State) : Result := gated .ifTrue s (opAddi rd ra imm)

/-- ADDI.F (R101), run only when cf is clear (R85). -/
def execAddiF (rd ra imm : Word) (s : State) : Result := gated .ifFalse s (opAddi rd ra imm)

/-- SUB (R102). -/
def execSub (rd ra rb : Word) (s : State) : Result := gated .always s (opSub rd ra rb)

/-- SUB.T (R102), run only when cf is set (R85). -/
def execSubT (rd ra rb : Word) (s : State) : Result := gated .ifTrue s (opSub rd ra rb)

/-- SUB.F (R102), run only when cf is clear (R85). -/
def execSubF (rd ra rb : Word) (s : State) : Result := gated .ifFalse s (opSub rd ra rb)

/-- OR (R103). -/
def execOr (rd ra rb : Word) (s : State) : Result := gated .always s (opOr rd ra rb)

/-- OR.T (R103), run only when cf is set (R85). -/
def execOrT (rd ra rb : Word) (s : State) : Result := gated .ifTrue s (opOr rd ra rb)

/-- OR.F (R103), run only when cf is clear (R85). -/
def execOrF (rd ra rb : Word) (s : State) : Result := gated .ifFalse s (opOr rd ra rb)

/-- ORI (R104). -/
def execOri (rd ra imm : Word) (s : State) : Result := gated .always s (opOri rd ra imm)

/-- ORI.T (R104), run only when cf is set (R85). -/
def execOriT (rd ra imm : Word) (s : State) : Result := gated .ifTrue s (opOri rd ra imm)

/-- ORI.F (R104), run only when cf is clear (R85). -/
def execOriF (rd ra imm : Word) (s : State) : Result := gated .ifFalse s (opOri rd ra imm)

/-- XOR (R105). -/
def execXor (rd ra rb : Word) (s : State) : Result := gated .always s (opXor rd ra rb)

/-- XOR.T (R105), run only when cf is set (R85). -/
def execXorT (rd ra rb : Word) (s : State) : Result := gated .ifTrue s (opXor rd ra rb)

/-- XOR.F (R105), run only when cf is clear (R85). -/
def execXorF (rd ra rb : Word) (s : State) : Result := gated .ifFalse s (opXor rd ra rb)

/-- XORI (R106). -/
def execXori (rd ra imm : Word) (s : State) : Result := gated .always s (opXori rd ra imm)

/-- XORI.T (R106), run only when cf is set (R85). -/
def execXoriT (rd ra imm : Word) (s : State) : Result := gated .ifTrue s (opXori rd ra imm)

/-- XORI.F (R106), run only when cf is clear (R85). -/
def execXoriF (rd ra imm : Word) (s : State) : Result := gated .ifFalse s (opXori rd ra imm)

/-- AND (R107). -/
def execAnd (rd ra rb : Word) (s : State) : Result := gated .always s (opAnd rd ra rb)

/-- AND.T (R107), run only when cf is set (R85). -/
def execAndT (rd ra rb : Word) (s : State) : Result := gated .ifTrue s (opAnd rd ra rb)

/-- AND.F (R107), run only when cf is clear (R85). -/
def execAndF (rd ra rb : Word) (s : State) : Result := gated .ifFalse s (opAnd rd ra rb)

/-- ANDI (R108). -/
def execAndi (rd ra imm : Word) (s : State) : Result := gated .always s (opAndi rd ra imm)

/-- ANDI.T (R108), run only when cf is set (R85). -/
def execAndiT (rd ra imm : Word) (s : State) : Result := gated .ifTrue s (opAndi rd ra imm)

/-- ANDI.F (R108), run only when cf is clear (R85). -/
def execAndiF (rd ra imm : Word) (s : State) : Result := gated .ifFalse s (opAndi rd ra imm)

end Sys2Proof.Machine
end

