-- ==== Sys2Proof/Machine/Comparator.lean ====
section
/-!
DEFINITION. Machine/Comparator.lean: CMP, the only writer of the flag (42_comparator.md).
-/

namespace Sys2Proof.Machine

/-- CMP: BAD_SUBFIELD when a[5] = 1, else `cf <- compare(cm, A, B)` (R140). It writes no register. -/
def opCmp (zero : Bool) (ctype : CmpType) (cm : Comparator) (a b : Word) (s : State) : Result :=
  if zero then .next s.haltBadSubfield
  else
    .next { s with
      cf := compareValues cm (cmpOperandA ctype a (s.readReg a)) (cmpOperandB ctype b (s.readReg b)) }.advance

/-! ## The instructions -/

/-- CMP (R140). -/
def execCmp (zero : Bool) (ctype : CmpType) (cm : Comparator) (a b : Word) (s : State) : Result := gated .always s (opCmp zero ctype cm a b)

/-- CMP.T (R140), run only when cf is set (R85). -/
def execCmpT (zero : Bool) (ctype : CmpType) (cm : Comparator) (a b : Word) (s : State) : Result := gated .ifTrue s (opCmp zero ctype cm a b)

/-- CMP.F (R140), run only when cf is clear (R85). -/
def execCmpF (zero : Bool) (ctype : CmpType) (cm : Comparator) (a b : Word) (s : State) : Result := gated .ifFalse s (opCmp zero ctype cm a b)

end Sys2Proof.Machine
end

