-- ==== Sys2Proof/Machine/Control.lean ====
section
/-!
DEFINITION. Machine/Control.lean: labels, halting and the jumps (45_control_and_io.md sections 1 and 2).
-/

namespace Sys2Proof.Machine

/-- LBL: nothing happens when it is executed; it is a jump target (R180). -/
def opLbl (_keyHi _keyLo _val : Word) (s : State) : Result := .next s.advance

/-- HLT: Halt(HLT) (R181, R223). -/
def opHlt (s : State) : Result := .next (s.raiseHalt (.hlt s.pc))

/-- `jump_dir` of a direction: 0 is JUP, 1 is JDN (R32). -/
def Direction.code : Direction → BitVec 1
  | .up => 0
  | .down => 1

/-- The request of a JUP or JDN: the key from its fields, the value from x[rc] (R183, R184, R187). -/
def State.jumpRequest (s : State) (dir : Direction) (keyHi keyLo rc : Word) : JumpRequest where
  dir := dir
  key := labelKey keyHi keyLo
  val := s.readReg rc

/-- JUP: search backward (R183). -/
def opJup (keyHi keyLo rc : Word) (s : State) : Result := s.serveJump (s.jumpRequest .up keyHi keyLo rc)

/-- JDN: search forward (R184). -/
def opJdn (keyHi keyLo rc : Word) (s : State) : Result := s.serveJump (s.jumpRequest .down keyHi keyLo rc)

/-! ## The instructions -/

/-- INVALID: Halt(INVALID), whatever cf holds (R182, R222). -/
def execInvalid (s : State) : Result := .next (s.raiseHalt (.invalid s.pc s.currentWord))

/-- LBL (R180). -/
def execLbl (keyHi keyLo val : Word) (s : State) : Result := gated .always s (opLbl keyHi keyLo val)

/-- LBL.T (R180), run only when cf is set (R85). -/
def execLblT (keyHi keyLo val : Word) (s : State) : Result := gated .ifTrue s (opLbl keyHi keyLo val)

/-- LBL.F (R180), run only when cf is clear (R85). -/
def execLblF (keyHi keyLo val : Word) (s : State) : Result := gated .ifFalse s (opLbl keyHi keyLo val)

/-- HLT (R181). -/
def execHlt (s : State) : Result := gated .always s (opHlt)

/-- HLT.T (R181), run only when cf is set (R85). -/
def execHltT (s : State) : Result := gated .ifTrue s (opHlt)

/-- HLT.F (R181), run only when cf is clear (R85). -/
def execHltF (s : State) : Result := gated .ifFalse s (opHlt)

/-- JUP (R183). -/
def execJup (keyHi keyLo rc : Word) (s : State) : Result := gated .always s (opJup keyHi keyLo rc)

/-- JUP.T (R183), run only when cf is set (R85). -/
def execJupT (keyHi keyLo rc : Word) (s : State) : Result := gated .ifTrue s (opJup keyHi keyLo rc)

/-- JUP.F (R183), run only when cf is clear (R85). -/
def execJupF (keyHi keyLo rc : Word) (s : State) : Result := gated .ifFalse s (opJup keyHi keyLo rc)

/-- JDN (R184). -/
def execJdn (keyHi keyLo rc : Word) (s : State) : Result := gated .always s (opJdn keyHi keyLo rc)

/-- JDN.T (R184), run only when cf is set (R85). -/
def execJdnT (keyHi keyLo rc : Word) (s : State) : Result := gated .ifTrue s (opJdn keyHi keyLo rc)

/-- JDN.F (R184), run only when cf is clear (R85). -/
def execJdnF (keyHi keyLo rc : Word) (s : State) : Result := gated .ifFalse s (opJdn keyHi keyLo rc)

end Sys2Proof.Machine
end

