-- ==== Sys2Proof/Machine/InOut.lean ====
section
/-!
DEFINITION. Machine/InOut.lean: the IO instruction and the devices behind it (45_control_and_io.md section 3, 20_memory.md section
3).
-/

namespace Sys2Proof.Machine

/-- An I/O request (R32, R195): the device index, the register numbers, and x[rs] read before any write (R36). -/
structure IoRequest where
  dev : Word
  rd : Word
  rs : Word
  wdata : Word
  deriving DecidableEq, Repr

/-- The request of an IO instruction (R190). -/
def State.ioRequest (s : State) (rd device rs : Word) : IoRequest where
  dev := device
  rd := rd
  rs := rs
  wdata := s.readReg rs

/-- What a device answers: done, with the value it returns for x[rd] if any (`io_rvalid`, `io_rdata`, R30); a halt; or no
answer yet (R195, R196). -/
inductive DeviceReply where
  | done (rdata : Option Word) (s : State)
  | halted (h : Halt) (s : State)
  | blocked
  deriving DecidableEq, Repr

/-! ## Which devices there are -/

/-- The device is present: the memory window under HAS_MEM, the GPU under HAS_RENDERER (R47, R207). -/
def Device.present (p : Params) : Device → Bool
  | .serialIncoming | .serialRead | .serialWrite | .clockLoCs | .clockHiCs => true
  | .memAddrLo | .memAddrMid | .memAddrHi | .memRead | .memWrite => p.hasMem
  | .gpuX | .gpuY | .gpuDraw => p.hasRenderer

/-- The device an index reaches on this machine; none is fatal (R207). -/
def deviceAt (p : Params) (i : Word) : Option Device :=
  match p.codes.deviceOf i with
  | some d => if Device.present p d then some d else none
  | none => none

/-! ## The serial console -/

/-- The provider's next line that is not empty, and the lines after it; an empty line keeps the device waiting for
the next (R196, D24). -/
def nextLine : List (List Word) → Option (List Word × List (List Word))
  | [] => none
  | [] :: more => nextLine more
  | (v :: vs) :: more => some (v :: vs, more)

/-- The state in which the serial buffer holds input: a line is fetched if it is empty. None: blocked (R198, R199). -/
def State.fetchLine (s : State) : Option State :=
  match s.serialIn with
  | _ :: _ => some s
  | [] =>
    match nextLine s.inputLines with
    | some (line, more) => some { s with serialIn := line, inputLines := more }
    | none => none

/-- SERIAL_INCOMING: the buffer's length, through the register mask (R198). -/
def State.serialIncoming (s : State) : DeviceReply :=
  match s.fetchLine with
  | some t => .done (some (mask6 t.serialIn.length)) t
  | none => .blocked

/-- SERIAL_READ: the front of the buffer, popped (R199). -/
def State.serialRead (s : State) : DeviceReply :=
  match s.fetchLine with
  | some t =>
    match t.serialIn with
    | v :: vs => .done (some v) { t with serialIn := vs }
    | [] => .blocked
  | none => .blocked

/-- SERIAL_WRITE: one serial value to the sink (R200). -/
def State.serialWrite (s : State) (v : Word) : DeviceReply := .done none { s with output := s.output ++ [v] }

/-! ## The clock -/

/-- The clock devices' test for a reset: the field rs, or the value x[rs] (R202). -/
def isClockReset (p : Params) (r : IoRequest) : Bool :=
  match p.clockResetTest with
  | .field => decide (r.rs ≠ 0#6)
  | .value => decide (r.wdata ≠ 0#6)

/-- Clock baseline to now, clock to 0 (R202). -/
def State.zeroClock (s : State) : State := { s with clockBaseline := s.cycleInput.resetWall, clock := 0 }

/-- A clock reset: the clock, then one update() of the renderer. If that returns quit, the machine halts at the point
`clockResetQuit` names (R202, R210; log entry 7). No register is written. -/
def State.clockReset (s : State) : DeviceReply :=
  if Params.pollsOnReset s.params && s.cycleInput.resetQuit then
    match s.params.clockResetQuit with
    | .endOfCycle => .done none { s.zeroClock with quitPending := true }
    | .insideStep => .halted (.rendererQuit s.pc) s.zeroClock
  else .done none s.zeroClock

/-- CLOCK_LO_CS and CLOCK_HI_CS (R202). -/
def State.clockDevice (s : State) (r : IoRequest) (part : Word) : DeviceReply :=
  if isClockReset s.params r then s.clockReset else .done (some part) s

/-! ## The memory window -/

/-- MEM_READ: the cell at the cursor, then the auto-increment; MEM_RANGE beyond the window (R49, R204). -/
def State.memReadPort (s : State) : DeviceReply :=
  if s.cursor.toNat < s.params.memSize then
    .done (some (s.readMem s.cursor.toNat)) { s with cursor := cursorNext s.params.memSize s.cursor }
  else .halted (.memRange s.pc s.cursor) s

/-- MEM_WRITE: the cell at the cursor, then the auto-increment; MEM_RANGE beyond the window (R49, R204). -/
def State.memWritePort (s : State) (v : Word) : DeviceReply :=
  if s.cursor.toNat < s.params.memSize then
    .done none { s.writeMem s.cursor.toNat v with cursor := cursorNext s.params.memSize s.cursor }
  else .halted (.memRange s.pc s.cursor) s

/-! ## The GPU -/

/-- The pixel a GPU_DRAW of colour v submits at the draw cursor (R206). -/
def State.plotAt (s : State) (v : Word) : Plot where
  x := s.gpuX
  y := s.gpuY
  red := colourLevel (v.extractLsb' 4 2)
  green := colourLevel (v.extractLsb' 2 2)
  blue := colourLevel (v.extractLsb' 0 2)

/-! ## The dispatcher -/

/-- The I/O dispatcher: what the device of request r answers (R195, R197). -/
def State.serveDevice (s : State) (r : IoRequest) : Device → DeviceReply
  | .serialIncoming => s.serialIncoming
  | .serialRead => s.serialRead
  | .serialWrite => s.serialWrite r.wdata
  | .clockLoCs => s.clockDevice r (clockLo s.clock)
  | .clockHiCs => s.clockDevice r (clockHi s.clock)
  | .memAddrLo => .done none { s with cursor := cursorSetLo s.cursor r.wdata }
  | .memAddrMid => .done none { s with cursor := cursorSetMid s.cursor r.wdata }
  | .memAddrHi => .done none { s with cursor := cursorSetHi s.cursor r.wdata }
  | .memRead => s.memReadPort
  | .memWrite => s.memWritePort r.wdata
  | .gpuX => .done none { s with gpuX := r.wdata }
  | .gpuY => .done none { s with gpuY := r.wdata }
  | .gpuDraw => .done none { s with plots := s.plots ++ [s.plotAt r.wdata] }

/-- An I/O request to a device index; an index that reaches no device halts the machine (R207). -/
def State.serveIo (s : State) (r : IoRequest) : DeviceReply :=
  match deviceAt s.params r.dev with
  | some d => s.serveDevice r d
  | none => .halted (.unknownIo s.pc r.dev) s

/-- A blocked serial read: stuck, unless the host aborts in this cycle (R196, R229). -/
def State.blockedRead (s : State) : Result :=
  if s.cycleInput.abort then .next (s.raiseHalt (.hostAbort s.pc)) else .fault .serialInputBlocked

/-- The write-back of an IO instruction (R36), or its halt. -/
def State.finishIo (s : State) (rd : Word) : DeviceReply → Result
  | .done (some v) t => t.writeBack rd v
  | .done none t => .next t.advance
  | .halted h t => .next (t.raiseHalt h)
  | .blocked => s.blockedRead

/-- IO (R190). -/
def opIo (rd device rs : Word) (s : State) : Result := s.finishIo rd (s.serveIo (s.ioRequest rd device rs))

/-! ## The instructions -/

/-- IO (R190). -/
def execIo (rd device rs : Word) (s : State) : Result := gated .always s (opIo rd device rs)

/-- IO.T (R190), run only when cf is set (R85). -/
def execIoT (rd device rs : Word) (s : State) : Result := gated .ifTrue s (opIo rd device rs)

/-- IO.F (R190), run only when cf is clear (R85). -/
def execIoF (rd device rs : Word) (s : State) : Result := gated .ifFalse s (opIo rd device rs)

end Sys2Proof.Machine
end

