-- ==== Sys2Proof/Machine/Indirect.lean ====
section
/-!
DEFINITION. Machine/Indirect.lean: register-indirect load and store (44_register_indirect.md).
-/

namespace Sys2Proof.Machine

/-- `x[rd] <- x[mask6(x[ra] + imm)]` (R170, R172). -/
def opLd (rd ra imm : Word) (s : State) : Result :=
  s.writeBack rd (s.readReg (effectiveIndex (s.readReg ra) imm))

/-- `x[mask6(x[ra] + imm)] <- x[rs]` (R171, R172). -/
def opSt (rs ra imm : Word) (s : State) : Result :=
  s.writeBack (effectiveIndex (s.readReg ra) imm) (s.readReg rs)

/-! ## The instructions -/

/-- LD (R170). -/
def execLd (rd ra imm : Word) (s : State) : Result := gated .always s (opLd rd ra imm)

/-- LD.T (R170), run only when cf is set (R85). -/
def execLdT (rd ra imm : Word) (s : State) : Result := gated .ifTrue s (opLd rd ra imm)

/-- LD.F (R170), run only when cf is clear (R85). -/
def execLdF (rd ra imm : Word) (s : State) : Result := gated .ifFalse s (opLd rd ra imm)

/-- ST (R171). -/
def execSt (rs ra imm : Word) (s : State) : Result := gated .always s (opSt rs ra imm)

/-- ST.T (R171), run only when cf is set (R85). -/
def execStT (rs ra imm : Word) (s : State) : Result := gated .ifTrue s (opSt rs ra imm)

/-- ST.F (R171), run only when cf is clear (R85). -/
def execStF (rs ra imm : Word) (s : State) : Result := gated .ifFalse s (opSt rs ra imm)

end Sys2Proof.Machine
end

