-- ==== Sys2Proof/Machine/Multiplier.lean ====
section
/-!
DEFINITION. Machine/Multiplier.lean: the fixed-point multiply (43_multiplier.md).
-/

namespace Sys2Proof.Machine

/-- FM: BAD_SUBFIELD when c[5] = 1, else `x[rd] <- mask6(shift(product))` (R160 to R163). -/
def opFm (rd rs : Word) (zero : Bool) (mode : FmMode) (frac : BitVec 4) (s : State) : Result :=
  if zero then .next s.haltBadSubfield
  else
    s.writeBack rd
      (fmResult mode (fmProduct s.params.fmSignedOperands mode (s.readReg rd) (s.readReg rs)) frac.toNat)

/-! ## The instructions -/

/-- FM (R160). -/
def execFm (rd rs : Word) (zero : Bool) (mode : FmMode) (frac : BitVec 4) (s : State) : Result := gated .always s (opFm rd rs zero mode frac)

/-- FM.T (R160), run only when cf is set (R85). -/
def execFmT (rd rs : Word) (zero : Bool) (mode : FmMode) (frac : BitVec 4) (s : State) : Result := gated .ifTrue s (opFm rd rs zero mode frac)

/-- FM.F (R160), run only when cf is clear (R85). -/
def execFmF (rd rs : Word) (zero : Bool) (mode : FmMode) (frac : BitVec 4) (s : State) : Result := gated .ifFalse s (opFm rd rs zero mode frac)

end Sys2Proof.Machine
end

