-- ==== Sys2Proof/Machine/Shifter.lean ====
section
/-!
DEFINITION. Machine/Shifter.lean: the shift and rotate instructions (41_shifter.md).
-/

namespace Sys2Proof.Machine

/-- `x[rd] <- lsl_6(x[ra], x[rb])` (R120). -/
def opShl (rd ra rb : Word) (s : State) : Result := s.writeBack rd (lsl (s.readReg ra) (s.readReg rb).toNat)

/-- `x[rd] <- lsr_6(x[ra], x[rb])` (R121). -/
def opShr (rd ra rb : Word) (s : State) : Result := s.writeBack rd (lsr (s.readReg ra) (s.readReg rb).toNat)

/-- SHI: BAD_SUBFIELD when c[5] = 1, else the shift its type selects (R122 to R126). -/
def opShi (rd ra : Word) (zero : Bool) (ty : ShiftType) (dist : BitVec 3) (s : State) : Result :=
  if zero then .next s.haltBadSubfield
  else s.writeBack rd (shiftBy ty (s.readReg ra) dist.toNat)

/-! ## The instructions -/

/-- SHL (R120). -/
def execShl (rd ra rb : Word) (s : State) : Result := gated .always s (opShl rd ra rb)

/-- SHL.T (R120), run only when cf is set (R85). -/
def execShlT (rd ra rb : Word) (s : State) : Result := gated .ifTrue s (opShl rd ra rb)

/-- SHL.F (R120), run only when cf is clear (R85). -/
def execShlF (rd ra rb : Word) (s : State) : Result := gated .ifFalse s (opShl rd ra rb)

/-- SHR (R121). -/
def execShr (rd ra rb : Word) (s : State) : Result := gated .always s (opShr rd ra rb)

/-- SHR.T (R121), run only when cf is set (R85). -/
def execShrT (rd ra rb : Word) (s : State) : Result := gated .ifTrue s (opShr rd ra rb)

/-- SHR.F (R121), run only when cf is clear (R85). -/
def execShrF (rd ra rb : Word) (s : State) : Result := gated .ifFalse s (opShr rd ra rb)

/-- SHI (R122). -/
def execShi (rd ra : Word) (zero : Bool) (ty : ShiftType) (dist : BitVec 3) (s : State) : Result := gated .always s (opShi rd ra zero ty dist)

/-- SHI.T (R122), run only when cf is set (R85). -/
def execShiT (rd ra : Word) (zero : Bool) (ty : ShiftType) (dist : BitVec 3) (s : State) : Result := gated .ifTrue s (opShi rd ra zero ty dist)

/-- SHI.F (R122), run only when cf is clear (R85). -/
def execShiF (rd ra : Word) (zero : Bool) (ty : ShiftType) (dist : BitVec 3) (s : State) : Result := gated .ifFalse s (opShi rd ra zero ty dist)

end Sys2Proof.Machine
end

