-- ==== Sys2Proof/Machine/Dispatch.lean ====
section
/-!
DEFINITION. Machine/Dispatch.lean: the meaning of every instruction, one arm per row of the opcode table.
-/

namespace Sys2Proof.Machine

def exec (i : Instr) (s : State) : Host.Outcome State Fault Refusal :=
  match i with
  | .invalid => Sys2Proof.Machine.execInvalid s
  | .add rd ra rb => Sys2Proof.Machine.execAdd rd ra rb s
  | .addi rd ra imm => Sys2Proof.Machine.execAddi rd ra imm s
  | .sub rd ra rb => Sys2Proof.Machine.execSub rd ra rb s
  | .or rd ra rb => Sys2Proof.Machine.execOr rd ra rb s
  | .ori rd ra imm => Sys2Proof.Machine.execOri rd ra imm s
  | .xor rd ra rb => Sys2Proof.Machine.execXor rd ra rb s
  | .xori rd ra imm => Sys2Proof.Machine.execXori rd ra imm s
  | .and rd ra rb => Sys2Proof.Machine.execAnd rd ra rb s
  | .andi rd ra imm => Sys2Proof.Machine.execAndi rd ra imm s
  | .shl rd ra rb => Sys2Proof.Machine.execShl rd ra rb s
  | .shr rd ra rb => Sys2Proof.Machine.execShr rd ra rb s
  | .shi rd ra zero ty dist => Sys2Proof.Machine.execShi rd ra zero ty dist s
  | .cmp zero ctype cm a b => Sys2Proof.Machine.execCmp zero ctype cm a b s
  | .fm rd rs zero mode frac => Sys2Proof.Machine.execFm rd rs zero mode frac s
  | .ld rd ra imm => Sys2Proof.Machine.execLd rd ra imm s
  | .st rs ra imm => Sys2Proof.Machine.execSt rs ra imm s
  | .lbl keyHi keyLo val => Sys2Proof.Machine.execLbl keyHi keyLo val s
  | .hlt _ _ _ => Sys2Proof.Machine.execHlt s
  | .jup keyHi keyLo rc => Sys2Proof.Machine.execJup keyHi keyLo rc s
  | .jdn keyHi keyLo rc => Sys2Proof.Machine.execJdn keyHi keyLo rc s
  | .io rd device rs => Sys2Proof.Machine.execIo rd device rs s
  | .addT rd ra rb => Sys2Proof.Machine.execAddT rd ra rb s
  | .addiT rd ra imm => Sys2Proof.Machine.execAddiT rd ra imm s
  | .subT rd ra rb => Sys2Proof.Machine.execSubT rd ra rb s
  | .orT rd ra rb => Sys2Proof.Machine.execOrT rd ra rb s
  | .oriT rd ra imm => Sys2Proof.Machine.execOriT rd ra imm s
  | .xorT rd ra rb => Sys2Proof.Machine.execXorT rd ra rb s
  | .xoriT rd ra imm => Sys2Proof.Machine.execXoriT rd ra imm s
  | .andT rd ra rb => Sys2Proof.Machine.execAndT rd ra rb s
  | .andiT rd ra imm => Sys2Proof.Machine.execAndiT rd ra imm s
  | .shlT rd ra rb => Sys2Proof.Machine.execShlT rd ra rb s
  | .shrT rd ra rb => Sys2Proof.Machine.execShrT rd ra rb s
  | .shiT rd ra zero ty dist => Sys2Proof.Machine.execShiT rd ra zero ty dist s
  | .cmpT zero ctype cm a b => Sys2Proof.Machine.execCmpT zero ctype cm a b s
  | .fmT rd rs zero mode frac => Sys2Proof.Machine.execFmT rd rs zero mode frac s
  | .ldT rd ra imm => Sys2Proof.Machine.execLdT rd ra imm s
  | .stT rs ra imm => Sys2Proof.Machine.execStT rs ra imm s
  | .lblT keyHi keyLo val => Sys2Proof.Machine.execLblT keyHi keyLo val s
  | .hltT _ _ _ => Sys2Proof.Machine.execHltT s
  | .jupT keyHi keyLo rc => Sys2Proof.Machine.execJupT keyHi keyLo rc s
  | .jdnT keyHi keyLo rc => Sys2Proof.Machine.execJdnT keyHi keyLo rc s
  | .ioT rd device rs => Sys2Proof.Machine.execIoT rd device rs s
  | .addF rd ra rb => Sys2Proof.Machine.execAddF rd ra rb s
  | .addiF rd ra imm => Sys2Proof.Machine.execAddiF rd ra imm s
  | .subF rd ra rb => Sys2Proof.Machine.execSubF rd ra rb s
  | .orF rd ra rb => Sys2Proof.Machine.execOrF rd ra rb s
  | .oriF rd ra imm => Sys2Proof.Machine.execOriF rd ra imm s
  | .xorF rd ra rb => Sys2Proof.Machine.execXorF rd ra rb s
  | .xoriF rd ra imm => Sys2Proof.Machine.execXoriF rd ra imm s
  | .andF rd ra rb => Sys2Proof.Machine.execAndF rd ra rb s
  | .andiF rd ra imm => Sys2Proof.Machine.execAndiF rd ra imm s
  | .shlF rd ra rb => Sys2Proof.Machine.execShlF rd ra rb s
  | .shrF rd ra rb => Sys2Proof.Machine.execShrF rd ra rb s
  | .shiF rd ra zero ty dist => Sys2Proof.Machine.execShiF rd ra zero ty dist s
  | .cmpF zero ctype cm a b => Sys2Proof.Machine.execCmpF zero ctype cm a b s
  | .fmF rd rs zero mode frac => Sys2Proof.Machine.execFmF rd rs zero mode frac s
  | .ldF rd ra imm => Sys2Proof.Machine.execLdF rd ra imm s
  | .stF rs ra imm => Sys2Proof.Machine.execStF rs ra imm s
  | .lblF keyHi keyLo val => Sys2Proof.Machine.execLblF keyHi keyLo val s
  | .hltF _ _ _ => Sys2Proof.Machine.execHltF s
  | .jupF keyHi keyLo rc => Sys2Proof.Machine.execJupF keyHi keyLo rc s
  | .jdnF keyHi keyLo rc => Sys2Proof.Machine.execJdnF keyHi keyLo rc s
  | .ioF rd device rs => Sys2Proof.Machine.execIoF rd device rs s

end Sys2Proof.Machine
end

