-- ==== Sys2Proof/Machine/Step.lean ====
section
/-!
DEFINITION. Machine/Step.lean: one cycle of the run loop (45_control_and_io.md R208): fetch, decode, execute, end of cycle.
-/

namespace Sys2Proof.Machine

/-- One cycle (R208). A halted machine has no successor (R231). -/
def step (s : State) : Host.Outcome State Fault Refusal :=
  match s.halt with
  | some _ => .fault .halted
  | none =>
    match s.fetch with
    | none => .fault .offTape
    | some w =>
      match exec (s.params.codes.decode w) s with
      | .next t => .next t.endCycle
      | .fault f => .fault f
      | .refused r => .refused r

/-- The state with an instruction word at pc: the load of a program from outside the machine (log entry 5). The bits of
the word above nbits are 0. -/
def State.withFetchWord (s : State) (nbits w : Nat) : State := s.placeWord (BitVec.ofNat 24 (w % 2 ^ nbits))

end Sys2Proof.Machine
end

