-- ==== Sys2Proof/Machine/Asm.lean ====
section
/-!
DEFINITION. Machine/Asm.lean: the assembler (30_encoding.md R90 to R95): one line of text to an instruction, with the
range checks of R95 and the pseudo-instructions of R93. It refuses what it cannot encode and never truncates.
-/

namespace Sys2Proof.Machine

/-! ## Words of the language -/

/-- An op's mnemonic (R64, R90). -/
def Op.name : Op → String
  | .add => "ADD"
  | .addi => "ADDI"
  | .sub => "SUB"
  | .or => "OR"
  | .ori => "ORI"
  | .xor => "XOR"
  | .xori => "XORI"
  | .and => "AND"
  | .andi => "ANDI"
  | .shl => "SHL"
  | .shr => "SHR"
  | .shi => "SHI"
  | .cmp => "CMP"
  | .fm => "FM"
  | .ld => "LD"
  | .st => "ST"
  | .lbl => "LBL"
  | .hlt => "HLT"
  | .jup => "JUP"
  | .jdn => "JDN"
  | .io => "IO"

/-- The op a mnemonic names. -/
def opOfName (m : List Char) : Option Op := Op.table.find? fun o => (Op.name o).toList == m

/-- A mnemonic with its cond suffix (R65, R90). -/
def opCondOfName (m : List Char) : Option (Op × Cond) :=
  match m.reverse with
  | 'T' :: '.' :: r => (opOfName r.reverse).map (·, .ifTrue)
  | 'F' :: '.' :: r => (opOfName r.reverse).map (·, .ifFalse)
  | _ => (opOfName m).map (·, .always)

/-- A name in a list of names and what they stand for. -/
def lookupName {α : Type} (m : List Char) : List (String × α) → Option α
  | [] => none
  | (n, v) :: rest => if n.toList = m then some v else lookupName m rest

/-- A decimal number: any string of digits, leading zeros included. DESIGN CHOICE, log entry 14: R90 writes numbers as decimal
and does not say whether 05 or r007 is one. -/
def parseNat (t : List Char) : Option Nat :=
  if t ≠ [] ∧ t.all Char.isDigit then some (Nat.ofDigitChars 10 t 0) else none

/-- A decimal number below a bound; a number out of range is refused (R95). -/
def parseBelow (bound : Nat) (t : List Char) : Option Nat := (parseNat t).filter (· < bound)

/-- An immediate, a label part or a device number, 0 to 63 (R90, R95). -/
def parseImm (t : List Char) : Option Word := (parseBelow 64 t).map mask6

/-- A register, r0 to r63 (R90, R95). -/
def parseReg : List Char → Option Word
  | 'r' :: n => parseImm n
  | _ => none

/-- The text without the spaces around it. -/
def trimSpaces (t : List Char) : List Char := ((t.dropWhile (· == ' ')).reverse.dropWhile (· == ' ')).reverse

/-- The text split at a character. -/
def splitAtChar (sep : Char) : List Char → List (List Char)
  | [] => [[]]
  | c :: t =>
    match splitAtChar sep t with
    | w :: ws => if c = sep then [] :: w :: ws else (c :: w) :: ws
    | [] => [[c]]

/-- The memory-like operand `[ra+imm]` of LD and ST (R90). -/
def parseIndexed (t : List Char) : Option (Word × Word) :=
  match t, t.reverse with
  | '[' :: _, ']' :: _ =>
    match (splitAtChar '+' (t.drop 1).dropLast).map trimSpaces with
    | [ra, imm] => do return (← parseReg ra, ← parseImm imm)
    | _ => none
  | _, _ => none

/-- A CMP operand: rN or #n; true says it is an immediate (R90, R91). -/
def parseCmpOperand : List Char → Option (Bool × Word)
  | '#' :: n => (parseImm n).map (true, ·)
  | t => (parseReg t).map (false, ·)

/-- The comparison type of CMP's two operand forms (R73, R91). -/
def cmpTypeOf : Bool → Bool → CmpType
  | false, false => .rr
  | false, true => .ri
  | true, false => .ir
  | true, true => .ii

/-- Comparators (R74). -/
def comparatorNames : List (String × Comparator) :=
  [("TR", .tr), ("FA", .fa), ("EQ", .eq), ("NE", .ne), ("SLT", .slt), ("SGT", .sgt), ("ULT", .ult), ("UGT", .ugt)]

/-- Shift types (R75). -/
def shiftTypeNames : List (String × ShiftType) := [("LSL", .lsl), ("LSR", .lsr), ("ASR", .asr), ("ROL", .rol)]

/-- FM modes (R76). -/
def fmModeNames : List (String × FmMode) := [("U", .unsigned), ("S", .signed)]

/-- The device names and what they stand for (R197). -/
def deviceNames : List (String × Device) :=
  [("SERIAL_INCOMING", .serialIncoming), ("SERIAL_READ", .serialRead), ("SERIAL_WRITE", .serialWrite),
    ("CLOCK_LO_CS", .clockLoCs), ("CLOCK_HI_CS", .clockHiCs), ("MEM_ADDR_LO", .memAddrLo),
    ("MEM_ADDR_MID", .memAddrMid), ("MEM_ADDR_HI", .memAddrHi), ("MEM_READ", .memRead), ("MEM_WRITE", .memWrite),
    ("GPU_X", .gpuX), ("GPU_Y", .gpuY), ("GPU_DRAW", .gpuDraw)]

/-- A device, by name or by number (R91, R197). -/
def parseDevice (k : Codes) (t : List Char) : Option Word :=
  match lookupName t deviceNames with
  | some d => k.indexOf d
  | none => parseImm t

/-! ## Lines -/

/-- The operand fields a, b and c of an op's operands (R70, R91). -/
def parseOperands (k : Codes) (op : Op) (args : List (List Char)) : Option (Word × Word × Word) :=
  match op, args with
  | .add, [d, a, b] | .sub, [d, a, b] | .or, [d, a, b] | .xor, [d, a, b] | .and, [d, a, b] | .shl, [d, a, b]
  | .shr, [d, a, b] => do return (← parseReg d, ← parseReg a, ← parseReg b)
  | .addi, [d, a, i] | .ori, [d, a, i] | .xori, [d, a, i] | .andi, [d, a, i] => do
    return (← parseReg d, ← parseReg a, ← parseImm i)
  | .shi, [d, a, ty, dist] => do
    return (← parseReg d, ← parseReg a, shiSub false (← lookupName ty shiftTypeNames) (BitVec.ofNat 3 (← parseBelow 8 dist)))
  | .cmp, [cm, a, b] => do
    let (aImm, av) ← parseCmpOperand a
    let (bImm, bv) ← parseCmpOperand b
    return (cmpSub false (cmpTypeOf aImm bImm) (← lookupName cm comparatorNames), av, bv)
  | .fm, [d, s, mode, frac] => do
    return (← parseReg d, ← parseReg s, fmSub false (← lookupName mode fmModeNames) (BitVec.ofNat 4 (← parseBelow 16 frac)))
  | .ld, [d, m] => do
    let (ra, imm) ← parseIndexed m
    return (← parseReg d, ra, imm)
  | .st, [m, s] => do
    let (ra, imm) ← parseIndexed m
    return (← parseReg s, ra, imm)
  | .lbl, [a, b, c] => do return (← parseImm a, ← parseImm b, ← parseImm c)
  | .jup, [a, b, c] | .jdn, [a, b, c] => do return (← parseImm a, ← parseImm b, ← parseReg c)
  | .io, [d, dev, s] => do return (← parseReg d, ← parseDevice k dev, ← parseReg s)
  | .hlt, [[]] => some (0, 0, 0)
  | _, _ => none

/-- The pseudo-instructions, each its expansion (R93). -/
def parsePseudo (m : List Char) (args : List (List Char)) : Option Fields :=
  match lookupName m [("NOP", 0), ("MOV", 1), ("LI", 2), ("NEG", 3), ("NOT", 4), ("DEC", 5)], args with
  | some 0, [[]] => some ⟨.add, .always, 0, 0, 0⟩
  | some 1, [d, s] => do return ⟨.add, .always, ← parseReg d, ← parseReg s, 0⟩
  | some 2, [d, i] => do return ⟨.addi, .always, ← parseReg d, 0, ← parseImm i⟩
  | some 3, [d, s] => do return ⟨.sub, .always, ← parseReg d, 0, ← parseReg s⟩
  | some 4, [d, s] => do return ⟨.xori, .always, ← parseReg d, ← parseReg s, 63⟩
  | some 5, [d, s] => do return ⟨.addi, .always, ← parseReg d, ← parseReg s, 63⟩
  | _, _ => none

/-- A line's mnemonic and its operands, split at commas (R90). -/
def splitLine (line : List Char) : List Char × List (List Char) :=
  let t := trimSpaces line
  (t.takeWhile (· != ' '), (splitAtChar ',' (t.dropWhile (· != ' '))).map trimSpaces)

/-- Assemble one line; none where it is refused (R91, R93, R95). -/
def assemble (k : Codes) (line : List Char) : Option Instr :=
  let (m, args) := splitLine line
  match opCondOfName m with
  | some (op, c) => (parseOperands k op args).map fun (a, b, v) => Instr.ofFields ⟨op, c, a, b, v⟩
  | none => (parsePseudo m args).map Instr.ofFields

end Sys2Proof.Machine
end

