-- ==== Sys2Proof/Machine/Rom.lean ====
section
/-!
DEFINITION. Machine/Rom.lean: loading and saving the ROM (70_reset_and_hazards.md R256, R257; 60_exceptions.md R227). The text is
standard base64 (93_implementation_defined.md G1, log entry 10).
-/

namespace Sys2Proof.Machine

/-! ## base64 -/

/-- The 64 base64 symbols, by value. -/
def base64Alphabet : List Char :=
  "ABCDEFGHIJKLMNOPQRSTUVWXYZ".toList ++ "abcdefghijklmnopqrstuvwxyz".toList ++ "0123456789+/".toList

/-- The first position of c in a list of symbols, counted from n. -/
def base64Index (c : Char) : List Char → Nat → Option Nat
  | [], _ => none
  | d :: ds, n => if c = d then some n else base64Index c ds (n + 1)

/-- The 6 bits a base64 symbol stands for. -/
def base64Value (c : Char) : Option (BitVec 6) := (base64Index c base64Alphabet 0).map (BitVec.ofNat 6)

/-- The base64 symbol of 6 bits. -/
def base64Char (v : BitVec 6) : Char := (base64Alphabet[v.toNat]?).getD '='

/-- The bytes of one group of four symbols; the flag says whether it is the last. -/
def base64Group (last : Bool) (a b c d : Char) : Option (List Byte) :=
  match base64Value a, base64Value b with
  | some x, some y =>
    match base64Value c, base64Value d with
    | some z, some t => some (bytesOfWord (x ++ y ++ z ++ t))
    | some z, none => if last && d == '=' then some ((bytesOfWord (x ++ y ++ z ++ 0#6)).take 2) else none
    | none, none => if last && c == '=' && d == '=' then some ((bytesOfWord (x ++ y ++ 0#6 ++ 0#6)).take 1) else none
    | none, some _ => none
  | _, _ => none

/-- Decode a base64 text; none if it is not one. -/
def base64Decode : List Char → Option (List Byte)
  | [] => some []
  | a :: b :: c :: d :: rest =>
    match base64Group rest.isEmpty a b c d, base64Decode rest with
    | some g, some bytes => some (g ++ bytes)
    | _, _ => none
  | _ => none

/-- Encode whole groups of three bytes; a tape's bytes always are (R45). -/
def base64Word (w : InsnWord) : List Char :=
  [base64Char (fieldF w), base64Char (fieldA w), base64Char (fieldB w), base64Char (fieldC w)]

/-! ## Load -/

/-- The words of a byte string, three bytes a word (R43, R256). -/
def wordsOfBytes : List Byte → List InsnWord
  | b0 :: b1 :: b2 :: rest => wordOfBytes b0 b1 b2 :: wordsOfBytes rest
  | _ => []

/-- The tape of a ROM's bytes, or the code the loader refuses it with (R227, R256). -/
def tapeOfBytes (bytes : List Byte) : Except Halt (List InsnWord) :=
  if bytes.length % 3 ≠ 0 then .error (.romLength bytes.length)
  else if bytes.length = 0 then .error .romEmpty
  else .ok (wordsOfBytes bytes)

/-- What the loader does with a ROM text. -/
inductive Boot where
  /-- The machine, reset and ready to run from PC_INIT. -/
  | running (s : State)
  /-- Refused with a code; the machine never runs (R227). -/
  | refused (h : Halt)
  /-- Refused: the text is not base64. The spec gives no code for this. -/
  | notBase64
  deriving DecidableEq, Repr

/-- The boot sequence: decode the text, load the tape, reset (R256). -/
def boot (l : Launch) (text : List Char) : Boot :=
  match base64Decode text with
  | none => .notBase64
  | some bytes =>
    match tapeOfBytes bytes with
    | .error h => .refused h
    | .ok tape => .running (State.launch { l with tape := tape })

/-! ## Save -/

/-- The words of the instructions on a tape, encoded one by one; none if one of them is INVALID, which has no word
(R67, R257). -/
def encodeTape (k : Codes) : List InsnWord → Option (List InsnWord)
  | [] => some []
  | w :: tape =>
    match k.encode (k.decode w), encodeTape k tape with
    | some v, some words => some (v :: words)
    | _, _ => none

/-- Save a tape as ROM text (R257). -/
def saveRom (k : Codes) (tape : List InsnWord) : Option (List Char) :=
  (encodeTape k tape).map fun words => words.flatMap base64Word

end Sys2Proof.Machine
end

