-- ==== Sys2Proof/Machine/Serial.lean ====
section
/-!
DEFINITION. Machine/Serial.lean: the serial alphabet (45_control_and_io.md R199 to R201): what the input provider's text is as
serial values, and what the output sink's serial values print as.
-/

namespace Sys2Proof.Machine

/-- The symbols of serial values 0 to 62, in order (R201). The two characters given by number are the braces. -/
def serialAlphabet : List Char :=
  "0123456789".toList ++ "ABCDEFGHIJKLMNOPQRSTUVWXYZ".toList ++ " +-*/<=>()[]".toList
    ++ [Char.ofNat 123, Char.ofNat 125] ++ "#$_?|^&!~,.:".toList ++ ['\n']

/-- The first position of c in a list of symbols, counted from n. -/
def symbolIndex (c : Char) : List Char → Nat → Option Nat
  | [], _ => none
  | d :: ds, n => if c = d then some n else symbolIndex c ds (n + 1)

/-- The serial value of a character; 63 for one outside the alphabet, with no case folding (R199, D24). -/
def serialOfChar (c : Char) : Word :=
  match symbolIndex c serialAlphabet 0 with
  | some n => mask6 n
  | none => 63

/-- The character a serial value prints as; the glyph of 63 is a free value (R200, R201). -/
def charOfSerial (v : Word) : Char := (serialAlphabet[v.toNat]?).getD Config.placeholderGlyph

/-- A line of text as the input provider hands it over (R212). -/
def lineOfText (text : List Char) : List Word := text.map serialOfChar

end Sys2Proof.Machine
end

