-- ==== Sys2Proof/Machine/Snapshot.lean ====
section
/-!
DEFINITION. Machine/Snapshot.lean: the clone and restore operation (10_state.md R37, decision D34). The renderer, the input
provider and the output already written are external and are not copied; nor are the model's parameters, which never
change.
-/

namespace Sys2Proof.Machine

/-- What a snapshot holds (R37). -/
structure Snapshot where
  regs : Vector Word 64
  cf : Bool
  pc : Nat
  halt : Option Halt
  tape : List InsnWord
  serialIn : List Word
  clock : Word12
  clockBaseline : Nat
  mem : Mem
  cursor : Cursor
  deriving DecidableEq, Repr

/-- Copy the machine (R37). -/
def State.snapshot (s : State) : Snapshot where
  regs := s.regs
  cf := s.cf
  pc := s.pc
  halt := s.halt
  tape := s.tape
  serialIn := s.serialIn
  clock := s.clock
  clockBaseline := s.clockBaseline
  mem := s.mem
  cursor := s.cursor

/-- Restore a copy; what a snapshot does not hold stays (R37). DESIGN CHOICE, log entry 18: the renderer's pending quit and
whether it is up are the renderer's and stay. In a machine between two cycles no quit is pending (Inv), so a restored
state goes on as the captured one would (D34). -/
def State.restore (s : State) (c : Snapshot) : State :=
  { s with
    regs := c.regs
    cf := c.cf
    pc := c.pc
    halt := c.halt
    tape := c.tape
    serialIn := c.serialIn
    clock := c.clock
    clockBaseline := c.clockBaseline
    mem := c.mem
    cursor := c.cursor }

end Sys2Proof.Machine
end

