-- ==== Sys2Proof/Machine/Block.lean ====
section
/-!
DEFINITION. Machine/Block.lean: the block EMU6-DP as its ports show it (10_state.md R30 to R36): the decoder's outputs,
the requests, the debug port, the reset of the block, the step transaction on the block's own state, and the run loop
(45_control_and_io.md R208) over that transaction. It is a second description of the machine, by op and not by
instruction, to hold the meanings against.
-/

namespace Sys2Proof.Machine

/-! ## Decoder outputs -/

/-- A sub-field is out of range: `dec_sub_err` (R31, R78). -/
def Fields.subErr (f : Fields) : Bool :=
  (decide (f.op = .cmp) && subZero f.a) || ((decide (f.op = .shi) || decide (f.op = .fm)) && subZero f.c)

/-- The decoder's outputs for the word on `insn` (R31). For INVALID there is no record and no gate (R63, R86). -/
structure DecoderOut where
  invalid : Bool
  record : Option Fields
  subErr : Bool
  gate : Bool
  deriving DecidableEq, Repr

/-- The decoder's outputs (R31, R79, R85). DESIGN CHOICE, log entry 15: the gate output for INVALID is false. -/
def decoderOut (k : Codes) (insn : InsnWord) (cf : Bool) : DecoderOut :=
  if h : fieldF insn = 0#6 then { invalid := true, record := none, subErr := false, gate := false }
  else
    let f := k.decodeFields insn h
    { invalid := false, record := some f, subErr := Fields.subErr (k.operands f), gate := gate f.cond cf }

/-! ## Halt codes -/

/-- `halt_code` of a reason (R221). -/
def Halt.code : Halt → BitVec 4
  | .hlt _ => 1
  | .invalid _ _ => 2
  | .badSubfield _ _ => 3
  | .unknownIo _ _ => 4
  | .labelNotFound _ _ _ => 5
  | .rendererQuit _ => 6
  | .hostAbort _ => 7
  | .romLength _ => 8
  | .romEmpty => 9
  | .memRange _ _ => 10

/-- The machine's halt code: NONE while it runs (R221, R255). -/
def State.haltCode (s : State) : BitVec 4 :=
  match s.halt with
  | none => 0
  | some h => Halt.code h

/-! ## Requests -/

/-- The block's request in a step: at most one (R32). -/
inductive Request where
  | none
  | halt (h : Halt)
  | jump (r : JumpRequest)
  | io (r : IoRequest)
  deriving DecidableEq, Repr

/-- The request the block raises for the word on `insn` (R32, R35, R232). -/
def State.request (s : State) (insn : InsnWord) : Request :=
  match (s.params.codes.decode insn).fields with
  | none => .halt (.invalid s.pc s.currentWord)
  | some f =>
    if gate f.cond s.cf then
      if Fields.subErr f then .halt (.badSubfield s.pc s.currentWord)
      else
        match f.op with
        | .hlt => .halt (.hlt s.pc)
        | .jup => .jump (s.jumpRequest .up f.a f.b f.c)
        | .jdn => .jump (s.jumpRequest .down f.a f.b f.c)
        | .io => .io (s.ioRequest f.a f.b f.c)
        | _ => .none
    else .none

/-- The fields of a jump request as ports (R32). -/
structure JumpPorts where
  dir : BitVec 1
  key : Word12
  val : Word
  deriving DecidableEq, Repr

/-- The request outputs (R32). A request that is not asserted is none, with no value for its fields (DESIGN CHOICE, log entry
15); one that is has its fields. -/
structure RequestPorts where
  /-- `halt_req` with `halt_code`. -/
  halt : Option (BitVec 4)
  /-- `jump_req` with `jump_dir`, `jump_key` and `jump_val`. -/
  jump : Option JumpPorts
  /-- `io_req` with `io_dev`, `io_rd`, `io_rs` and `io_wdata`. -/
  io : Option IoRequest
  cf : Bool
  deriving DecidableEq, Repr

/-- The request outputs for the word on `insn` (R32). -/
def State.requestPorts (s : State) (insn : InsnWord) : RequestPorts :=
  match s.request insn with
  | .none => { halt := none, jump := none, io := none, cf := s.cf }
  | .halt h => { halt := some (Halt.code h), jump := none, io := none, cf := s.cf }
  | .jump r => { halt := none, jump := some ⟨Direction.code r.dir, r.key, r.val⟩, io := none, cf := s.cf }
  | .io r => { halt := none, jump := none, io := some r, cf := s.cf }

/-! ## The block's state and its step transaction -/

/-- The block's architectural state (R27). -/
structure Block where
  regs : Vector Word 64
  cf : Bool
  deriving DecidableEq, Repr

/-- The block's part of the machine. -/
def State.block (s : State) : Block := { regs := s.regs, cf := s.cf }

/-- The machine with another block state. -/
def State.withBlock (s : State) (b : Block) : State := { s with regs := b.regs, cf := b.cf }

/-- `x[i]` (R21). -/
def Block.read (b : Block) (i : Word) : Word := if i = 0#6 then 0#6 else b.regs[i.toNat]

/-- `x[i] <- v` (R22). -/
def Block.write (b : Block) (i v : Word) : Block :=
  { b with regs := if i = 0#6 then b.regs else b.regs.set i.toNat v }

/-- The reset of the block, for its draws (R250 to R253). -/
def Block.reset (regInit : Vector Word 64) (cfInit : Bool) : Block := { regs := regInit.set 0 0, cf := cfInit }

/-- `rst` = 1: the block is reset, the environment is not touched (R30, R250). -/
def State.rst (s : State) (regInit : Vector Word 64) (cfInit : Bool) : State :=
  s.withBlock (Block.reset regInit cfInit)

/-- The debug port: `dbg_data = x[dbg_addr]` (R34). -/
def Block.dbgData (b : Block) (dbgAddr : Word) : Word := b.read dbgAddr

/-- What an op with no sub-field error, gated in, does to the block, given the value the environment returns for an IO,
if any (R35, R36). -/
def Block.execute (p : Params) (b : Block) (f : Fields) (rdata : Option Word) : Block :=
  match f.op with
  | .add => b.write f.a (b.read f.b + b.read f.c)
  | .addi => b.write f.a (b.read f.b + f.c)
  | .sub => b.write f.a (b.read f.b + tc6 (b.read f.c))
  | .or => b.write f.a (b.read f.b ||| logicOperand p.logicNegB (b.read f.c))
  | .ori => b.write f.a (b.read f.b ||| f.c)
  | .xor => b.write f.a (b.read f.b ^^^ logicOperand p.logicNegB (b.read f.c))
  | .xori => b.write f.a (b.read f.b ^^^ f.c)
  | .and => b.write f.a (b.read f.b &&& logicOperand p.logicNegB (b.read f.c))
  | .andi => b.write f.a (b.read f.b &&& f.c)
  | .shl => b.write f.a (lsl (b.read f.b) (b.read f.c).toNat)
  | .shr => b.write f.a (lsr (b.read f.b) (b.read f.c).toNat)
  | .shi => b.write f.a (shiftBy (shiType f.c) (b.read f.b) (shiDist f.c).toNat)
  | .cmp =>
    { b with
      cf := compareValues (cmpComparator f.a) (cmpOperandA (cmpType f.a) f.b (b.read f.b))
        (cmpOperandB (cmpType f.a) f.c (b.read f.c)) }
  | .fm =>
    b.write f.a
      (fmResult (fmMode f.c) (fmProduct p.fmSignedOperands (fmMode f.c) (b.read f.a) (b.read f.b)) (fmFrac f.c).toNat)
  | .ld => b.write f.a (b.read (effectiveIndex (b.read f.b) f.c))
  | .st => b.write (effectiveIndex (b.read f.b) f.c) (b.read f.a)
  | .lbl | .hlt | .jup | .jdn => b
  | .io =>
    match rdata with
    | some v => b.write f.a v
    | none => b

/-- The step transaction on the block's state (R35). -/
def Block.next (p : Params) (b : Block) (insn : InsnWord) (rdata : Option Word) : Block :=
  match (p.codes.decode insn).fields with
  | none => b
  | some f => if gate f.cond b.cf && !Fields.subErr f then b.execute p f rdata else b

/-- The run loop over the block, up to the end of the cycle (R208). -/
def State.runLoop (s : State) (insn : InsnWord) : Result :=
  match s.request insn with
  | .none => .next (s.withBlock (s.block.next s.params insn none)).advance
  | .halt h => .next (s.raiseHalt h)
  | .jump r => s.serveJump r
  | .io r =>
    match s.serveIo r with
    | .done rdata t => .next (t.withBlock (t.block.next s.params insn rdata)).advance
    | .halted h t => .next (t.raiseHalt h)
    | .blocked => s.blockedRead

end Sys2Proof.Machine
end

