-- ==== Sys2Proof/Safety.lean ====
section
/-!
DEFINITION. Safety.lean: the terms the claims are stated in: the invariant of the machine, what it is for an instruction
to complete in each of its gated forms, what it leaves unchanged, and the spec's notions that the model computes
(which register an instruction writes, which tape entries are open labels), said once more in the spec's own words, and
lines of assembly as the spec spells them.
-/

namespace Sys2Proof.Machine

/-- What every step keeps. -/
structure Inv (s : State) : Prop where
  /-- The parameters are in their ranges (R10). -/
  paramsInRange : Params.wf s.params = true
  /-- pc is an index of the tape, where there is one (R29). -/
  pcOnTape : s.tape ≠ [] → s.pc < s.tape.length
  /-- The memory window is in canonical form, with no cell outside it. -/
  memCanonical : Memory.wf s.params.memSize s.mem = true
  /-- Cell 0 of the register file holds 0 (R21, R22). -/
  cellZero : s.regs[0] = 0
  /-- The renderer is up exactly while a machine that has one runs (R231, R255). -/
  rendererRuns : s.rendererUp = (s.params.hasRenderer && s.halt.isNone)
  /-- No quit is pending between two cycles: the end of its cycle used it up (R210, log entry 18). -/
  quitUsedUp : s.quitPending = false

/-- In each of its three forms an instruction, when its gate is true, completes: exec answers a next state, and Q holds
of it (R85, R86). -/
def CompletesInEachForm (i iT iF : Instr) (s : State) (Q : State → Prop) : Prop :=
  (∃ t, exec i s = .next t ∧ Q t) ∧
  (s.cf = true → ∃ t, exec iT s = .next t ∧ Q t) ∧
  (s.cf = false → ∃ t, exec iF s = .next t ∧ Q t)

/-- Under the default codes the words of an op with the fields a, b and c, under each cond, decode to these: F is op + 1,
op + 22 and op + 43 (R64, R69). -/
def EncodedAs (op : Nat) (a b c : Word) (i iT iF : Instr) : Prop :=
  decode (mkWord (mask6 (op + 1)) a b c) = i ∧
  decode (mkWord (mask6 (op + 22)) a b c) = iT ∧
  decode (mkWord (mask6 (op + 43)) a b c) = iF

/-- Every register reads in t as in s, except rd, which reads as v unless it is r0 (R21, R22). -/
def RegistersBut (s t : State) (rd v : Word) : Prop :=
  ∀ j, t.readReg j = if j = rd ∧ rd ≠ 0#6 then v else s.readReg j

/-- Every memory-window cell reads in t as in s. -/
def MemorySame (s t : State) : Prop := ∀ a, t.readMem a = s.readMem a

/-- The pc of t is the one after s's (R29). -/
def PcAdvanced (s t : State) : Prop := t.pc = (s.pc + 1) % s.tape.length

/-- From s to t, rd is written with v, pc advances, and nothing else changes. -/
def WritesOnlyRegister (s t : State) (rd v : Word) : Prop :=
  RegistersBut s t rd v ∧ PcAdvanced s t ∧ MemorySame s t ∧ t = { s with regs := t.regs, pc := t.pc }

/-- The machine s, halted for the reason h, with its renderer torn down: nothing else changes, pc included
(R230, R231). -/
def haltedFor (s : State) (h : Halt) : State := { s with halt := some h, rendererUp := false }

/-- The second operand of OR, XOR and AND (R110). -/
def secondOperand (s : State) (rb : Word) : Nat :=
  if s.params.logicNegB then (((s.readReg rb).toNat ^^^ 63) + 1) % 64 else (s.readReg rb).toNat

/-- Tape(i) is an LBL with these fields whose own gate is true (R186). -/
def IsOpenLabel (s : State) (keyHi keyLo val : Word) (i : Nat) : Prop :=
  ∃ w, s.tape[i]? = some w ∧
    (s.params.codes.decode w = .lbl keyHi keyLo val ∨
      (s.params.codes.decode w = .lblT keyHi keyLo val ∧ s.cf = true) ∨
      (s.params.codes.decode w = .lblF keyHi keyLo val ∧ s.cf = false))

/-- The register an instruction writes, if any, as 10_state.md R23 lists it; for an IO, the register it writes where the
device returns a value. -/
def destination (s : State) (i : Instr) : Option Word :=
  match i.fields with
  | none => none
  | some f =>
    match f.op with
    | .cmp | .lbl | .hlt | .jup | .jdn => none
    | .st => some (mask6 ((s.readReg f.b).toNat + f.c.toNat))
    | _ => some f.a

/-- The ops that only compute: they have no exception (files 40, 41 and 44, and R180). -/
def Op.neverStops : Op → Bool
  | .add | .addi | .sub | .or | .ori | .xor | .xori | .and | .andi | .shl | .shr | .ld | .st | .lbl => true
  | .shi | .cmp | .fm | .hlt | .jup | .jdn | .io => false

/-- What the outside world has lined up for a machine, and the parts of the machine that are neither in a snapshot nor
written to by the outside alone: all that decides how a run goes on, beside the snapshot. -/
def SameOutside (s t : State) : Prop :=
  s.params = t.params ∧ s.inputLines = t.inputLines ∧ s.schedule = t.schedule ∧ s.cycles = t.cycles ∧
    s.quitPending = t.quitPending

/-! ## Lines of assembly, as R90, R91 and R93 spell them -/

/-- An immediate, a label part, a distance or a device number, in decimal. -/
def asmNum (n : Nat) : List Char := Nat.toDigits 10 n

/-- A register. -/
def asmReg (n : Nat) : List Char := 'r' :: asmNum n

/-- A CMP operand: `#n` if it is an immediate, else a register. -/
def asmCmp (immediate : Bool) (n : Nat) : List Char := if immediate then '#' :: asmNum n else asmReg n

/-- The operand `[ra+imm]`. -/
def asmIndexed (ra imm : Nat) : List Char := '[' :: (asmReg ra ++ '+' :: asmNum imm ++ [']'])

/-- The suffix of a cond. -/
def asmSuffix : Cond → List Char
  | .always => []
  | .ifTrue => ['.', 'T']
  | .ifFalse => ['.', 'F']

/-- A line: the mnemonic with its suffix, and after a space the operands with a comma and a space between them. -/
def asmLine (mnemonic : String) (c : Cond) (operands : List (List Char)) : List Char :=
  mnemonic.toList ++ asmSuffix c ++
    match operands with
    | [] => []
    | o :: os => ' ' :: (o ++ os.flatMap fun p => ',' :: ' ' :: p)

/-- The assembler takes the line exactly when inRange holds, and then as the instruction with these operands, in the
columns of R70; otherwise it refuses it (R95). -/
def Assembles (k : Codes) (line : List Char) (inRange : Prop) (op : Op) (c : Cond) (a b v : Nat) : Prop :=
  (inRange → ∃ i, assemble k line = some i ∧ i.fields = some ⟨op, c, mask6 a, mask6 b, mask6 v⟩) ∧
  (¬ inRange → assemble k line = none)

end Sys2Proof.Machine
end

