-- ==== Sys2Proof/Certificates/Slice0/Obligations.lean ====
section
/-!
DEFINITION. Certificates/Slice0/Obligations.lean: the statements for the provers. Each docstring says what its statement
formalises; OBLIGATIONS.json lists them with the rules they rest on.
-/

open Sys2Proof Sys2Proof.Machine

/-- What reset leaves, for every draw. Rules R250, R255. For every launch l (every REG_INIT, CF_INIT, MEM_INIT,
parameters and loaded tape): after reset r0 reads 0, every other register reads its draw and cf is its draw; pc is
PC_INIT; the machine is running and its halt code is NONE; the serial buffer and the output sink are empty; the
clock is 0 with its baseline the wall time at start; the memory cursor is 0 and the cells are their draw; the
renderer is started exactly when one is attached, with no quit pending; the tape is the loaded one. The values are
the spec's decisions D16 to D18, D24, D25, D27 and D36. -/
def Obligations.LaunchSetsResetState : Prop :=
  ∀ l : Launch,
    (∀ j : Word, (State.launch l).readReg j = if j = 0#6 then 0 else l.regInit[j.toNat]) ∧
    (State.launch l).cf = l.cfInit ∧ (State.launch l).pc = l.params.pcInit ∧
    (State.launch l).halt = none ∧ (State.launch l).haltCode = 0 ∧
    (State.launch l).serialIn = [] ∧ (State.launch l).output = [] ∧
    (State.launch l).clock = 0 ∧ (State.launch l).clockBaseline = l.wallStart ∧
    (State.launch l).cursor = 0 ∧ (∀ a, (State.launch l).readMem a = memGet l.memInit a) ∧
    (State.launch l).rendererUp = l.params.hasRenderer ∧ (State.launch l).quitPending = false ∧
    (State.launch l).tape = l.tape ∧
    ∀ (s : State) (r : Vector Word 64) (c : Bool),
      (s.rst r c).cf = c ∧ (∀ j : Word, (s.rst r c).readReg j = if j = 0#6 then 0 else r[j.toNat]) ∧
      s.rst r c = { s with regs := (s.rst r c).regs, cf := c }

/-- The model's own reset draws: zeros (log entries 1, 2 and 4). From 70_reset_and_hazards.md section 1. State.reset
takes the draws the model names, which are its own choice and not the spec's (log entries 1, 2 and 4): every
register and memory cell reads 0, cf is clear, no tape is loaded and nothing is lined up from outside. The
parameters are the defaults of R10: PC_INIT 0, HAS_MEM true, MEM_SIZE 2^18, HAS_RENDERER true, CLOCK_RESET_TEST
field, GPU_TICK_POLICY both, LOGIC_NEG_B and FM_SIGNED_OPERANDS false, and the numbers and placements of D1 to D7
and D21 written out. CLOCK_UNIT, which R10 leaves open, is a free value of at least 1 (log entry 3), and
clockResetQuit is the model's own parameter (log entry 7). -/
def Obligations.ResetTakesTheNamedDraws : Prop :=
  (∀ j, State.reset.readReg j = 0) ∧ State.reset.cf = false ∧ (∀ a, State.reset.readMem a = 0) ∧
  State.reset.params = Params.default ∧ State.reset.tape = [] ∧ State.reset.inputLines = [] ∧
  State.reset.schedule = [] ∧ State.reset.params.pcInit = 0 ∧ State.reset.params.hasMem = true ∧
  State.reset.params.memSize = 262144 ∧ State.reset.params.hasRenderer = true ∧
  State.reset.params.clockResetTest = .field ∧ State.reset.params.gpuTickPolicy = .both ∧
  State.reset.params.logicNegB = false ∧ State.reset.params.fmSignedOperands = false ∧
  State.reset.params.clockResetQuit = .endOfCycle ∧ 1 ≤ State.reset.params.clockUnit ∧
  State.reset.params.codes.ops.toList =
    [.add, .addi, .sub, .or, .ori, .xor, .xori, .and, .andi, .shl, .shr, .shi, .cmp, .fm, .ld, .st, .lbl, .hlt, .jup,
      .jdn, .io] ∧
  State.reset.params.codes.conds.toList = [.always, .ifTrue, .ifFalse] ∧
  State.reset.params.codes.fieldMap = ⟨.abc, .abc, .abc, .abc, .abc, .abc, .abc⟩ ∧
  State.reset.params.codes.cmpLayout.toList = [0, 1, 2, 3, 4, 5] ∧
  State.reset.params.codes.cmpTypes.toList = [.rr, .ri, .ir, .ii] ∧
  State.reset.params.codes.comparators.toList = [.tr, .fa, .eq, .ne, .slt, .sgt, .ult, .ugt] ∧
  State.reset.params.codes.shiLayout.toList = [0, 1, 2, 3, 4, 5] ∧
  State.reset.params.codes.shiftTypes.toList = [.lsl, .lsr, .asr, .rol] ∧
  State.reset.params.codes.fmLayout.toList = [0, 1, 2, 3, 4, 5] ∧
  State.reset.params.codes.fmModes.toList = [.unsigned, .signed] ∧
  State.reset.params.codes.devices =
    [(0, .serialIncoming), (1, .serialRead), (2, .serialWrite), (3, .clockLoCs), (4, .clockHiCs), (5, .memAddrLo),
      (6, .memAddrMid), (7, .memAddrHi), (8, .memRead), (9, .memWrite), (10, .gpuX), (11, .gpuY), (12, .gpuDraw)]

/-- Every launch with a loaded tape and canonical memory meets the invariant; so does State.reset. From
70_reset_and_hazards.md section 1, 10_state.md section 3. -/
def Obligations.LaunchMeetsInvariant : Prop :=
  Inv State.reset ∧
  ∀ l : Launch, Params.wf l.params = true → Memory.wf l.params.memSize l.memInit = true →
    (l.tape ≠ [] → l.params.pcInit < l.tape.length) → Inv (State.launch l)

/-- Every step keeps the invariant. From 10_state.md section 3, 20_memory.md section 3, 60_exceptions.md section 2,
45_control_and_io.md section 4. For every state s that meets Inv, if step s answers next t then t meets Inv: the
parameters stay in range, pc stays on the tape, the memory window keeps its canonical form and no cell beyond
MEM_SIZE, cell 0 of the register file stays 0, the renderer runs exactly while the machine does, and no quit is
pending between two cycles. That a quit which the end of a cycle honours, or which an abort overtakes there, is
pending no longer is the model's choice (log entry 18). -/
def Obligations.StepKeepsInvariant : Prop :=
  ∀ s t : State, Inv s → step s = .next t → Inv t

/-- Decode and encode agree on every instruction and every operand value, under every numbering R10 allows. Rules R67. -/
def Obligations.DecodeOfEncodeIsTheInstruction : Prop :=
  Codes.default.wf = true ∧
  ∀ k : Codes, k.wf = true →
    (∀ i : Instr, i ≠ .invalid →
      ∃ w, k.encode i = some w ∧ k.decode w = i ∧ ∀ rest, k.decodeBytes (bytesOfWord w ++ rest) = .ok (i, rest)) ∧
    k.encode .invalid = none ∧
    (∀ w : InsnWord, fieldF w = 0#6 → k.decode w = .invalid) ∧
    (∀ v w : InsnWord, fieldF v ≠ 0#6 → fieldF w ≠ 0#6 → k.decode v = k.decode w → v = w)

/-- Every word with F not 0 is the encoding of what it decodes to. From 30_encoding.md section 2. -/
def Obligations.EncodeOfDecodeIsTheWord : Prop :=
  ∀ (k : Codes) (w : InsnWord), k.wf = true → fieldF w ≠ 0#6 → k.encode (k.decode w) = some w

/-- F = 0 is INVALID, nothing else is, and it halts whatever cf holds. Rules R63. -/
def Obligations.ReservedFieldIsTheOneInvalid : Prop :=
  (∀ (k : Codes) (w : InsnWord), k.decode w = .invalid ↔ w.toNat / 2 ^ 18 = 0) ∧
  ∀ s : State, exec .invalid s = .next (haltedFor s (.invalid s.pc s.currentWord))

/-- The fields of a word, and its op and cond. Rules R62, R64. -/
def Obligations.OpcodeFieldGivesOpAndCond : Prop :=
  (∀ w : InsnWord, w.toNat / 2 ^ 18 ≠ 0 →
    ∃ f, (decode w).fields = some f ∧ f.op.code = (w.toNat / 2 ^ 18 - 1) % 21 ∧
      f.cond.code = (w.toNat / 2 ^ 18 - 1) / 21 ∧ f.a.toNat = w.toNat / 2 ^ 12 % 64 ∧
      f.b.toNat = w.toNat / 2 ^ 6 % 64 ∧ f.c.toNat = w.toNat % 64) ∧
  [Op.add, .addi, .sub, .or, .ori, .xor, .xori, .and, .andi, .shl, .shr, .shi, .cmp, .fm, .ld, .st, .lbl, .hlt,
    .jup, .jdn, .io].map Op.code = List.range 21 ∧
  [Cond.always, .ifTrue, .ifFalse].map Cond.code = [0, 1, 2]

/-- The decoder's outputs and the debug port. From 10_state.md section 4, 30_encoding.md section 2, 30_encoding.md
section 3. -/
def Obligations.DecoderOutputsAndDebugPort : Prop :=
  (∀ (k : Codes) (w : InsnWord) (cf : Bool), w.toNat / 2 ^ 18 = 0 → (decoderOut k w cf).invalid = true) ∧
  (∀ (k : Codes) (w : InsnWord) (cf : Bool), w.toNat / 2 ^ 18 ≠ 0 →
    ∃ f : Fields, (decoderOut k w cf).invalid = false ∧ (decoderOut k w cf).record = some f ∧
      k.ops[(w.toNat / 2 ^ 18 - 1) % 21]? = some f.op ∧ k.conds[(w.toNat / 2 ^ 18 - 1) / 21]? = some f.cond ∧
      f.a.toNat = w.toNat / 2 ^ 12 % 64 ∧ f.b.toNat = w.toNat / 2 ^ 6 % 64 ∧ f.c.toNat = w.toNat % 64 ∧
      (decoderOut k w cf).gate = gate f.cond cf ∧
      ((decoderOut k w cf).subErr = true ↔ (k.decode w).wellFormed = false) ∧
      (k = Codes.default →
        f.op.code = (w.toNat / 2 ^ 18 - 1) % 21 ∧ f.cond.code = (w.toNat / 2 ^ 18 - 1) / 21 ∧
        ((decoderOut k w cf).subErr = true ↔
          (f.op = .cmp ∧ 32 ≤ f.a.toNat) ∨ ((f.op = .shi ∨ f.op = .fm) ∧ 32 ≤ f.c.toNat)))) ∧
  ∀ (s : State) (a : Word), s.block.dbgData a = s.readReg a

/-- Three bytes are one word, most significant byte first. Rules R61. -/
def Obligations.BytesAssembleBigEndian : Prop :=
  (∀ (k : Codes) (b0 b1 b2 : Byte) (rest : List Byte),
    k.decodeBytes (b0 :: b1 :: b2 :: rest) =
      .ok (k.decode (BitVec.ofNat 24 (b0.toNat * 2 ^ 16 + b1.toNat * 2 ^ 8 + b2.toNat)), rest)) ∧
  ∀ (k : Codes) (bytes : List Byte), bytes.length < 3 → k.decodeBytes bytes = .error .tooFewBytes

/-- Words the spec writes out decode to the instructions it names. From 95_test_vectors.md section 2, 30_encoding.md
section 2. -/
def Obligations.SpecWordsDecode : Prop :=
  decode 0x043042 = .add 3 1 2 ∧ decode 0x5C3001 = .addiT 3 0 1 ∧ decode 0x0C3042 = .sub 3 1 2 ∧
  decode 0x302051 = .shi 2 1 false .asr 1 ∧ decode 0x34A045 = .cmp false .ri .eq 1 5 ∧
  decode 0x381099 = .fm 1 2 false .signed 9 ∧ decode 0x405042 = .st 5 1 2 ∧ decode 0x980240 = .lblT 0 9 0 ∧
  decode 0xA00040 = .jupT 0 1 0 ∧ decode 0x480FFF = .hlt 0 63 63 ∧ decode 0xFFFFFF = .ioF 63 63 63 ∧
  decode 0x03FFFF = .invalid

/-- A step executes the instruction at pc and then ends the cycle. From 45_control_and_io.md section 4, 10_state.md
section 4. In a running machine, when the word at pc decodes to i, step is exec of i at that state followed by the
end of the cycle, and answers exec's fault or refusal as it stands; this holds for every i, and so, under codes that
number every name once, for every well-formed one whose encoding is the word at pc. Where pc is no index of the tape
the step stops as offTape, and withFetchWord puts the word at pc: these two are the model's choice (log entry 5). -/
def Obligations.StepRunsDecodedInstruction : Prop :=
  (∀ (s : State) (w : InsnWord) (i : Instr), s.halt = none → s.tape[s.pc]? = some w →
    s.params.codes.decode w = i ∨
      (s.params.codes.wf = true ∧ i.wellFormed = true ∧ s.params.codes.encode i = some w) →
    (∀ t, exec i s = .next t → step s = .next t.endCycle) ∧
    (∀ f, exec i s = .fault f → step s = .fault f) ∧
    (∀ r, exec i s = .refused r → step s = .refused r)) ∧
  (∀ s : State, s.halt = none → s.tape[s.pc]? = none → step s = .fault .offTape) ∧
  ∀ (s : State) (w : Nat), (s.withFetchWord 24 w).tape[(s.withFetchWord 24 w).pc]? = some (BitVec.ofNat 24 w)

/-- The end of a cycle: clock refresh, then a host abort, then a quit. From 45_control_and_io.md section 4,
60_exceptions.md section 2. Let the outside world's entry for this cycle be e. If the instruction halted, the end of
the cycle changes nothing. Otherwise the clock becomes the elapsed wall time in CLOCK_UNITs, rounded down and
clamped to 4095; then, with pc already advanced, a host abort halts the machine with HOST_ABORT, and else a quit
(pending from a clock reset, or returned by the end-of-cycle poll where that is made) halts it with RENDERER_QUIT,
and else it runs on; a halt tears the renderer down, no quit is pending any longer, and nothing else changes but
that e is used up. The model's choices here are these: that what the outside does is a list (log entry 3), that a
quit from a clock reset waits for the end of the cycle (log entry 7), that a wall time before the baseline counts as
0 elapsed and a saturated clock may fall again, beside R209's 'once saturated it stays saturated' (log entry 16),
and that a quit honoured or overtaken by an abort is pending no longer (log entry 18). -/
def Obligations.CycleEndRefreshesClockAndHonoursQuitAndAbort : Prop :=
  (∀ t : State, t.halt.isSome = true → t.endCycle = t) ∧
  ∀ (t : State) (e : CycleInput) (rest : List CycleInput), t.halt = none → t.schedule = e :: rest →
    t.endCycle.clock.toNat = min 4095 ((e.wall - t.clockBaseline) / t.params.clockUnit) ∧
    t.endCycle.halt =
      (if e.abort = true then some (.hostAbort t.pc)
       else if t.quitPending = true ∨
          (t.params.hasRenderer = true ∧ t.params.gpuTickPolicy ≠ .clockReset ∧ e.quit = true)
         then some (.rendererQuit t.pc)
       else none) ∧
    t.endCycle.rendererUp = (t.rendererUp && t.endCycle.halt.isNone) ∧
    t.endCycle =
      { t with
        clock := t.endCycle.clock, halt := t.endCycle.halt, rendererUp := t.endCycle.rendererUp
        quitPending := false, schedule := rest, cycles := t.cycles + 1 }

/-- A halted machine takes no step. From 60_exceptions.md section 2. -/
def Obligations.HaltedHasNoSuccessor : Prop :=
  ∀ (s : State) (h : Halt), s.halt = some h → step s = .fault .halted

/-- ADD, ADD.T, ADD.F: x[rd] <- mask6(x[ra] + x[rb]). Rules R100. -/
def Obligations.AddWritesSumModulo64 : Prop :=
  ∀ (rd ra rb : Word) (s : State),
    EncodedAs 0 rd ra rb (.add rd ra rb) (.addT rd ra rb) (.addF rd ra rb) ∧
    CompletesInEachForm (.add rd ra rb) (.addT rd ra rb) (.addF rd ra rb) s fun t =>
      WritesOnlyRegister s t rd (mask6 ((s.readReg ra).toNat + (s.readReg rb).toNat))

/-- ADDI, ADDI.T, ADDI.F: x[rd] <- mask6(x[ra] + imm). Rules R101. -/
def Obligations.AddiWritesSumModulo64 : Prop :=
  ∀ (rd ra imm : Word) (s : State),
    EncodedAs 1 rd ra imm (.addi rd ra imm) (.addiT rd ra imm) (.addiF rd ra imm) ∧
    CompletesInEachForm (.addi rd ra imm) (.addiT rd ra imm) (.addiF rd ra imm) s fun t =>
      WritesOnlyRegister s t rd (mask6 ((s.readReg ra).toNat + imm.toNat))

/-- SUB, SUB.T, SUB.F: x[rd] <- mask6(x[ra] + tc6(x[rb])). Rules R102. -/
def Obligations.SubWritesDifferenceModulo64 : Prop :=
  ∀ (rd ra rb : Word) (s : State),
    EncodedAs 2 rd ra rb (.sub rd ra rb) (.subT rd ra rb) (.subF rd ra rb) ∧
    CompletesInEachForm (.sub rd ra rb) (.subT rd ra rb) (.subF rd ra rb) s fun t =>
      WritesOnlyRegister s t rd (mask6 ((s.readReg ra).toNat + (((s.readReg rb).toNat ^^^ 63) + 1) % 64)) ∧
      WritesOnlyRegister s t rd (mask6 ((s.readReg ra).toNat + 64 - (s.readReg rb).toNat))

/-- OR, XOR and AND (and .T, .F): x[rd] <- x[ra] op B. Rules R103, R105, R107, R110. -/
def Obligations.OrXorAndCombineRegisters : Prop :=
  ∀ (rd ra rb : Word) (s : State),
    (EncodedAs 3 rd ra rb (.or rd ra rb) (.orT rd ra rb) (.orF rd ra rb) ∧
      CompletesInEachForm (.or rd ra rb) (.orT rd ra rb) (.orF rd ra rb) s fun t =>
        WritesOnlyRegister s t rd (mask6 ((s.readReg ra).toNat ||| secondOperand s rb))) ∧
    (EncodedAs 5 rd ra rb (.xor rd ra rb) (.xorT rd ra rb) (.xorF rd ra rb) ∧
      CompletesInEachForm (.xor rd ra rb) (.xorT rd ra rb) (.xorF rd ra rb) s fun t =>
        WritesOnlyRegister s t rd (mask6 ((s.readReg ra).toNat ^^^ secondOperand s rb))) ∧
    (EncodedAs 7 rd ra rb (.and rd ra rb) (.andT rd ra rb) (.andF rd ra rb) ∧
      CompletesInEachForm (.and rd ra rb) (.andT rd ra rb) (.andF rd ra rb) s fun t =>
        WritesOnlyRegister s t rd (mask6 ((s.readReg ra).toNat &&& secondOperand s rb))) ∧
    Params.default.logicNegB = false

/-- ORI, XORI and ANDI (and .T, .F): x[rd] <- x[ra] op imm. Rules R104, R106, R108. -/
def Obligations.LogicImmediatesCombine : Prop :=
  ∀ (rd ra imm : Word) (s : State),
    (EncodedAs 4 rd ra imm (.ori rd ra imm) (.oriT rd ra imm) (.oriF rd ra imm) ∧
      CompletesInEachForm (.ori rd ra imm) (.oriT rd ra imm) (.oriF rd ra imm) s fun t =>
        WritesOnlyRegister s t rd (mask6 ((s.readReg ra).toNat ||| imm.toNat))) ∧
    (EncodedAs 6 rd ra imm (.xori rd ra imm) (.xoriT rd ra imm) (.xoriF rd ra imm) ∧
      CompletesInEachForm (.xori rd ra imm) (.xoriT rd ra imm) (.xoriF rd ra imm) s fun t =>
        WritesOnlyRegister s t rd (mask6 ((s.readReg ra).toNat ^^^ imm.toNat))) ∧
    (EncodedAs 8 rd ra imm (.andi rd ra imm) (.andiT rd ra imm) (.andiF rd ra imm) ∧
      CompletesInEachForm (.andi rd ra imm) (.andiT rd ra imm) (.andiF rd ra imm) s fun t =>
        WritesOnlyRegister s t rd (mask6 ((s.readReg ra).toNat &&& imm.toNat)))

/-- SHL and SHR (and .T, .F): logical shifts by a register count. Rules R120, R121. -/
def Obligations.ShiftsByRegisterDropBits : Prop :=
  ∀ (rd ra rb : Word) (s : State),
    (EncodedAs 9 rd ra rb (.shl rd ra rb) (.shlT rd ra rb) (.shlF rd ra rb) ∧
      CompletesInEachForm (.shl rd ra rb) (.shlT rd ra rb) (.shlF rd ra rb) s fun t =>
        WritesOnlyRegister s t rd (mask6 ((s.readReg ra).toNat * 2 ^ (s.readReg rb).toNat)) ∧
        (6 ≤ (s.readReg rb).toNat → WritesOnlyRegister s t rd 0)) ∧
    (EncodedAs 10 rd ra rb (.shr rd ra rb) (.shrT rd ra rb) (.shrF rd ra rb) ∧
      CompletesInEachForm (.shr rd ra rb) (.shrT rd ra rb) (.shrF rd ra rb) s fun t =>
        WritesOnlyRegister s t rd (mask6 ((s.readReg ra).toNat / 2 ^ (s.readReg rb).toNat)) ∧
        (6 ≤ (s.readReg rb).toNat → WritesOnlyRegister s t rd 0))

/-- SHI (and .T, .F): LSL, LSR, ASR and ROL by 0 to 7. Rules R123, R124, R125, R126. -/
def Obligations.ShiftByImmediateHasFourTypes : Prop :=
  ∀ (rd ra : Word) (dist : BitVec 3) (s : State),
    (∀ ty : ShiftType,
      EncodedAs 11 rd ra (mask6 ((ShiftType.code ty).toNat * 8 + dist.toNat)) (.shi rd ra false ty dist)
        (.shiT rd ra false ty dist) (.shiF rd ra false ty dist)) ∧
    [ShiftType.lsl, .lsr, .asr, .rol].map ShiftType.code = [0, 1, 2, 3] ∧
    (CompletesInEachForm (.shi rd ra false .lsl dist) (.shiT rd ra false .lsl dist) (.shiF rd ra false .lsl dist) s
      fun t => WritesOnlyRegister s t rd (mask6 ((s.readReg ra).toNat * 2 ^ dist.toNat))) ∧
    (CompletesInEachForm (.shi rd ra false .lsr dist) (.shiT rd ra false .lsr dist) (.shiF rd ra false .lsr dist) s
      fun t => WritesOnlyRegister s t rd (mask6 ((s.readReg ra).toNat / 2 ^ dist.toNat))) ∧
    (CompletesInEachForm (.shi rd ra false .asr dist) (.shiT rd ra false .asr dist) (.shiF rd ra false .asr dist) s
      fun t => WritesOnlyRegister s t rd
        (if (s.readReg ra).toNat < 32 then mask6 ((s.readReg ra).toNat / 2 ^ dist.toNat)
         else mask6 ((s.readReg ra).toNat / 2 ^ dist.toNat |||
          (2 ^ min dist.toNat 6 - 1) * 2 ^ (6 - min dist.toNat 6)))) ∧
    (CompletesInEachForm (.shi rd ra false .rol dist) (.shiT rd ra false .rol dist) (.shiF rd ra false .rol dist) s
      fun t => WritesOnlyRegister s t rd
        (mask6 ((s.readReg ra).toNat * 2 ^ (dist.toNat % 6) ||| (s.readReg ra).toNat / 2 ^ (6 - dist.toNat % 6))))

/-- ASR is division by a power of two, rounded down, at 6 and at 12 bits. From 41_shifter.md section 1. -/
def Obligations.ArithmeticShiftIsFloorDivision : Prop :=
  (∀ (v : Word) (d : Nat), asr v d = BitVec.ofInt 6 (sext6 v / 2 ^ d)) ∧
  ∀ (v : Word12) (d : Nat), asr v d = BitVec.ofInt 12 (sext12 v / 2 ^ d)

/-- ROL: each bit moves up by the distance modulo 6, and rotating on by the rest restores the value. From 41_shifter.md
section 1, 41_shifter.md section 3. -/
def Obligations.RotationLosesNoBits : Prop :=
  (∀ (v : Word) (d j : Nat), j < 6 → (rol6 v d).getLsbD ((j + d) % 6) = v.getLsbD j) ∧
  ∀ (v : Word) (d : Nat), rol6 (rol6 v d) (6 - d % 6) = v

/-- CMP (and .T, .F): cf <- compare(cm, A, B) on register and immediate operands. Rules R141, R142, R143. CMP with its
sub-field bit clear, under each cond, is encoded with a = {0, ctype, cm} and completes in every state whose gate is
true. A is x[b] under RR and RI and the field b itself under IR and II; B is x[c] under RR and IR and the field c
itself under RI and II. cf becomes true, false, A = B, A not B, A < B and A > B as two's complement, A < B and A > B
unsigned, for the eight comparators. No register, no memory cell and nothing else changes, and pc advances. The
codes are the spec's decisions D4 and D5. -/
def Obligations.CmpSetsTheFlag : Prop :=
  ∀ (ctype : CmpType) (cm : Comparator) (b c : Word) (s : State),
    EncodedAs 12 (mask6 ((CmpType.code ctype).toNat * 8 + (Comparator.code cm).toNat)) b c (.cmp false ctype cm b c)
      (.cmpT false ctype cm b c) (.cmpF false ctype cm b c) ∧
    [CmpType.rr, .ri, .ir, .ii].map CmpType.code = [0, 1, 2, 3] ∧
    [Comparator.tr, .fa, .eq, .ne, .slt, .sgt, .ult, .ugt].map Comparator.code = [0, 1, 2, 3, 4, 5, 6, 7] ∧
    CompletesInEachForm (.cmp false ctype cm b c) (.cmpT false ctype cm b c) (.cmpF false ctype cm b c) s fun t =>
      t = { s with cf := t.cf, pc := t.pc } ∧ PcAdvanced s t ∧ (∀ j, t.readReg j = s.readReg j) ∧ MemorySame s t ∧
      ∃ A B : Word,
        A = (if ctype = .rr ∨ ctype = .ri then s.readReg b else b) ∧
        B = (if ctype = .rr ∨ ctype = .ir then s.readReg c else c) ∧
        (cm = .tr → t.cf = true) ∧ (cm = .fa → t.cf = false) ∧
        (cm = .eq → t.cf = decide (A = B)) ∧ (cm = .ne → t.cf = decide (A ≠ B)) ∧
        (cm = .slt → t.cf = decide (A.toInt < B.toInt)) ∧ (cm = .sgt → t.cf = decide (A.toInt > B.toInt)) ∧
        (cm = .ult → t.cf = decide (A.toNat < B.toNat)) ∧ (cm = .ugt → t.cf = decide (A.toNat > B.toNat))

/-- FM (and .T, .F): a 12-bit product, shifted, truncated to 6 bits. Rules R161, R162, R163. -/
def Obligations.FixedPointMultiplyShiftsTheProduct : Prop :=
  ∀ (rd rs : Word) (frac : BitVec 4) (s : State),
    (∀ mode : FmMode,
      EncodedAs 13 rd rs (mask6 ((FmMode.code mode).toNat * 16 + frac.toNat)) (.fm rd rs false mode frac)
        (.fmT rd rs false mode frac) (.fmF rd rs false mode frac)) ∧
    [FmMode.unsigned, .signed].map FmMode.code = [0, 1] ∧ Params.default.fmSignedOperands = false ∧
    (CompletesInEachForm (.fm rd rs false .unsigned frac) (.fmT rd rs false .unsigned frac)
      (.fmF rd rs false .unsigned frac) s fun t =>
        WritesOnlyRegister s t rd (mask6 ((s.readReg rd).toNat * (s.readReg rs).toNat / 2 ^ frac.toNat))) ∧
    (CompletesInEachForm (.fm rd rs false .signed frac) (.fmT rd rs false .signed frac)
      (.fmF rd rs false .signed frac) s fun t =>
        ∃ p : Nat,
          p = (if s.params.fmSignedOperands then ((s.readReg rd).toInt * (s.readReg rs).toInt % 4096).toNat
            else (s.readReg rd).toNat * (s.readReg rs).toNat) ∧
          WritesOnlyRegister s t rd
            (if p < 2048 then mask6 (p / 2 ^ frac.toNat)
             else mask6 (p / 2 ^ frac.toNat ||| (2 ^ min frac.toNat 12 - 1) * 2 ^ (12 - min frac.toNat 12))))

/-- LD, LD.T, LD.F: x[rd] <- x[mask6(x[ra] + imm)]. Rules R170, R172. -/
def Obligations.LoadCopiesTheIndexedRegister : Prop :=
  ∀ (rd ra imm : Word) (s : State),
    EncodedAs 14 rd ra imm (.ld rd ra imm) (.ldT rd ra imm) (.ldF rd ra imm) ∧
    CompletesInEachForm (.ld rd ra imm) (.ldT rd ra imm) (.ldF rd ra imm) s fun t =>
      WritesOnlyRegister s t rd (s.readReg (mask6 ((s.readReg ra).toNat + imm.toNat)))

/-- ST, ST.T, ST.F: x[mask6(x[ra] + imm)] <- x[rs]. Rules R171, R172. -/
def Obligations.StoreWritesTheIndexedRegister : Prop :=
  ∀ (rs ra imm : Word) (s : State),
    EncodedAs 15 rs ra imm (.st rs ra imm) (.stT rs ra imm) (.stF rs ra imm) ∧
    CompletesInEachForm (.st rs ra imm) (.stT rs ra imm) (.stF rs ra imm) s fun t =>
      WritesOnlyRegister s t (mask6 ((s.readReg ra).toNat + imm.toNat)) (s.readReg rs)

/-- LBL (and .T, .F): executes as a no-op; the query port shows its gate and its key. Rules R180, R33. -/
def Obligations.LabelIsANoOpThatTheQueryPortSees : Prop :=
  (∀ (a b c : Word) (s : State),
    EncodedAs 16 a b c (.lbl a b c) (.lblT a b c) (.lblF a b c) ∧
    (CompletesInEachForm (.lbl a b c) (.lblT a b c) (.lblF a b c) s fun t =>
      t = { s with pc := (s.pc + 1) % s.tape.length })) ∧
  (∀ (k : Codes) (w : InsnWord) (cf : Bool) (a b c : Word) (gated : Bool),
    (k.decode w = .lbl a b c ∧ gated = true) ∨ (k.decode w = .lblT a b c ∧ gated = cf) ∨
      (k.decode w = .lblF a b c ∧ gated = !cf) →
    (labelQuery k w cf).isLbl = true ∧ (labelQuery k w cf).gate = gated ∧
    (labelQuery k w cf).key.toNat = 64 * a.toNat + b.toNat ∧ (labelQuery k w cf).val = c) ∧
  ∀ (k : Codes) (w : InsnWord) (cf : Bool), (k.decode w).op ≠ some .lbl → (labelQuery k w cf).isLbl = false

/-- HLT (and .T, .F): the machine halts with code HLT, pc at the HLT. Rules R181. -/
def Obligations.HltHaltsInPlace : Prop :=
  ∀ (a b c : Word) (s : State),
    EncodedAs 17 a b c (.hlt a b c) (.hltT a b c) (.hltF a b c) ∧
    CompletesInEachForm (.hlt a b c) (.hltT a b c) (.hltF a b c) s fun t =>
      t = haltedFor s (.hlt s.pc) ∧ t.haltCode = 1

/-- INVALID: the machine halts with code INVALID. Rules R182, R222. -/
def Obligations.InvalidHaltsWhateverTheFlagHolds : Prop :=
  (∀ (s : State) (w : InsnWord), s.tape[s.pc]? = some w → fieldF w = 0#6 →
    exec (s.params.codes.decode w) s = .next (haltedFor s (.invalid s.pc w))) ∧
  (∀ s : State, ∃ t, exec .invalid s = .next t ∧ t = haltedFor s (.invalid s.pc s.currentWord) ∧ t.haltCode = 2) ∧
  decode 0 = .invalid

/-- SHI, CMP and FM with the sub-field bit set halt with BAD_SUBFIELD. Rules R224. SHI, CMP and FM whose word has the
sub-field bit 5 set, executed and gated in, halt the machine: the reason BAD_SUBFIELD is recorded with pc and the
word at pc, the halt code is 3, and no register or cf write happens and nothing else changes but that an attached
renderer is torn down. The behaviour is the spec's own decision D8. -/
def Obligations.SubFieldErrorHalts : Prop :=
  ∀ (s : State) (w : InsnWord), s.tape[s.pc]? = some w →
    (∀ (rd ra : Word) (ty : ShiftType) (dist : BitVec 3),
      CompletesInEachForm (.shi rd ra true ty dist) (.shiT rd ra true ty dist) (.shiF rd ra true ty dist) s fun t =>
        t = haltedFor s (.badSubfield s.pc w) ∧ t.haltCode = 3) ∧
    (∀ (ctype : CmpType) (cm : Comparator) (b c : Word),
      CompletesInEachForm (.cmp true ctype cm b c) (.cmpT true ctype cm b c) (.cmpF true ctype cm b c) s fun t =>
        t = haltedFor s (.badSubfield s.pc w) ∧ t.haltCode = 3) ∧
    (∀ (rd rs : Word) (mode : FmMode) (frac : BitVec 4),
      CompletesInEachForm (.fm rd rs true mode frac) (.fmT rd rs true mode frac) (.fmF rd rs true mode frac) s fun t =>
        t = haltedFor s (.badSubfield s.pc w) ∧ t.haltCode = 3)

/-- JDN and JUP (and .T, .F): the label search, its result and its failure. Rules R183, R184, R185, R186, R189. -/
def Obligations.JumpsGoToTheNearestOpenLabel : Prop :=
  ∀ (a b rc : Word) (s : State),
    EncodedAs 18 a b rc (.jup a b rc) (.jupT a b rc) (.jupF a b rc) ∧
    EncodedAs 19 a b rc (.jdn a b rc) (.jdnT a b rc) (.jdnF a b rc) ∧
    (∀ w, s.params.codes.decode w = .jup a b rc →
      s.request w = .jump { dir := .up, key := BitVec.ofNat 12 (64 * a.toNat + b.toNat), val := s.readReg rc }) ∧
    (∀ w, s.params.codes.decode w = .jdn a b rc →
      s.request w = .jump { dir := .down, key := BitVec.ofNat 12 (64 * a.toNat + b.toNat), val := s.readReg rc }) ∧
    (∀ k, 1 ≤ k → k < s.tape.length → IsOpenLabel s a b (s.readReg rc) ((s.pc + k) % s.tape.length) →
      (∀ j, 1 ≤ j → j < k → ¬ IsOpenLabel s a b (s.readReg rc) ((s.pc + j) % s.tape.length)) →
      CompletesInEachForm (.jdn a b rc) (.jdnT a b rc) (.jdnF a b rc) s fun t =>
        t = { s with pc := (s.pc + k) % s.tape.length }) ∧
    (∀ k, 1 ≤ k → k < s.tape.length →
      IsOpenLabel s a b (s.readReg rc) ((s.pc + s.tape.length - k) % s.tape.length) →
      (∀ j, 1 ≤ j → j < k → ¬ IsOpenLabel s a b (s.readReg rc) ((s.pc + s.tape.length - j) % s.tape.length)) →
      CompletesInEachForm (.jup a b rc) (.jupT a b rc) (.jupF a b rc) s fun t =>
        t = { s with pc := (s.pc + s.tape.length - k) % s.tape.length }) ∧
    ((∀ k, 1 ≤ k → k < s.tape.length →
        ¬ IsOpenLabel s a b (s.readReg rc) ((s.pc + k) % s.tape.length)) →
      CompletesInEachForm (.jdn a b rc) (.jdnT a b rc) (.jdnF a b rc) s fun t =>
        t = haltedFor s (.labelNotFound s.pc (BitVec.ofNat 12 (64 * a.toNat + b.toNat)) (s.readReg rc)) ∧
        t.haltCode = 5) ∧
    ((∀ k, 1 ≤ k → k < s.tape.length →
        ¬ IsOpenLabel s a b (s.readReg rc) ((s.pc + s.tape.length - k) % s.tape.length)) →
      CompletesInEachForm (.jup a b rc) (.jupT a b rc) (.jupF a b rc) s fun t =>
        t = haltedFor s (.labelNotFound s.pc (BitVec.ofNat 12 (64 * a.toNat + b.toNat)) (s.readReg rc)) ∧
        t.haltCode = 5)

/-- IO with SERIAL_INCOMING (device 0 by default): x[rd] <- the buffer length modulo 64. From 45_control_and_io.md
section 3, 92_eei_decisions.md D24. IO (and .T, .F) with the index of SERIAL_INCOMING: when the serial buffer holds
input, x[rd] becomes its length modulo 64 and the buffer stays; when it is empty and the input provider's next line
that is not empty is l, the buffer becomes l, the lines up to it are used up, and x[rd] becomes the length of l
modulo 64. cf, every other register, every memory cell and everything else stay, and pc advances. The clause that
passes over empty lines is decision D24(d) and rests on log entry 11. -/
def Obligations.SerialIncomingReportsTheBufferLength : Prop :=
  ∀ (rd d rs : Word) (s : State) (v : Word) (vs : List Word), s.params.codes.deviceOf d = some .serialIncoming →
    EncodedAs 20 rd 0 rs (.io rd 0 rs) (.ioT rd 0 rs) (.ioF rd 0 rs) ∧ Codes.default.deviceOf 0 = some .serialIncoming ∧
    (s.serialIn = v :: vs →
      CompletesInEachForm (.io rd d rs) (.ioT rd d rs) (.ioF rd d rs) s fun t =>
        RegistersBut s t rd (mask6 (vs.length + 1)) ∧ PcAdvanced s t ∧ MemorySame s t ∧
        t = { s with regs := t.regs, pc := t.pc }) ∧
    ∀ (n : Nat) (more : List (List Word)), s.serialIn = [] →
      s.inputLines = List.replicate n [] ++ (v :: vs) :: more →
      CompletesInEachForm (.io rd d rs) (.ioT rd d rs) (.ioF rd d rs) s fun t =>
        RegistersBut s t rd (mask6 (vs.length + 1)) ∧ PcAdvanced s t ∧ MemorySame s t ∧
        t = { s with regs := t.regs, pc := t.pc, serialIn := v :: vs, inputLines := more }

/-- IO with SERIAL_READ (device 1 by default): x[rd] <- the front of the buffer, popped. From 45_control_and_io.md
section 3, 92_eei_decisions.md D24. IO (and .T, .F) with the index of SERIAL_READ: when the front of the serial
buffer is v, x[rd] becomes v and v is popped; when the buffer is empty and the input provider's next line that is
not empty is v followed by vs, the lines up to it are used up, x[rd] becomes v and the buffer becomes vs. cf, every
other register, every memory cell and everything else stay, and pc advances. The clause that passes over empty lines
is decision D24(d) and rests on log entry 11. -/
def Obligations.SerialReadPopsTheFrontOfTheBuffer : Prop :=
  ∀ (rd d rs : Word) (s : State) (v : Word) (vs : List Word), s.params.codes.deviceOf d = some .serialRead →
    EncodedAs 20 rd 1 rs (.io rd 1 rs) (.ioT rd 1 rs) (.ioF rd 1 rs) ∧ Codes.default.deviceOf 1 = some .serialRead ∧
    (s.serialIn = v :: vs →
      CompletesInEachForm (.io rd d rs) (.ioT rd d rs) (.ioF rd d rs) s fun t =>
        RegistersBut s t rd v ∧ PcAdvanced s t ∧ MemorySame s t ∧
        t = { s with regs := t.regs, pc := t.pc, serialIn := vs }) ∧
    ∀ (n : Nat) (more : List (List Word)), s.serialIn = [] →
      s.inputLines = List.replicate n [] ++ (v :: vs) :: more →
      CompletesInEachForm (.io rd d rs) (.ioT rd d rs) (.ioF rd d rs) s fun t =>
        RegistersBut s t rd v ∧ PcAdvanced s t ∧ MemorySame s t ∧
        t = { s with regs := t.regs, pc := t.pc, serialIn := vs, inputLines := more }

/-- A serial read with no input is stuck, or ends in HOST_ABORT. From 45_control_and_io.md section 3, 60_exceptions.md
section 1, 92_eei_decisions.md D24. IO (and .T, .F, gated in) with the index of SERIAL_INCOMING or SERIAL_READ, when
the serial buffer is empty and the input provider has no line that is not empty: if the host aborts in this cycle
the machine halts with HOST_ABORT, recording pc, with nothing else changed but that an attached renderer is torn
down; otherwise the step has no successor and exec answers the fault serialInputBlocked. That lines which are all
empty leave the read blocked is decision D24(d) and rests on log entry 11; that in a cycle beyond the schedule the
host does not abort is the model's choice (log entry 3). -/
def Obligations.BlockedSerialReadWaitsForInputOrAbort : Prop :=
  ∀ (rd rs d : Word) (s : State) (i : Instr),
    s.params.codes.deviceOf d = some .serialIncoming ∨ s.params.codes.deviceOf d = some .serialRead →
    (i = .io rd d rs ∨ (i = .ioT rd d rs ∧ s.cf = true) ∨ (i = .ioF rd d rs ∧ s.cf = false)) →
    s.serialIn = [] → (∀ l ∈ s.inputLines, l = []) →
    (∀ e rest, s.schedule = e :: rest →
      (e.abort = true → exec i s = .next (haltedFor s (.hostAbort s.pc))) ∧
      (e.abort = false → exec i s = .fault .serialInputBlocked)) ∧
    (s.schedule = [] → exec i s = .fault .serialInputBlocked)

/-- IO with SERIAL_WRITE (device 2 by default): x[rs] is appended to the output sink. Rules R200. -/
def Obligations.SerialWriteAppendsToTheSink : Prop :=
  (∀ (rd d rs : Word) (s : State), s.params.codes.deviceOf d = some .serialWrite →
    EncodedAs 20 rd 2 rs (.io rd 2 rs) (.ioT rd 2 rs) (.ioF rd 2 rs) ∧ Codes.default.deviceOf 2 = some .serialWrite ∧
    CompletesInEachForm (.io rd d rs) (.ioT rd d rs) (.ioF rd d rs) s fun t =>
      t = { s with output := s.output ++ [s.readReg rs], pc := (s.pc + 1) % s.tape.length } ∧
      (∀ j, t.readReg j = s.readReg j) ∧ MemorySame s t) ∧
  charOfSerial 10 = 'A'

/-- IO with CLOCK_LO_CS and CLOCK_HI_CS (devices 3 and 4 by default), reading. From 45_control_and_io.md section 3. -/
def Obligations.ClockDevicesReadSixBitsOfTheClock : Prop :=
  ∀ (rd lo hi rs : Word) (s : State), s.params.codes.deviceOf lo = some .clockLoCs →
    s.params.codes.deviceOf hi = some .clockHiCs →
    EncodedAs 20 rd 3 rs (.io rd 3 rs) (.ioT rd 3 rs) (.ioF rd 3 rs) ∧ Codes.default.deviceOf 3 = some .clockLoCs ∧
    EncodedAs 20 rd 4 rs (.io rd 4 rs) (.ioT rd 4 rs) (.ioF rd 4 rs) ∧ Codes.default.deviceOf 4 = some .clockHiCs ∧
    ((s.params.clockResetTest = .field → rs = 0) → (s.params.clockResetTest = .value → s.readReg rs = 0) →
      (CompletesInEachForm (.io rd lo rs) (.ioT rd lo rs) (.ioF rd lo rs) s fun t =>
        WritesOnlyRegister s t rd (mask6 (s.clock.toNat % 64))) ∧
      CompletesInEachForm (.io rd hi rs) (.ioT rd hi rs) (.ioF rd hi rs) s fun t =>
        WritesOnlyRegister s t rd (mask6 (s.clock.toNat / 64)))

/-- IO with CLOCK_LO_CS or CLOCK_HI_CS, resetting; the quit point is log entry 7. From 45_control_and_io.md section 3,
92_eei_decisions.md D22, 92_eei_decisions.md D27. IO (and .T, .F) with the index of CLOCK_LO_CS or CLOCK_HI_CS, when
the clock devices' test says it is a reset (the field rs is not 0, or under CLOCK_RESET_TEST = value x[rs] is not
0): the baseline becomes the wall time now and the clock 0, and no register is written. If the renderer, polled
here, does not ask to quit, pc advances and nothing else changes; if it does, the quit is pending and pc advances,
or, on a machine whose clockResetQuit is insideStep, the machine halts with RENDERER_QUIT and pc stays. Which of the
two the hardware does the spec leaves in conflict: the default is the model's choice (log entry 7). -/
def Obligations.ClockResetRestartsTheClockAndPolls : Prop :=
  ∀ (rd rs d : Word) (s : State) (e : CycleInput) (rest : List CycleInput),
    s.params.codes.deviceOf d = some .clockLoCs ∨ s.params.codes.deviceOf d = some .clockHiCs →
    s.schedule = e :: rest →
    (s.params.clockResetTest = .field → rs ≠ 0) → (s.params.clockResetTest = .value → s.readReg rs ≠ 0) →
    CompletesInEachForm (.io rd d rs) (.ioT rd d rs) (.ioF rd d rs) s fun t =>
      t =
        (if s.params.hasRenderer = true ∧ s.params.gpuTickPolicy ≠ .everyCycle ∧ e.resetQuit = true then
          (if s.params.clockResetQuit = .insideStep then
            haltedFor { s with clock := 0, clockBaseline := e.resetWall } (.rendererQuit s.pc)
           else
            { s with clock := 0, clockBaseline := e.resetWall, quitPending := true, pc := (s.pc + 1) % s.tape.length })
         else { s with clock := 0, clockBaseline := e.resetWall, pc := (s.pc + 1) % s.tape.length }) ∧
      (∀ j, t.readReg j = s.readReg j) ∧ MemorySame s t

/-- IO with MEM_ADDR_LO, MID, HI (devices 5, 6, 7 by default): one third of the cursor is written. Rules R48, R203. -/
def Obligations.CursorFragmentsAreWrittenApart : Prop :=
  ∀ (rd lo mid hi rs : Word) (s : State), s.params.codes.deviceOf lo = some .memAddrLo →
    s.params.codes.deviceOf mid = some .memAddrMid →
    s.params.codes.deviceOf hi = some .memAddrHi →
    s.params.hasMem = true →
    (CompletesInEachForm (.io rd lo rs) (.ioT rd lo rs) (.ioF rd lo rs) s fun t =>
      t = { s with cursor := BitVec.ofNat 18 (s.cursor.toNat / 64 * 64 + (s.readReg rs).toNat), pc := t.pc } ∧
      PcAdvanced s t ∧ (∀ j, t.readReg j = s.readReg j) ∧ MemorySame s t) ∧
    (CompletesInEachForm (.io rd mid rs) (.ioT rd mid rs) (.ioF rd mid rs) s fun t =>
      t = { s with
        cursor := BitVec.ofNat 18
          (s.cursor.toNat / 4096 * 4096 + (s.readReg rs).toNat * 64 + s.cursor.toNat % 64)
        pc := t.pc } ∧
      PcAdvanced s t ∧ (∀ j, t.readReg j = s.readReg j) ∧ MemorySame s t) ∧
    (CompletesInEachForm (.io rd hi rs) (.ioT rd hi rs) (.ioF rd hi rs) s fun t =>
      t = { s with
        cursor := BitVec.ofNat 18 ((s.readReg rs).toNat * 4096 + s.cursor.toNat % 4096), pc := t.pc } ∧
      PcAdvanced s t ∧ (∀ j, t.readReg j = s.readReg j) ∧ MemorySame s t) ∧
    Codes.default.deviceOf 5 = some .memAddrLo ∧ Codes.default.deviceOf 6 = some .memAddrMid ∧
    Codes.default.deviceOf 7 = some .memAddrHi

/-- IO with MEM_READ and MEM_WRITE (devices 8, 9 by default): the cell at the cursor, and MEM_RANGE beyond the window.
Rules R49, R204. On a machine with a memory window of at most 2^18 cells in canonical form: IO (and .T, .F) with the
index of MEM_READ at a cursor inside the window writes x[rd] with the cell at the cursor, leaves every cell, and
moves the cursor on by one modulo MEM_SIZE; with that of MEM_WRITE it stores x[rs] in the cell at the cursor, leaves
every other cell and every register, and moves the cursor likewise; nothing else changes and pc advances. At a
cursor of MEM_SIZE or more both halt the machine with MEM_RANGE (code 10), recording pc and the cursor, with nothing
else changed but that an attached renderer is torn down. The halt is the spec's own decision D25. -/
def Obligations.MemoryPortsAccessTheCursorAndAdvanceIt : Prop :=
  ∀ (rd rport wport rs : Word) (s : State), s.params.codes.deviceOf rport = some .memRead →
    s.params.codes.deviceOf wport = some .memWrite →
    s.params.hasMem = true → Params.wf s.params = true →
    Memory.wf s.params.memSize s.mem = true →
    (s.cursor.toNat < s.params.memSize →
      (CompletesInEachForm (.io rd rport rs) (.ioT rd rport rs) (.ioF rd rport rs) s fun t =>
        RegistersBut s t rd (s.readMem s.cursor.toNat) ∧ PcAdvanced s t ∧ MemorySame s t ∧
        t.cursor.toNat = (s.cursor.toNat + 1) % s.params.memSize ∧
        t = { s with regs := t.regs, pc := t.pc, cursor := t.cursor }) ∧
      CompletesInEachForm (.io rd wport rs) (.ioT rd wport rs) (.ioF rd wport rs) s fun t =>
        (∀ a, t.readMem a = if a = s.cursor.toNat then s.readReg rs else s.readMem a) ∧ PcAdvanced s t ∧
        (∀ j, t.readReg j = s.readReg j) ∧ t.cursor.toNat = (s.cursor.toNat + 1) % s.params.memSize ∧
        t = { s with mem := t.mem, pc := t.pc, cursor := t.cursor }) ∧
    (s.params.memSize ≤ s.cursor.toNat →
      (CompletesInEachForm (.io rd rport rs) (.ioT rd rport rs) (.ioF rd rport rs) s fun t =>
        t = haltedFor s (.memRange s.pc s.cursor) ∧ t.haltCode = 10) ∧
      CompletesInEachForm (.io rd wport rs) (.ioT rd wport rs) (.ioF rd wport rs) s fun t =>
        t = haltedFor s (.memRange s.pc s.cursor) ∧ t.haltCode = 10) ∧
    Codes.default.deviceOf 8 = some .memRead ∧ Codes.default.deviceOf 9 = some .memWrite

/-- IO with GPU_X, GPU_Y and GPU_DRAW (devices 10, 11, 12 by default). Rules R205, R206. -/
def Obligations.GpuDevicesMoveTheDrawCursorAndPlot : Prop :=
  ∀ (rd x y draw rs : Word) (s : State), s.params.codes.deviceOf x = some .gpuX →
    s.params.codes.deviceOf y = some .gpuY →
    s.params.codes.deviceOf draw = some .gpuDraw →
    s.params.hasRenderer = true →
    (CompletesInEachForm (.io rd x rs) (.ioT rd x rs) (.ioF rd x rs) s fun t =>
      t = { s with gpuX := s.readReg rs, pc := (s.pc + 1) % s.tape.length } ∧
      (∀ j, t.readReg j = s.readReg j) ∧ MemorySame s t) ∧
    (CompletesInEachForm (.io rd y rs) (.ioT rd y rs) (.ioF rd y rs) s fun t =>
      t = { s with gpuY := s.readReg rs, pc := (s.pc + 1) % s.tape.length } ∧
      (∀ j, t.readReg j = s.readReg j) ∧ MemorySame s t) ∧
    (CompletesInEachForm (.io rd draw rs) (.ioT rd draw rs) (.ioF rd draw rs) s fun t =>
      ∃ p : Plot,
        t = { s with plots := s.plots ++ [p], pc := (s.pc + 1) % s.tape.length } ∧
        p.x = s.gpuX ∧ p.y = s.gpuY ∧
        [0x00, 0x55, 0xAA, 0xFF][(s.readReg rs).toNat / 16]? = some p.red.toNat ∧
        [0x00, 0x55, 0xAA, 0xFF][(s.readReg rs).toNat / 4 % 4]? = some p.green.toNat ∧
        [0x00, 0x55, 0xAA, 0xFF][(s.readReg rs).toNat % 4]? = some p.blue.toNat ∧
        (∀ j, t.readReg j = s.readReg j) ∧ MemorySame s t) ∧
    Codes.default.deviceOf 10 = some .gpuX ∧ Codes.default.deviceOf 11 = some .gpuY ∧
    Codes.default.deviceOf 12 = some .gpuDraw

/-- IO with an undefined device index halts with UNKNOWN_IO. Rules R207, R225. -/
def Obligations.UndefinedDeviceHalts : Prop :=
  (∀ (rd d rs : Word) (s : State),
    (s.params.codes.deviceOf d = none ∨
      (s.params.hasMem = false ∧ ∃ x ∈ [Device.memAddrLo, .memAddrMid, .memAddrHi, .memRead, .memWrite],
        s.params.codes.deviceOf d = some x) ∨
      (s.params.hasRenderer = false ∧ ∃ x ∈ [Device.gpuX, .gpuY, .gpuDraw], s.params.codes.deviceOf d = some x)) →
    CompletesInEachForm (.io rd d rs) (.ioT rd d rs) (.ioF rd d rs) s fun t =>
      t = haltedFor s (.unknownIo s.pc d) ∧ t.haltCode = 4) ∧
  (∀ d : Word, Codes.default.deviceOf d = none ↔ 13 ≤ d.toNat) ∧
  [5, 6, 7, 8, 9].map Codes.default.deviceOf =
    [some .memAddrLo, some .memAddrMid, some .memAddrHi, some .memRead, some .memWrite] ∧
  [10, 11, 12].map Codes.default.deviceOf = [some .gpuX, some .gpuY, some .gpuDraw]

/-- A gated-out instruction only advances pc; the gate is cf, or not cf, or true. Rules R85. -/
def Obligations.GatedOutOnlyAdvancesPc : Prop :=
  (∀ cf, gate .always cf = true ∧ gate .ifTrue cf = cf ∧ gate .ifFalse cf = !cf) ∧
  ∀ (i : Instr) (s : State),
    (i.cond = some .ifTrue ∧ s.cf = false) ∨ (i.cond = some .ifFalse ∧ s.cf = true) →
    exec i s = .next { s with pc := (s.pc + 1) % s.tape.length }

/-- No instruction but CMP changes cf, and the end of the cycle does not either. From 10_state.md section 2,
42_comparator.md. -/
def Obligations.OnlyCmpWritesTheFlag : Prop :=
  (∀ (i : Instr) (s t : State), i.op ≠ some .cmp → exec i s = .next t → t.cf = s.cf) ∧
  ∀ (s t : State) (w : InsnWord), s.tape[s.pc]? = some w →
    (s.params.codes.decode w).op ≠ some .cmp → step s = .next t → t.cf = s.cf

/-- At most one register changes in a step: the one that R23 names. From 10_state.md section 1. -/
def Obligations.OnlyTheDestinationRegisterChanges : Prop :=
  (∀ (i : Instr) (s t : State) (j : Word), exec i s = .next t → destination s i ≠ some j →
    t.readReg j = s.readReg j) ∧
  ∀ (s : State) (j : Word), s.endCycle.readReg j = s.readReg j

/-- No instruction and no step writes the tape or the parameters. From 20_memory.md section 1, 20_memory.md section 5.
For every instruction, when exec answers a next state its tape and its parameters are those of the state before, and
so for every step. That the parameters stay is the model's own clause (log entry 8). -/
def Obligations.TapeAndParametersAreNeverWritten : Prop :=
  (∀ (i : Instr) (s t : State), exec i s = .next t → t.tape = s.tape ∧ t.params = s.params) ∧
  ∀ s t : State, step s = .next t → t.tape = s.tape ∧ t.params = s.params

/-- A halt that an instruction raises changes nothing but the halt itself. From 60_exceptions.md section 2. -/
def Obligations.HaltsArePrecise : Prop :=
  ∀ (i : Instr) (s t : State) (h : Halt), s.halt = none → exec i s = .next t → t.halt = some h →
    (∀ p, h ≠ .rendererQuit p) →
    t = haltedFor s h ∧
    (h = .hlt s.pc ∨ h = .invalid s.pc s.currentWord ∨ h = .badSubfield s.pc s.currentWord ∨
      (∃ d, h = .unknownIo s.pc d) ∨ (∃ k v, h = .labelNotFound s.pc k v) ∨ h = .hostAbort s.pc ∨
      h = .memRange s.pc s.cursor)

/-- The ALU, SHL, SHR, LD, ST and LBL raise no exception in any state. From 40_alu.md, 41_shifter.md section 2,
44_register_indirect.md, 45_control_and_io.md section 1. -/
def Obligations.ComputingInstructionsNeverStop : Prop :=
  ∀ (i : Instr) (s : State) (op : Op), i.op = some op → Op.neverStops op = true →
    ∃ t, exec i s = .next t ∧ t.halt = s.halt ∧ t.cf = s.cf ∧ PcAdvanced s t ∧
      t = { s with regs := t.regs, pc := t.pc }

/-- The only stop of an instruction is a serial read with no input, and no instruction is refused. From
45_control_and_io.md section 3, 92_eei_decisions.md D24. When exec answers a fault, the instruction is an IO with
device SERIAL_INCOMING or SERIAL_READ, the serial buffer is empty, the input provider has no line that is not empty,
and the fault is serialInputBlocked; exec never refuses an instruction. When a line that is not empty is added to
those the provider has, exec answers a next state, whatever the instruction. A running machine whose pc is on its
tape has a successor whenever the serial buffer holds input or the provider has a line that is not empty. That the
serial read is the only suspension point is R196; that empty lines are passed over is decision D24(d) and rests on
log entry 11 (DEDUCED); that no instruction is refused is the model's own, for the spec gives every instruction an
effect. -/
def Obligations.OnlySerialReadsSuspend : Prop :=
  (∀ (i : Instr) (s : State) (f : Fault), exec i s = .fault f →
    f = .serialInputBlocked ∧ s.serialIn = [] ∧ (∀ l ∈ s.inputLines, l = []) ∧
    ∃ rd d rs,
      (s.params.codes.deviceOf d = some .serialIncoming ∨ s.params.codes.deviceOf d = some .serialRead) ∧
      (i = .io rd d rs ∨ i = .ioT rd d rs ∨ i = .ioF rd d rs)) ∧
  (∀ (i : Instr) (s : State) (r : Refusal), exec i s ≠ .refused r) ∧
  (∀ (i : Instr) (s : State) (l : List Word), l ≠ [] →
    ∃ t, exec i { s with inputLines := s.inputLines ++ [l] } = .next t) ∧
  ∀ s : State, s.halt = none → s.pc < s.tape.length → (s.serialIn ≠ [] ∨ ∃ l ∈ s.inputLines, l ≠ []) →
    ∃ t, step s = .next t

/-- r0 reads 0 at reset, after every write to it, and after every instruction. Rules R24, R251. -/
def Obligations.RegisterZeroReadsZero : Prop :=
  (∀ (s : State) (v : Word), (s.writeReg 0 v).readReg 0 = 0 ∧ s.writeReg 0 v = s) ∧
  (∀ l : Launch, (State.launch l).readReg 0 = 0) ∧
  ∀ (i : Instr) (s t : State), exec i s = .next t → t.readReg 0 = 0

/-- The memory window: a write is read back, leaves every other cell alone and keeps the canonical form, which is
unique. From 20_memory.md section 3, 20_memory.md section 5. -/
def Obligations.MemoryWindowReadsTheLastWrite : Prop :=
  (∀ (size : Nat) (m : Mem) (a : Nat) (v : Word), Memory.wf size m = true → a < size →
    (∀ b, memGet (memPut m a v) b = if b = a then v else memGet m b) ∧ Memory.wf size (memPut m a v) = true) ∧
  ∀ (size : Nat) (m n : Mem), Memory.wf size m = true → Memory.wf size n = true →
    (∀ a, memGet m a = memGet n a) → m = n

/-- The instructions' meanings are the run loop of R208 over the block transaction of R35. From 10_state.md section 4,
45_control_and_io.md section 4. -/
def Obligations.MeaningsAreTheRunLoopOverTheBlock : Prop :=
  ∀ (w : InsnWord) (s : State), exec (s.params.codes.decode w) s = s.runLoop w

/-- A run goes on the same from a snapshot, whatever has been output and drawn. From 10_state.md section 4,
92_eei_decisions.md D34. Let two machines have equal snapshots, the same parameters, outside inputs and cycle
counter, and a quit pending in both or in neither. Whatever their output sinks, draw cursors and submitted pixels
are, a step answers a next state from both or stops both alike, and the next states have equal snapshots and agree
in those again. And restoring a snapshot gives a machine with that snapshot, and leaves the output sink, the draw
cursor and the submitted pixels, the parameters, the outside inputs, the cycle counter and a pending quit as they
were. The output, the renderer and the input provider are external and not copied (R37, D34); that a restore leaves
a pending quit as it is, is the model's choice (log entry 18, DESIGN CHOICE), and the parameters and the cycle
counter are the model's own data (log entries 8 and 3). -/
def Obligations.OutputAndScreenNeverFlowBack : Prop :=
  (∀ s t : State, s.snapshot = t.snapshot → SameOutside s t →
    (∀ s', step s = .next s' → ∃ t', step t = .next t' ∧ s'.snapshot = t'.snapshot ∧ SameOutside s' t') ∧
    (∀ f, step s = .fault f → step t = .fault f)) ∧
  ∀ (s : State) (c : Snapshot), (s.restore c).snapshot = c ∧ SameOutside s (s.restore c) ∧
    (s.restore c).output = s.output ∧ (s.restore c).plots = s.plots ∧ (s.restore c).gpuX = s.gpuX ∧
    (s.restore c).gpuY = s.gpuY

/-- ROM load: ROM_LENGTH, ROM_EMPTY, or the tape of its words. From 60_exceptions.md section 1, 70_reset_and_hazards.md
section 2. A ROM text that decodes to bytes whose count is not a multiple of 3 is refused with ROM_LENGTH (code 8),
recording the count; one of no bytes is refused with ROM_EMPTY (code 9); of any other the machine is launched with a
tape of one word per three bytes, in order, most significant byte first. That is R227, with the codes of R221 and
the tape of R256. That the text is standard base64, and that a text which is not base64 is refused, is the model's
own (log entry 10). -/
def Obligations.RomLengthIsCheckedAtLoad : Prop :=
  (∀ (l : Launch) (text : List Char) (bytes : List Byte), base64Decode text = some bytes →
    (bytes.length % 3 ≠ 0 → boot l text = .refused (.romLength bytes.length)) ∧
    (bytes = [] → boot l text = .refused .romEmpty) ∧
    (bytes.length % 3 = 0 → bytes ≠ [] →
      ∃ tape : List InsnWord, boot l text = .running (State.launch { l with tape := tape }) ∧
        3 * tape.length = bytes.length ∧
        ∀ k, k < tape.length → ∃ b0 b1 b2 : Byte, ∃ w : InsnWord, bytes[3 * k]? = some b0 ∧
          bytes[3 * k + 1]? = some b1 ∧ bytes[3 * k + 2]? = some b2 ∧ tape[k]? = some w ∧
          w.toNat = b0.toNat * 65536 + b1.toNat * 256 + b2.toNat)) ∧
  (∀ (l : Launch) (text : List Char), base64Decode text = none → boot l text = .notBase64) ∧
  (∀ n, Halt.code (.romLength n) = 8) ∧ Halt.code .romEmpty = 9

/-- Saving a tape and loading the text gives the tape back; a tape with INVALID is not saved. From
70_reset_and_hazards.md section 2. Under any codes that number every name once: every tape that is not empty and has
no INVALID entry can be saved, and booting the saved text launches the machine with that same tape, whose words are
the encodings of its instructions. A tape with an INVALID entry is refused by the saving side: R257, 'An INVALID
tape entry has no encoding, and the saving side of a model refuses such a tape', which the spec marks as derived
from 30_encoding.md R67. The text form, standard base64, is log entry 10. -/
def Obligations.RomSaveIsTheInverseOfLoad : Prop :=
  ∀ k : Codes, k.wf = true →
    (∀ (l : Launch) (tape : List InsnWord), tape ≠ [] → (∀ w ∈ tape, k.decode w ≠ .invalid) →
      (∀ w ∈ tape, k.encode (k.decode w) = some w) ∧
      ∃ text, saveRom k tape = some text ∧
        base64Decode text = some (tape.flatMap bytesOfWord) ∧
        boot l text = .running (State.launch { l with tape := tape })) ∧
    ∀ tape : List InsnWord, (∃ w ∈ tape, k.decode w = .invalid) → saveRom k tape = none

/-- The serial alphabet: 63 printable symbols, each with its index, and 63 for everything else. From
45_control_and_io.md section 3. -/
def Obligations.SerialAlphabetIsSixtyFourSymbols : Prop :=
  (List.range 63).map (fun n => charOfSerial (mask6 n)) =
    ['0', '1', '2', '3', '4', '5', '6', '7', '8', '9'] ++
    ['A', 'B', 'C', 'D', 'E', 'F', 'G', 'H', 'I', 'J', 'K', 'L', 'M'] ++
    ['N', 'O', 'P', 'Q', 'R', 'S', 'T', 'U', 'V', 'W', 'X', 'Y', 'Z'] ++
    [' ', '+', '-', '*', '/', '<', '=', '>', '(', ')', '[', ']', Char.ofNat 123, Char.ofNat 125] ++
    ['#', '$', '_', '?', '|', '^', '&', '!', '~', ',', '.', ':', Char.ofNat 10] ∧
  serialAlphabet = (List.range 63).map (fun n => charOfSerial (mask6 n)) ∧
  (∀ v : Word, v ≠ 63 → serialOfChar (charOfSerial v) = v) ∧
  (∀ c : Char, c ∉ serialAlphabet → serialOfChar c = 63) ∧
  (∀ c : Char, c.isLower = true → c ∉ serialAlphabet) ∧
  ∀ text : List Char, lineOfText text = text.map serialOfChar

/-- Whatever line it accepts, the assembler produces a well-formed instruction. From 30_encoding.md section 6. -/
def Obligations.AssemblerNeverEmitsASubFieldError : Prop :=
  ∀ (k : Codes) (line : List Char) (i : Instr), k.wf = true → assemble k line = some i →
    i.wellFormed = true ∧ ∃ w, k.encode i = some w ∧ fieldF w ≠ 0#6 ∧ k.decode w = i

/-- Only an instruction that is not well-formed halts with BAD_SUBFIELD or INVALID. From 30_encoding.md section 3,
60_exceptions.md section 1. -/
def Obligations.WellFormedNeverHaltsBadSubfield : Prop :=
  (∀ (i : Instr) (s t : State) (p : Nat) (w : InsnWord), s.halt = none → i.wellFormed = true → exec i s = .next t →
    t.halt ≠ some (.badSubfield p w) ∧ t.halt ≠ some (.invalid p w)) ∧
  ∀ (i : Instr) (s : State), i.wellFormed = false → (∀ c, i.cond = some c → gate c s.cf = true) →
    ∃ t, exec i s = .next t ∧
      (t.halt = some (.badSubfield s.pc s.currentWord) ∨ t.halt = some (.invalid s.pc s.currentWord))

/-- The request outputs: at most one request, its fields, and jump_dir 0 for JUP and 1 for JDN. Rules R32. -/
def Obligations.RequestPortsShowTheOneRequest : Prop :=
  ∀ (s : State) (w : InsnWord),
    (s.requestPorts w).cf = s.cf ∧
    (s.requestPorts w).halt.isSome.toNat + (s.requestPorts w).jump.isSome.toNat +
      (s.requestPorts w).io.isSome.toNat ≤ 1 ∧
    (s.params.codes.decode w = .invalid →
      s.requestPorts w = { halt := some 2, jump := none, io := none, cf := s.cf }) ∧
    ∀ f : Fields, (s.params.codes.decode w).fields = some f →
      (gate f.cond s.cf = false → s.requestPorts w = { halt := none, jump := none, io := none, cf := s.cf }) ∧
      (gate f.cond s.cf = true → (s.params.codes.decode w).wellFormed = false →
        s.requestPorts w = { halt := some 3, jump := none, io := none, cf := s.cf }) ∧
      (gate f.cond s.cf = true → (s.params.codes.decode w).wellFormed = true →
        (f.op = .hlt → s.requestPorts w = { halt := some 1, jump := none, io := none, cf := s.cf }) ∧
        (f.op = .jup → s.requestPorts w =
          { halt := none, io := none, cf := s.cf
            jump := some { dir := 0, key := BitVec.ofNat 12 (64 * f.a.toNat + f.b.toNat), val := s.readReg f.c } }) ∧
        (f.op = .jdn → s.requestPorts w =
          { halt := none, io := none, cf := s.cf
            jump := some { dir := 1, key := BitVec.ofNat 12 (64 * f.a.toNat + f.b.toNat), val := s.readReg f.c } }) ∧
        (f.op = .io → s.requestPorts w =
          { halt := none, jump := none, cf := s.cf
            io := some { dev := f.b, rd := f.a, rs := f.c, wdata := s.readReg f.c } }) ∧
        (f.op ≠ .hlt → f.op ≠ .jup → f.op ≠ .jdn → f.op ≠ .io →
          s.requestPorts w = { halt := none, jump := none, io := none, cf := s.cf }))

/-- The assembler takes every form of R91 and R93 with its operands in range, as the fields of R70, and refuses it
otherwise. From 30_encoding.md section 6, 30_encoding.md section 3. For every op and every cond suffix, and whatever
numbers stand in the line: the form that R91 gives the op is taken exactly when every register number, immediate,
label part and device number is below 64, a SHI distance below 8 and an FM frac below 16, and then as the
instruction with the operand fields of R70 and R72 to R76; otherwise it is refused, never truncated (R95). The same
for the six pseudo-instructions of R93, which are their expansions. And a shift type, comparator, FM mode, device
name or CMP operand form that is none of the spec's is refused. The spaces between operands, the zeros in HLT's
ignored fields and the pseudo-instructions without a suffix are the model's choice (log entry 14). -/
def Obligations.AssemblerTakesEachFormInRange : Prop :=
  ∀ (k : Codes) (c : Cond) (n m p : Nat),
    (∀ e ∈ [("ADD", Op.add), ("SUB", .sub), ("OR", .or), ("XOR", .xor), ("AND", .and), ("SHL", .shl), ("SHR", .shr)],
      Assembles k (asmLine e.1 c [asmReg n, asmReg m, asmReg p]) (n < 64 ∧ m < 64 ∧ p < 64) e.2 c n m p) ∧
    (∀ e ∈ [("ADDI", Op.addi), ("ORI", .ori), ("XORI", .xori), ("ANDI", .andi)],
      Assembles k (asmLine e.1 c [asmReg n, asmReg m, asmNum p]) (n < 64 ∧ m < 64 ∧ p < 64) e.2 c n m p) ∧
    (∀ e ∈ [("LSL", 0), ("LSR", 1), ("ASR", 2), ("ROL", 3)],
      Assembles k (asmLine "SHI" c [asmReg n, asmReg m, e.1.toList, asmNum p]) (n < 64 ∧ m < 64 ∧ p < 8) .shi c n m
        (e.2 * 8 + p)) ∧
    (∀ e ∈ [("TR", 0), ("FA", 1), ("EQ", 2), ("NE", 3), ("SLT", 4), ("SGT", 5), ("ULT", 6), ("UGT", 7)],
      ∀ aImm bImm : Bool,
        Assembles k (asmLine "CMP" c [e.1.toList, asmCmp aImm n, asmCmp bImm m]) (n < 64 ∧ m < 64) .cmp c
          ((aImm.toNat * 2 + bImm.toNat) * 8 + e.2) n m) ∧
    (∀ e ∈ [("U", 0), ("S", 1)],
      Assembles k (asmLine "FM" c [asmReg n, asmReg m, e.1.toList, asmNum p]) (n < 64 ∧ m < 64 ∧ p < 16) .fm c n m
        (e.2 * 16 + p)) ∧
    Assembles k (asmLine "LD" c [asmReg n, asmIndexed m p]) (n < 64 ∧ m < 64 ∧ p < 64) .ld c n m p ∧
    Assembles k (asmLine "ST" c [asmIndexed m p, asmReg n]) (n < 64 ∧ m < 64 ∧ p < 64) .st c n m p ∧
    Assembles k (asmLine "LBL" c [asmNum n, asmNum m, asmNum p]) (n < 64 ∧ m < 64 ∧ p < 64) .lbl c n m p ∧
    (∀ e ∈ [("JUP", Op.jup), ("JDN", .jdn)],
      Assembles k (asmLine e.1 c [asmNum n, asmNum m, asmReg p]) (n < 64 ∧ m < 64 ∧ p < 64) e.2 c n m p) ∧
    Assembles k (asmLine "IO" c [asmReg n, asmNum m, asmReg p]) (n < 64 ∧ m < 64 ∧ p < 64) .io c n m p ∧
    (∀ e ∈ [("SERIAL_INCOMING", Device.serialIncoming), ("SERIAL_READ", .serialRead), ("SERIAL_WRITE", .serialWrite),
        ("CLOCK_LO_CS", .clockLoCs), ("CLOCK_HI_CS", .clockHiCs), ("MEM_ADDR_LO", .memAddrLo),
        ("MEM_ADDR_MID", .memAddrMid), ("MEM_ADDR_HI", .memAddrHi), ("MEM_READ", .memRead), ("MEM_WRITE", .memWrite),
        ("GPU_X", .gpuX), ("GPU_Y", .gpuY), ("GPU_DRAW", .gpuDraw)],
      ∀ d, k.indexOf e.2 = some d →
        Assembles k (asmLine "IO" c [asmReg n, e.1.toList, asmReg p]) (n < 64 ∧ p < 64) .io c n d.toNat p) ∧
    Assembles k (asmLine "HLT" c []) True .hlt c 0 0 0 ∧
    Assembles k (asmLine "NOP" .always []) True .add .always 0 0 0 ∧
    Assembles k (asmLine "MOV" .always [asmReg n, asmReg m]) (n < 64 ∧ m < 64) .add .always n m 0 ∧
    Assembles k (asmLine "LI" .always [asmReg n, asmNum m]) (n < 64 ∧ m < 64) .addi .always n 0 m ∧
    Assembles k (asmLine "NEG" .always [asmReg n, asmReg m]) (n < 64 ∧ m < 64) .sub .always n 0 m ∧
    Assembles k (asmLine "NOT" .always [asmReg n, asmReg m]) (n < 64 ∧ m < 64) .xori .always n m 63 ∧
    Assembles k (asmLine "DEC" .always [asmReg n, asmReg m]) (n < 64 ∧ m < 64) .addi .always n m 63 ∧
    ∀ name : List Char, (∀ ch ∈ name, ch ≠ ',' ∧ ch ≠ ' ') →
      (name ∉ ["LSL", "LSR", "ASR", "ROL"].map String.toList →
        assemble k (asmLine "SHI" c [asmReg n, asmReg m, name, asmNum p]) = none) ∧
      (name ∉ ["TR", "FA", "EQ", "NE", "SLT", "SGT", "ULT", "UGT"].map String.toList →
        ∀ aImm bImm : Bool, assemble k (asmLine "CMP" c [name, asmCmp aImm n, asmCmp bImm m]) = none) ∧
      (name ∉ ["U", "S"].map String.toList →
        assemble k (asmLine "FM" c [asmReg n, asmReg m, name, asmNum p]) = none) ∧
      (name ∉ ["SERIAL_INCOMING", "SERIAL_READ", "SERIAL_WRITE", "CLOCK_LO_CS", "CLOCK_HI_CS", "MEM_ADDR_LO",
          "MEM_ADDR_MID", "MEM_ADDR_HI", "MEM_READ", "MEM_WRITE", "GPU_X", "GPU_Y", "GPU_DRAW"].map String.toList →
        (∃ ch ∈ name, ch.isDigit = false) →
        assemble k (asmLine "IO" c [asmReg n, name, asmReg p]) = none) ∧
      (name.head? ≠ some 'r' → name.head? ≠ some '#' → ∀ imm : Bool,
        assemble k (asmLine "CMP" c [['E', 'Q'], name, asmCmp imm m]) = none ∧
        assemble k (asmLine "CMP" c [['E', 'Q'], asmCmp imm m, name]) = none)
end

