-- ==== Sys2Proof/Laws/Encoding.lean ====
section
/-!
SUPPORT. Laws/Encoding.lean: the fields of a word put together and taken apart, the sub-fields likewise, and the numberings
and placements of any codes both ways: what every proof about decode and encode rests on.
-/

namespace Sys2Proof

/-! ## Words -/

theorem mkWord_toNat (f a b c : Word) :
    (mkWord f a b c).toNat = f.toNat * 2 ^ 18 + a.toNat * 2 ^ 12 + b.toNat * 2 ^ 6 + c.toNat := by
  have hf := f.isLt
  have ha := a.isLt
  have hb := b.isLt
  have hc := c.isLt
  simp only [mkWord, BitVec.toNat_append]
  rw [← Nat.shiftLeft_add_eq_or_of_lt (by omega), ← Nat.shiftLeft_add_eq_or_of_lt (by omega),
    ← Nat.shiftLeft_add_eq_or_of_lt (by omega)]
  simp only [Nat.shiftLeft_eq]
  omega

theorem fieldF_toNat (w : InsnWord) : (fieldF w).toNat = w.toNat / 2 ^ 18 := by
  have := w.isLt
  simp only [fieldF, BitVec.extractLsb'_toNat, Nat.shiftRight_eq_div_pow]
  omega

theorem fieldA_toNat (w : InsnWord) : (fieldA w).toNat = w.toNat / 2 ^ 12 % 64 := by
  simp [fieldA, BitVec.extractLsb'_toNat, Nat.shiftRight_eq_div_pow]

theorem fieldB_toNat (w : InsnWord) : (fieldB w).toNat = w.toNat / 2 ^ 6 % 64 := by
  simp [fieldB, BitVec.extractLsb'_toNat, Nat.shiftRight_eq_div_pow]

theorem fieldC_toNat (w : InsnWord) : (fieldC w).toNat = w.toNat % 64 := by
  simp [fieldC, BitVec.extractLsb'_toNat]

@[simp] theorem fieldF_mkWord (f a b c : Word) : fieldF (mkWord f a b c) = f := by
  apply BitVec.eq_of_toNat_eq
  rw [fieldF_toNat, mkWord_toNat]
  omega

@[simp] theorem fieldA_mkWord (f a b c : Word) : fieldA (mkWord f a b c) = a := by
  apply BitVec.eq_of_toNat_eq
  rw [fieldA_toNat, mkWord_toNat]
  omega

@[simp] theorem fieldB_mkWord (f a b c : Word) : fieldB (mkWord f a b c) = b := by
  apply BitVec.eq_of_toNat_eq
  rw [fieldB_toNat, mkWord_toNat]
  omega

@[simp] theorem fieldC_mkWord (f a b c : Word) : fieldC (mkWord f a b c) = c := by
  apply BitVec.eq_of_toNat_eq
  rw [fieldC_toNat, mkWord_toNat]
  omega

/-- A word is its four fields. -/
theorem mkWord_fields (w : InsnWord) : mkWord (fieldF w) (fieldA w) (fieldB w) (fieldC w) = w := by
  apply BitVec.eq_of_toNat_eq
  rw [mkWord_toNat, fieldF_toNat, fieldA_toNat, fieldB_toNat, fieldC_toNat]
  omega

theorem wordOfBytes_toNat (b0 b1 b2 : Byte) :
    (wordOfBytes b0 b1 b2).toNat = b0.toNat * 2 ^ 16 + b1.toNat * 2 ^ 8 + b2.toNat := by
  have h0 := b0.isLt
  have h1 := b1.isLt
  have h2 := b2.isLt
  simp only [wordOfBytes, BitVec.toNat_append]
  rw [← Nat.shiftLeft_add_eq_or_of_lt (by omega), ← Nat.shiftLeft_add_eq_or_of_lt (by omega)]
  simp only [Nat.shiftLeft_eq]
  omega

/-- The bytes of a word assemble to it again. -/
theorem decodeBytes_bytesOfWord (k : Codes) (w : InsnWord) (rest : List Byte) :
    k.decodeBytes (bytesOfWord w ++ rest) = .ok (k.decode w, rest) := by
  have h : wordOfBytes (w.extractLsb' 16 8) (w.extractLsb' 8 8) (w.extractLsb' 0 8) = w := by
    apply BitVec.eq_of_toNat_eq
    rw [wordOfBytes_toNat]
    have := w.isLt
    simp only [BitVec.extractLsb'_toNat, Nat.shiftRight_eq_div_pow]
    omega
  simp [bytesOfWord, Codes.decodeBytes, h]

/-! ## Tables -/

theorem Op.mem_table (o : Op) : o ∈ Op.table := by cases o <;> decide
theorem Cond.mem_table (c : Cond) : c ∈ Cond.table := by cases c <;> decide
theorem CmpType.mem_table (c : CmpType) : c ∈ CmpType.table := by cases c <;> decide
theorem Comparator.mem_table (c : Comparator) : c ∈ Comparator.table := by cases c <;> decide
theorem ShiftType.mem_table (c : ShiftType) : c ∈ ShiftType.table := by cases c <;> decide
theorem FmMode.mem_table (c : FmMode) : c ∈ FmMode.table := by cases c <;> decide
theorem Device.mem_table (d : Device) : d ∈ Device.table := by cases d <;> decide

section Tables

variable {α : Type} [DecidableEq α] {n : Nat} {t : Vector α n} {names : List α}

theorem codeIn_lt (h : t.toList.isPerm names = true) {x : α} (hx : x ∈ names) : codeIn t x < n := by
  have := List.idxOf_lt_length_of_mem ((List.isPerm_iff.1 h).mem_iff.2 hx)
  simpa [codeIn] using this

/-- The name with the number of x is x. -/
theorem getElem_codeIn (h : t.toList.isPerm names = true) {x : α} (hx : x ∈ names) :
    t[codeIn t x]'(codeIn_lt h hx) = x := by
  have hm : x ∈ t.toList := (List.isPerm_iff.1 h).mem_iff.2 hx
  rw [← Vector.getElem_toList]
  exact List.getElem_idxOf (List.idxOf_lt_length_of_mem hm)

/-- The number of the name at i is i. -/
theorem codeIn_getElem (h : t.toList.isPerm names = true) (hn : names.Nodup) {i : Nat} (hi : i < n) :
    codeIn t t[i] = i := by
  have hn : t.toList.Nodup := (List.isPerm_iff.1 h).nodup_iff.2 hn
  rw [codeIn, ← Vector.getElem_toList (h := by simpa using hi)]
  exact hn.idxOf_getElem i (by simpa using hi)

end Tables

/-! ## Layouts -/

theorem getLsbD_ofBits {b : Nat → Bool} {i : Nat} (h : i < 6) : (ofBits b).getLsbD i = b i := by
  unfold ofBits
  obtain rfl | rfl | rfl | rfl | rfl | rfl : i = 0 ∨ i = 1 ∨ i = 2 ∨ i = 3 ∨ i = 4 ∨ i = 5 := by omega
  all_goals
    generalize b 0 = b0, b 1 = b1, b 2 = b2, b 3 = b3, b 4 = b4, b 5 = b5
    revert b0 b1 b2 b3 b4 b5
    decide

theorem eq_of_bits {v w : Word} (h : ∀ i, i < 6 → v.getLsbD i = w.getLsbD i) : v = w := BitVec.eq_of_getLsbD_eq h

theorem gather_scatter {l : Layout} (h : l.wf = true) (v : Word) : l.gather (l.scatter v) = v := by
  refine eq_of_bits fun i hi => ?_
  have hl : i < l.toList.length := by simpa using hi
  have hn : l.toList.Nodup := (List.isPerm_iff.1 h).nodup_iff.2 (List.nodup_finRange 6)
  rw [Layout.gather, getLsbD_ofBits hi, Layout.scatter, getLsbD_ofBits (Fin.isLt _), List.getD_eq_getElem _ _ hl]
  rw [show Fin.ofNat 6 l.toList[i].val = l.toList[i] from Fin.ext (Nat.mod_eq_of_lt l.toList[i].isLt)]
  rw [hn.idxOf_getElem i hl]

theorem scatter_gather {l : Layout} (h : l.wf = true) (v : Word) : l.scatter (l.gather v) = v := by
  refine eq_of_bits fun j hj => ?_
  have hm : Fin.ofNat 6 j ∈ l.toList := (List.isPerm_iff.1 h).mem_iff.2 (List.mem_finRange _)
  have hlt := List.idxOf_lt_length_of_mem hm
  rw [Layout.scatter, getLsbD_ofBits hj, Layout.gather, getLsbD_ofBits (by simpa using hlt),
    List.getD_eq_getElem _ _ hlt, List.getElem_idxOf hlt]
  rw [show (Fin.ofNat 6 j).val = j from Nat.mod_eq_of_lt hj]

/-! ## Sub-fields -/

@[simp] theorem subZero_shiSub (z : Bool) (ty : ShiftType) (d : BitVec 3) : subZero (shiSub z ty d) = z := by
  revert z ty d; intro z ty; cases z <;> cases ty <;> decide

@[simp] theorem shiType_shiSub (z : Bool) (ty : ShiftType) (d : BitVec 3) : shiType (shiSub z ty d) = ty := by
  revert z ty d; intro z ty; cases z <;> cases ty <;> decide

@[simp] theorem shiDist_shiSub (z : Bool) (ty : ShiftType) (d : BitVec 3) : shiDist (shiSub z ty d) = d := by
  revert z ty d; intro z ty; cases z <;> cases ty <;> decide

@[simp] theorem subZero_cmpSub (z : Bool) (ty : CmpType) (cm : Comparator) : subZero (cmpSub z ty cm) = z := by
  cases z <;> cases ty <;> cases cm <;> decide

@[simp] theorem cmpType_cmpSub (z : Bool) (ty : CmpType) (cm : Comparator) : cmpType (cmpSub z ty cm) = ty := by
  cases z <;> cases ty <;> cases cm <;> decide

@[simp] theorem cmpComparator_cmpSub (z : Bool) (ty : CmpType) (cm : Comparator) :
    cmpComparator (cmpSub z ty cm) = cm := by
  cases z <;> cases ty <;> cases cm <;> decide

@[simp] theorem subZero_fmSub (z : Bool) (m : FmMode) (f : BitVec 4) : subZero (fmSub z m f) = z := by
  revert z m f; intro z m; cases z <;> cases m <;> decide

@[simp] theorem fmMode_fmSub (z : Bool) (m : FmMode) (f : BitVec 4) : fmMode (fmSub z m f) = m := by
  revert z m f; intro z m; cases z <;> cases m <;> decide

@[simp] theorem fmFrac_fmSub (z : Bool) (m : FmMode) (f : BitVec 4) : fmFrac (fmSub z m f) = f := by
  revert z m f; intro z m; cases z <;> cases m <;> decide

@[simp] theorem shiSub_eta (v : Word) : shiSub (subZero v) (shiType v) (shiDist v) = v := by revert v; decide

@[simp] theorem cmpSub_eta (v : Word) : cmpSub (subZero v) (cmpType v) (cmpComparator v) = v := by revert v; decide

@[simp] theorem fmSub_eta (v : Word) : fmSub (subZero v) (fmMode v) (fmFrac v) = v := by revert v; decide

/-! ## Sub-fields under any codes -/

theorem parts_cmp (z : Bool) (x : BitVec 2) (y : BitVec 3) :
    subZero (BitVec.ofBool z ++ x ++ y) = z ∧ (BitVec.ofBool z ++ x ++ y : Word).extractLsb' 3 2 = x ∧
      (BitVec.ofBool z ++ x ++ y : Word).extractLsb' 0 3 = y := by
  revert z x y; decide

theorem parts_fm (z : Bool) (x : BitVec 1) (y : BitVec 4) :
    subZero (BitVec.ofBool z ++ x ++ y) = z ∧ (BitVec.ofBool z ++ x ++ y : Word).extractLsb' 4 1 = x ∧
      (BitVec.ofBool z ++ x ++ y : Word).extractLsb' 0 4 = y := by
  revert z x y; decide

theorem parts_eta_cmp (v : Word) : BitVec.ofBool (subZero v) ++ v.extractLsb' 3 2 ++ v.extractLsb' 0 3 = v := by
  revert v; decide

theorem parts_eta_fm (v : Word) : BitVec.ofBool (subZero v) ++ v.extractLsb' 4 1 ++ v.extractLsb' 0 4 = v := by
  revert v; decide

section Codes

variable {k : Codes}

/-- What Codes.wf says, part by part. -/
theorem Codes.wf_iff : k.wf = true ↔
    k.ops.toList.isPerm Op.table = true ∧ k.conds.toList.isPerm Cond.table = true ∧ Layout.wf k.cmpLayout = true ∧
    k.cmpTypes.toList.isPerm CmpType.table = true ∧ k.comparators.toList.isPerm Comparator.table = true ∧
    Layout.wf k.shiLayout = true ∧ k.shiftTypes.toList.isPerm ShiftType.table = true ∧
    Layout.wf k.fmLayout = true ∧ k.fmModes.toList.isPerm FmMode.table = true ∧
    (k.devices.map (·.2)).isPerm Device.table = true ∧ (k.devices.map (·.1)).Nodup := by
  simp only [Codes.wf, Bool.and_eq_true, decide_eq_true_eq, and_assoc]

/-- Reading the name at a code of w bits. -/
theorem get_codeIn {α : Type} [DecidableEq α] {w : Nat} {t : Vector α (2 ^ w)} {names : List α}
    (h : t.toList.isPerm names = true) {x : α} (hx : x ∈ names) : t.get (BitVec.ofNat w (codeIn t x)).toFin = x := by
  have hlt := codeIn_lt h hx
  rw [show (BitVec.ofNat w (codeIn t x)).toFin = ⟨codeIn t x, hlt⟩ from Fin.ext (by simp [Nat.mod_eq_of_lt hlt])]
  exact getElem_codeIn h hx

theorem codeIn_get {α : Type} [DecidableEq α] {w : Nat} {t : Vector α (2 ^ w)} {names : List α}
    (h : t.toList.isPerm names = true) (hn : names.Nodup) (v : BitVec w) :
    BitVec.ofNat w (codeIn t (t.get v.toFin)) = v := by
  have : codeIn t (t.get v.toFin) = v.toNat := codeIn_getElem h hn v.isLt
  rw [this, BitVec.ofNat_toNat, BitVec.setWidth_eq]

theorem readCmp_writeCmp (h : k.wf = true) (v : Word) : k.readCmp (k.writeCmp v) = v := by
  obtain ⟨-, -, h1, h2, h3, -⟩ := Codes.wf_iff.1 h
  simp only [Codes.readCmp, Codes.writeCmp, gather_scatter h1, parts_cmp]
  rw [get_codeIn (w := 2) h2 (CmpType.mem_table _), get_codeIn (w := 3) h3 (Comparator.mem_table _), cmpSub_eta]

theorem writeCmp_readCmp (h : k.wf = true) (v : Word) : k.writeCmp (k.readCmp v) = v := by
  obtain ⟨-, -, h1, h2, h3, -⟩ := Codes.wf_iff.1 h
  simp only [Codes.readCmp, Codes.writeCmp, subZero_cmpSub, cmpType_cmpSub, cmpComparator_cmpSub]
  rw [codeIn_get (w := 2) h2 (by decide), codeIn_get (w := 3) h3 (by decide), parts_eta_cmp, scatter_gather h1]

theorem readShi_writeShi (h : k.wf = true) (v : Word) : k.readShi (k.writeShi v) = v := by
  obtain ⟨-, -, -, -, -, h1, h2, -⟩ := Codes.wf_iff.1 h
  simp only [Codes.readShi, Codes.writeShi, gather_scatter h1, parts_cmp, shiDist]
  rw [get_codeIn (w := 2) h2 (ShiftType.mem_table _)]
  exact shiSub_eta v

theorem writeShi_readShi (h : k.wf = true) (v : Word) : k.writeShi (k.readShi v) = v := by
  obtain ⟨-, -, -, -, -, h1, h2, -⟩ := Codes.wf_iff.1 h
  simp only [Codes.readShi, Codes.writeShi, subZero_shiSub, shiType_shiSub, shiDist_shiSub]
  rw [codeIn_get (w := 2) h2 (by decide), shiDist, parts_eta_cmp, scatter_gather h1]

theorem readFm_writeFm (h : k.wf = true) (v : Word) : k.readFm (k.writeFm v) = v := by
  obtain ⟨-, -, -, -, -, -, -, h1, h2, -⟩ := Codes.wf_iff.1 h
  simp only [Codes.readFm, Codes.writeFm, gather_scatter h1, parts_fm, fmFrac]
  rw [get_codeIn (w := 1) h2 (FmMode.mem_table _)]
  exact fmSub_eta v

theorem writeFm_readFm (h : k.wf = true) (v : Word) : k.writeFm (k.readFm v) = v := by
  obtain ⟨-, -, -, -, -, -, -, h1, h2, -⟩ := Codes.wf_iff.1 h
  simp only [Codes.readFm, Codes.writeFm, subZero_fmSub, fmMode_fmSub, fmFrac_fmSub]
  rw [codeIn_get (w := 1) h2 (by decide), fmFrac, parts_eta_fm, scatter_gather h1]

/-! ## Records -/

/-- The record of the instruction that a record stands for is that record. -/
@[simp] theorem fields_ofFields (f : Fields) : (Instr.ofFields f).fields = some f := by
  obtain ⟨o, c, _, _, _⟩ := f
  cases o <;> cases c <;> simp [Instr.ofFields, Instr.fields]

@[simp] theorem FieldOrder.operands_op (o : FieldOrder) (f : Fields) : (o.operands f).op = f.op := by cases o <;> rfl
@[simp] theorem FieldOrder.place_op (o : FieldOrder) (f : Fields) : (o.place f).op = f.op := by cases o <;> rfl
@[simp] theorem FieldOrder.operands_place (o : FieldOrder) (f : Fields) : o.operands (o.place f) = f := by
  cases o <;> rfl
@[simp] theorem FieldOrder.place_operands (o : FieldOrder) (f : Fields) : o.place (o.operands f) = f := by
  cases o <;> rfl

@[simp] theorem Fields.mapSubfield_op (x y z : Word → Word) (f : Fields) : (f.mapSubfield x y z).op = f.op := by
  obtain ⟨o, _, _, _, _⟩ := f
  cases o <;> rfl

@[simp] theorem Fields.mapSubfield_cond (x y z : Word → Word) (f : Fields) : (f.mapSubfield x y z).cond = f.cond := by
  obtain ⟨o, _, _, _, _⟩ := f
  cases o <;> rfl

/-- Functions that undo each other, on the sub-field of each op. -/
theorem Fields.mapSubfield_mapSubfield {x y z x' y' z' : Word → Word} (hx : ∀ v, x (x' v) = v) (hy : ∀ v, y (y' v) = v)
    (hz : ∀ v, z (z' v) = v) (f : Fields) : (f.mapSubfield x' y' z').mapSubfield x y z = f := by
  obtain ⟨o, _, _, _, _⟩ := f
  cases o <;> simp [Fields.mapSubfield, hx, hy, hz]

@[simp] theorem Codes.operands_op (f : Fields) : (k.operands f).op = f.op := by simp [Codes.operands]

@[simp] theorem Codes.operands_cond (f : Fields) : (k.operands f).cond = f.cond := by
  rw [Codes.operands, Fields.mapSubfield_cond]
  cases k.fieldMap.order f.op <;> rfl

/-- The placement of LBL, JUP, JDN, IO and HLT is no parameter (R70). -/
theorem Codes.operands_fixed {f : Fields} (h : f.op = .lbl ∨ f.op = .hlt ∨ f.op = .jup ∨ f.op = .jdn ∨ f.op = .io) :
    k.operands f = f := by
  obtain ⟨o, _, _, _, _⟩ := f
  rcases h with rfl | rfl | rfl | rfl | rfl <;> rfl

theorem Codes.operands_place (h : k.wf = true) (f : Fields) : k.operands (k.place f) = f := by
  simp only [Codes.operands, Codes.place, FieldOrder.place_op, Fields.mapSubfield_op, FieldOrder.operands_place]
  exact Fields.mapSubfield_mapSubfield (readCmp_writeCmp h) (readShi_writeShi h) (readFm_writeFm h) f

theorem Codes.place_operands (h : k.wf = true) (f : Fields) : k.place (k.operands f) = f := by
  simp only [Codes.operands, Codes.place, Fields.mapSubfield_op, FieldOrder.operands_op]
  rw [Fields.mapSubfield_mapSubfield (writeCmp_readCmp h) (writeShi_readShi h) (writeFm_readFm h),
    FieldOrder.place_operands]

/-! ## Words and instructions -/

/-- Decoding a word with F ≠ 0 gives its operand record. -/
theorem decode_fields {w : InsnWord} (h : fieldF w ≠ 0#6) :
    (k.decode w).fields = some (k.operands (k.decodeFields w h)) := by
  rw [Codes.decode, dif_neg h, fields_ofFields]

theorem decode_of_fieldF_zero {w : InsnWord} (h : fieldF w = 0#6) : k.decode w = .invalid := by
  rw [Codes.decode, dif_pos h]

theorem opcodeField_toNat (h : k.wf = true) (f : Fields) :
    (k.opcodeField f).toNat = codeIn k.conds f.cond * 21 + codeIn k.ops f.op + 1 := by
  obtain ⟨ho, hc, -⟩ := Codes.wf_iff.1 h
  have := codeIn_lt ho (Op.mem_table f.op)
  have := codeIn_lt hc (Cond.mem_table f.cond)
  simp only [Codes.opcodeField, BitVec.toNat_ofNat]
  omega

/-- INVALID's field value is never produced. -/
theorem opcodeField_ne_zero (h : k.wf = true) (f : Fields) : k.opcodeField f ≠ 0#6 := by
  intro h0
  have := opcodeField_toNat h f
  simp [h0] at this

@[simp] theorem fieldF_word (f : Fields) : fieldF (k.word f) = k.opcodeField f := by simp [Codes.word]

/-- Decoding the word of a record gives the record (R66, R79). -/
theorem decodeFields_word (h : k.wf = true) (f : Fields) (h0 : fieldF (k.word f) ≠ 0#6) :
    k.decodeFields (k.word f) h0 = f := by
  obtain ⟨ho, hc, -⟩ := Codes.wf_iff.1 h
  have e := opcodeField_toNat h f
  have lo := codeIn_lt ho (Op.mem_table f.op)
  have lc := codeIn_lt hc (Cond.mem_table f.cond)
  have eo : ((fieldF (k.word f)).toNat - 1) % 21 = codeIn k.ops f.op := by rw [fieldF_word, e]; omega
  have ec : ((fieldF (k.word f)).toNat - 1) / 21 = codeIn k.conds f.cond := by rw [fieldF_word, e]; omega
  simp only [Codes.decodeFields, eo, ec, getElem_codeIn ho (Op.mem_table f.op), getElem_codeIn hc (Cond.mem_table f.cond)]
  simp [Codes.word]

/-- The word of the record that a word with F ≠ 0 decodes to is the word (R66). -/
theorem word_decodeFields (h : k.wf = true) {w : InsnWord} (h0 : fieldF w ≠ 0#6) :
    k.word (k.decodeFields w h0) = w := by
  obtain ⟨ho, hc, -⟩ := Codes.wf_iff.1 h
  have hw := (fieldF w).isLt
  have hn : (fieldF w).toNat ≠ 0 := fun h1 => h0 (BitVec.eq_of_toNat_eq h1)
  have hcode : k.opcodeField (k.decodeFields w h0) = fieldF w := by
    apply BitVec.eq_of_toNat_eq
    rw [opcodeField_toNat h]
    simp only [Codes.decodeFields]
    rw [codeIn_getElem hc (by decide), codeIn_getElem ho (by decide)]
    omega
  rw [Codes.word, hcode]
  exact mkWord_fields w

/-- Decoding the word of an operand record gives its instruction. -/
theorem decode_word (h : k.wf = true) (f : Fields) : k.decode (k.word (k.place f)) = .ofFields f := by
  have h0 : fieldF (k.word (k.place f)) ≠ 0#6 := by rw [fieldF_word]; exact opcodeField_ne_zero h _
  rw [Codes.decode, dif_neg h0, decodeFields_word h, Codes.operands_place h]

/-- Encoding what a word with F ≠ 0 decodes to gives the word. -/
theorem encode_decode (h : k.wf = true) {w : InsnWord} (h0 : fieldF w ≠ 0#6) : k.encode (k.decode w) = some w := by
  rw [Codes.encode, decode_fields h0, Option.map_some, Codes.place_operands h, word_decodeFields h]

end Codes

/-! ## The default codes -/

theorem Codes.wf_default : Codes.default.wf = true := by decide

theorem codeIn_default_ops (o : Op) : codeIn Codes.default.ops o = o.code := by cases o <;> decide

theorem codeIn_default_conds (c : Cond) : codeIn Codes.default.conds c = c.code := by cases c <;> decide

theorem Op.code_lt (o : Op) : o.code < 21 := by cases o <;> decide

theorem Cond.code_lt (c : Cond) : c.code < 3 := by cases c <;> decide

theorem readCmp_default : ∀ v, Codes.default.readCmp v = v := by decide
theorem readShi_default : ∀ v, Codes.default.readShi v = v := by decide
theorem readFm_default : ∀ v, Codes.default.readFm v = v := by decide

/-- Under the default codes the operand record is the decoder's record. -/
theorem operands_default (f : Fields) : Codes.default.operands f = f := by
  obtain ⟨o, c, a, b, v⟩ := f
  cases o
  case cmp => exact congrArg (Fields.mk .cmp c · b v) (readCmp_default a)
  case shi => exact congrArg (Fields.mk .shi c a b) (readShi_default v)
  case fm => exact congrArg (Fields.mk .fm c a b) (readFm_default v)
  all_goals rfl

theorem place_default (f : Fields) : Codes.default.place f = f := by
  conv_rhs => rw [← Codes.place_operands Codes.wf_default f]
  rw [operands_default]

/-- The number of a decoded op and cond under the default codes (R64). -/
theorem code_decodeFields {w : InsnWord} (h : fieldF w ≠ 0#6) :
    (Codes.default.decodeFields w h).op.code = ((fieldF w).toNat - 1) % 21 ∧
      (Codes.default.decodeFields w h).cond.code = ((fieldF w).toNat - 1) / 21 := by
  obtain ⟨ho, hc, -⟩ := Codes.wf_iff.1 Codes.wf_default
  rw [← codeIn_default_ops, ← codeIn_default_conds]
  exact ⟨codeIn_getElem ho (by decide) _, codeIn_getElem hc (by decide) _⟩

end Sys2Proof
end

