-- ==== Sys2Proof/Laws/Memory.lean ====
section
/-!
SUPPORT. Laws/Memory.lean: the memory window's canonical form is kept by a write, a write is read back and leaves every
other cell alone, and a canonical memory is determined by what it reads.
-/

namespace Sys2Proof.Machine

theorem memWfFrom_cons {size lo a : Nat} {v : Word} {m : Mem} :
    memWfFrom size lo ((a, v) :: m) = true ↔
      lo ≤ a ∧ a < size ∧ v ≠ memUnlisted ∧ memWfFrom size (a + 1) m = true := by
  simp [memWfFrom, Bool.and_eq_true, and_assoc]

theorem memWfFrom_mono {size lo lo' : Nat} {m : Mem} (h : lo' ≤ lo) (hm : memWfFrom size lo m = true) :
    memWfFrom size lo' m = true := by
  cases m with
  | nil => rfl
  | cons p m =>
    obtain ⟨a, v⟩ := p
    rw [memWfFrom_cons] at hm ⊢
    exact ⟨by omega, hm.2⟩

/-- Below the addresses it lists, a canonical memory reads as unlisted. -/
theorem memGet_below {size lo a : Nat} {m : Mem} (hm : memWfFrom size lo m = true) (h : a < lo) :
    memGet m a = memUnlisted := by
  induction m generalizing lo with
  | nil => rfl
  | cons p m ih =>
    obtain ⟨b, v⟩ := p
    rw [memWfFrom_cons] at hm
    rw [memGet, if_neg (by omega), ih hm.2.2.2 (by omega)]

/-- A write keeps the canonical form. -/
theorem memPut_wfFrom {size lo a : Nat} {v : Word} {m : Mem} (hm : memWfFrom size lo m = true) (hlo : lo ≤ a)
    (ha : a < size) : memWfFrom size lo (memPut m a v) = true := by
  induction m generalizing lo with
  | nil =>
    unfold memPut
    split
    · rfl
    · rw [memWfFrom_cons]; exact ⟨hlo, ha, ‹_›, rfl⟩
  | cons p m ih =>
    obtain ⟨b, u⟩ := p
    rw [memWfFrom_cons] at hm
    obtain ⟨h1, h2, h3, h4⟩ := hm
    unfold memPut
    split
    · split
      · exact memWfFrom_cons.2 ⟨h1, h2, h3, h4⟩
      · exact memWfFrom_cons.2 ⟨hlo, ha, ‹_›, memWfFrom_cons.2 ⟨by omega, h2, h3, h4⟩⟩
    · split
      · split
        · exact memWfFrom_mono (by omega) h4
        · exact memWfFrom_cons.2 ⟨hlo, ha, ‹_›, memWfFrom_mono (by omega) h4⟩
      · exact memWfFrom_cons.2 ⟨h1, h2, h3, ih h4 (by omega)⟩

/-- A write is read back and leaves every other cell alone. -/
theorem memGet_memPut_from {size lo a : Nat} {v : Word} {m : Mem} (hm : memWfFrom size lo m = true) (b : Nat) :
    memGet (memPut m a v) b = if b = a then v else memGet m b := by
  induction m generalizing lo with
  | nil =>
    unfold memPut
    split
    · simp [memGet, *]
    · simp [memGet]
  | cons p m ih =>
    obtain ⟨c, u⟩ := p
    rw [memWfFrom_cons] at hm
    obtain ⟨h1, h2, h3, h4⟩ := hm
    unfold memPut
    split
    · split
      · subst v
        by_cases hb : b = a
        · subst hb
          rw [if_pos rfl, memGet, if_neg (by omega), memGet_below h4 (by omega)]
        · rw [if_neg hb]
      · rw [memGet]
    · split
      · subst c
        split
        · subst v
          by_cases hb : b = a
          · subst hb; rw [if_pos rfl, memGet_below h4 (by omega)]
          · rw [if_neg hb, memGet, if_neg hb]
        · by_cases hb : b = a
          · rw [if_pos hb, memGet, if_pos hb]
          · rw [if_neg hb, memGet, if_neg hb, memGet, if_neg hb]
      · by_cases hb : b = c
        · rw [memGet, if_pos hb, memGet, if_pos hb, if_neg (by omega)]
        · rw [memGet, if_neg hb, ih h4, memGet, if_neg hb]

/-- A write inside the window keeps the canonical form. -/
theorem memPut_wf {size a : Nat} {v : Word} {m : Mem} (hm : Memory.wf size m = true) (ha : a < size) :
    Memory.wf size (memPut m a v) = true := memPut_wfFrom hm (Nat.zero_le a) ha

theorem memGet_memPut {size a : Nat} {v : Word} {m : Mem} (hm : Memory.wf size m = true) (b : Nat) :
    memGet (memPut m a v) b = if b = a then v else memGet m b := memGet_memPut_from hm b

/-- Canonical memories that read the same are equal. -/
theorem memWfFrom_ext {size lo lo' : Nat} {m n : Mem} (hm : memWfFrom size lo m = true)
    (hn : memWfFrom size lo' n = true) (h : ∀ a, memGet m a = memGet n a) : m = n := by
  induction m generalizing lo lo' n with
  | nil =>
    cases n with
    | nil => rfl
    | cons q n =>
      obtain ⟨b, u⟩ := q
      have hq := (memWfFrom_cons.1 hn).2.2.1
      exact absurd (by simpa [memGet] using (h b).symm) hq
  | cons p m ih =>
    obtain ⟨a, v⟩ := p
    obtain ⟨m1, m2, m3, m4⟩ := memWfFrom_cons.1 hm
    cases n with
    | nil => exact absurd (by simpa [memGet] using h a) m3
    | cons q n =>
      obtain ⟨b, u⟩ := q
      obtain ⟨n1, n2, n3, n4⟩ := memWfFrom_cons.1 hn
      have hab : a = b := by
        rcases Nat.lt_trichotomy a b with hlt | heq | hgt
        · have := h a
          rw [memGet, if_pos rfl, memGet, if_neg (by omega), memGet_below n4 (by omega)] at this
          exact absurd this m3
        · exact heq
        · have := h b
          rw [memGet, if_neg (by omega), memGet_below m4 (by omega), memGet, if_pos rfl] at this
          exact absurd this.symm n3
      subst hab
      have hvu : v = u := by simpa [memGet] using h a
      subst hvu
      have hrest : m = n := ih m4 n4 fun c => by
        by_cases hc : c = a
        · subst hc; rw [memGet_below m4 (by omega), memGet_below n4 (by omega)]
        · simpa [memGet, hc] using h c
      rw [hrest]

end Sys2Proof.Machine
end

