-- ==== Sys2Proof/Laws/State.lean ====
section
/-!
SUPPORT. Laws/State.lean: what each named update of State leaves in each field, one lemma per field per update, true by
definition, so that no later proof unfolds a record update.
-/

namespace Sys2Proof.Machine

/-! ## State.writeReg -/

@[simp] theorem State.writeReg_regs (s : State) (i v : Word) : (s.writeReg i v).regs = if i = 0#6 then s.regs else s.regs.set i.toNat v := rfl
@[simp] theorem State.writeReg_cf (s : State) (i v : Word) : (s.writeReg i v).cf = s.cf := rfl
@[simp] theorem State.writeReg_pc (s : State) (i v : Word) : (s.writeReg i v).pc = s.pc := rfl
@[simp] theorem State.writeReg_halt (s : State) (i v : Word) : (s.writeReg i v).halt = s.halt := rfl
@[simp] theorem State.writeReg_tape (s : State) (i v : Word) : (s.writeReg i v).tape = s.tape := rfl
@[simp] theorem State.writeReg_serialIn (s : State) (i v : Word) : (s.writeReg i v).serialIn = s.serialIn := rfl
@[simp] theorem State.writeReg_output (s : State) (i v : Word) : (s.writeReg i v).output = s.output := rfl
@[simp] theorem State.writeReg_clock (s : State) (i v : Word) : (s.writeReg i v).clock = s.clock := rfl
@[simp] theorem State.writeReg_clockBaseline (s : State) (i v : Word) : (s.writeReg i v).clockBaseline = s.clockBaseline := rfl
@[simp] theorem State.writeReg_mem (s : State) (i v : Word) : (s.writeReg i v).mem = s.mem := rfl
@[simp] theorem State.writeReg_cursor (s : State) (i v : Word) : (s.writeReg i v).cursor = s.cursor := rfl
@[simp] theorem State.writeReg_gpuX (s : State) (i v : Word) : (s.writeReg i v).gpuX = s.gpuX := rfl
@[simp] theorem State.writeReg_gpuY (s : State) (i v : Word) : (s.writeReg i v).gpuY = s.gpuY := rfl
@[simp] theorem State.writeReg_plots (s : State) (i v : Word) : (s.writeReg i v).plots = s.plots := rfl
@[simp] theorem State.writeReg_quitPending (s : State) (i v : Word) : (s.writeReg i v).quitPending = s.quitPending := rfl
@[simp] theorem State.writeReg_rendererUp (s : State) (i v : Word) : (s.writeReg i v).rendererUp = s.rendererUp := rfl
@[simp] theorem State.writeReg_params (s : State) (i v : Word) : (s.writeReg i v).params = s.params := rfl
@[simp] theorem State.writeReg_inputLines (s : State) (i v : Word) : (s.writeReg i v).inputLines = s.inputLines := rfl
@[simp] theorem State.writeReg_schedule (s : State) (i v : Word) : (s.writeReg i v).schedule = s.schedule := rfl
@[simp] theorem State.writeReg_cycles (s : State) (i v : Word) : (s.writeReg i v).cycles = s.cycles := rfl

/-! ## State.advance -/

@[simp] theorem State.advance_regs (s : State) : (s.advance).regs = s.regs := rfl
@[simp] theorem State.advance_cf (s : State) : (s.advance).cf = s.cf := rfl
@[simp] theorem State.advance_pc (s : State) : (s.advance).pc = (s.pc + 1) % s.tape.length := rfl
@[simp] theorem State.advance_halt (s : State) : (s.advance).halt = s.halt := rfl
@[simp] theorem State.advance_tape (s : State) : (s.advance).tape = s.tape := rfl
@[simp] theorem State.advance_serialIn (s : State) : (s.advance).serialIn = s.serialIn := rfl
@[simp] theorem State.advance_output (s : State) : (s.advance).output = s.output := rfl
@[simp] theorem State.advance_clock (s : State) : (s.advance).clock = s.clock := rfl
@[simp] theorem State.advance_clockBaseline (s : State) : (s.advance).clockBaseline = s.clockBaseline := rfl
@[simp] theorem State.advance_mem (s : State) : (s.advance).mem = s.mem := rfl
@[simp] theorem State.advance_cursor (s : State) : (s.advance).cursor = s.cursor := rfl
@[simp] theorem State.advance_gpuX (s : State) : (s.advance).gpuX = s.gpuX := rfl
@[simp] theorem State.advance_gpuY (s : State) : (s.advance).gpuY = s.gpuY := rfl
@[simp] theorem State.advance_plots (s : State) : (s.advance).plots = s.plots := rfl
@[simp] theorem State.advance_quitPending (s : State) : (s.advance).quitPending = s.quitPending := rfl
@[simp] theorem State.advance_rendererUp (s : State) : (s.advance).rendererUp = s.rendererUp := rfl
@[simp] theorem State.advance_params (s : State) : (s.advance).params = s.params := rfl
@[simp] theorem State.advance_inputLines (s : State) : (s.advance).inputLines = s.inputLines := rfl
@[simp] theorem State.advance_schedule (s : State) : (s.advance).schedule = s.schedule := rfl
@[simp] theorem State.advance_cycles (s : State) : (s.advance).cycles = s.cycles := rfl

/-! ## State.raiseHalt -/

@[simp] theorem State.raiseHalt_regs (s : State) (h : Halt) : (s.raiseHalt h).regs = s.regs := rfl
@[simp] theorem State.raiseHalt_cf (s : State) (h : Halt) : (s.raiseHalt h).cf = s.cf := rfl
@[simp] theorem State.raiseHalt_pc (s : State) (h : Halt) : (s.raiseHalt h).pc = s.pc := rfl
@[simp] theorem State.raiseHalt_halt (s : State) (h : Halt) : (s.raiseHalt h).halt = some h := rfl
@[simp] theorem State.raiseHalt_tape (s : State) (h : Halt) : (s.raiseHalt h).tape = s.tape := rfl
@[simp] theorem State.raiseHalt_serialIn (s : State) (h : Halt) : (s.raiseHalt h).serialIn = s.serialIn := rfl
@[simp] theorem State.raiseHalt_output (s : State) (h : Halt) : (s.raiseHalt h).output = s.output := rfl
@[simp] theorem State.raiseHalt_clock (s : State) (h : Halt) : (s.raiseHalt h).clock = s.clock := rfl
@[simp] theorem State.raiseHalt_clockBaseline (s : State) (h : Halt) : (s.raiseHalt h).clockBaseline = s.clockBaseline := rfl
@[simp] theorem State.raiseHalt_mem (s : State) (h : Halt) : (s.raiseHalt h).mem = s.mem := rfl
@[simp] theorem State.raiseHalt_cursor (s : State) (h : Halt) : (s.raiseHalt h).cursor = s.cursor := rfl
@[simp] theorem State.raiseHalt_gpuX (s : State) (h : Halt) : (s.raiseHalt h).gpuX = s.gpuX := rfl
@[simp] theorem State.raiseHalt_gpuY (s : State) (h : Halt) : (s.raiseHalt h).gpuY = s.gpuY := rfl
@[simp] theorem State.raiseHalt_plots (s : State) (h : Halt) : (s.raiseHalt h).plots = s.plots := rfl
@[simp] theorem State.raiseHalt_quitPending (s : State) (h : Halt) : (s.raiseHalt h).quitPending = s.quitPending := rfl
@[simp] theorem State.raiseHalt_rendererUp (s : State) (h : Halt) : (s.raiseHalt h).rendererUp = false := rfl
@[simp] theorem State.raiseHalt_params (s : State) (h : Halt) : (s.raiseHalt h).params = s.params := rfl
@[simp] theorem State.raiseHalt_inputLines (s : State) (h : Halt) : (s.raiseHalt h).inputLines = s.inputLines := rfl
@[simp] theorem State.raiseHalt_schedule (s : State) (h : Halt) : (s.raiseHalt h).schedule = s.schedule := rfl
@[simp] theorem State.raiseHalt_cycles (s : State) (h : Halt) : (s.raiseHalt h).cycles = s.cycles := rfl

/-! ## State.writeMem -/

@[simp] theorem State.writeMem_regs (s : State) (a : Nat) (v : Word) : (s.writeMem a v).regs = s.regs := rfl
@[simp] theorem State.writeMem_cf (s : State) (a : Nat) (v : Word) : (s.writeMem a v).cf = s.cf := rfl
@[simp] theorem State.writeMem_pc (s : State) (a : Nat) (v : Word) : (s.writeMem a v).pc = s.pc := rfl
@[simp] theorem State.writeMem_halt (s : State) (a : Nat) (v : Word) : (s.writeMem a v).halt = s.halt := rfl
@[simp] theorem State.writeMem_tape (s : State) (a : Nat) (v : Word) : (s.writeMem a v).tape = s.tape := rfl
@[simp] theorem State.writeMem_serialIn (s : State) (a : Nat) (v : Word) : (s.writeMem a v).serialIn = s.serialIn := rfl
@[simp] theorem State.writeMem_output (s : State) (a : Nat) (v : Word) : (s.writeMem a v).output = s.output := rfl
@[simp] theorem State.writeMem_clock (s : State) (a : Nat) (v : Word) : (s.writeMem a v).clock = s.clock := rfl
@[simp] theorem State.writeMem_clockBaseline (s : State) (a : Nat) (v : Word) : (s.writeMem a v).clockBaseline = s.clockBaseline := rfl
@[simp] theorem State.writeMem_mem (s : State) (a : Nat) (v : Word) : (s.writeMem a v).mem = memPut s.mem a v := rfl
@[simp] theorem State.writeMem_cursor (s : State) (a : Nat) (v : Word) : (s.writeMem a v).cursor = s.cursor := rfl
@[simp] theorem State.writeMem_gpuX (s : State) (a : Nat) (v : Word) : (s.writeMem a v).gpuX = s.gpuX := rfl
@[simp] theorem State.writeMem_gpuY (s : State) (a : Nat) (v : Word) : (s.writeMem a v).gpuY = s.gpuY := rfl
@[simp] theorem State.writeMem_plots (s : State) (a : Nat) (v : Word) : (s.writeMem a v).plots = s.plots := rfl
@[simp] theorem State.writeMem_quitPending (s : State) (a : Nat) (v : Word) : (s.writeMem a v).quitPending = s.quitPending := rfl
@[simp] theorem State.writeMem_rendererUp (s : State) (a : Nat) (v : Word) : (s.writeMem a v).rendererUp = s.rendererUp := rfl
@[simp] theorem State.writeMem_params (s : State) (a : Nat) (v : Word) : (s.writeMem a v).params = s.params := rfl
@[simp] theorem State.writeMem_inputLines (s : State) (a : Nat) (v : Word) : (s.writeMem a v).inputLines = s.inputLines := rfl
@[simp] theorem State.writeMem_schedule (s : State) (a : Nat) (v : Word) : (s.writeMem a v).schedule = s.schedule := rfl
@[simp] theorem State.writeMem_cycles (s : State) (a : Nat) (v : Word) : (s.writeMem a v).cycles = s.cycles := rfl

/-! ## State.zeroClock -/

@[simp] theorem State.zeroClock_regs (s : State) : (s.zeroClock).regs = s.regs := rfl
@[simp] theorem State.zeroClock_cf (s : State) : (s.zeroClock).cf = s.cf := rfl
@[simp] theorem State.zeroClock_pc (s : State) : (s.zeroClock).pc = s.pc := rfl
@[simp] theorem State.zeroClock_halt (s : State) : (s.zeroClock).halt = s.halt := rfl
@[simp] theorem State.zeroClock_tape (s : State) : (s.zeroClock).tape = s.tape := rfl
@[simp] theorem State.zeroClock_serialIn (s : State) : (s.zeroClock).serialIn = s.serialIn := rfl
@[simp] theorem State.zeroClock_output (s : State) : (s.zeroClock).output = s.output := rfl
@[simp] theorem State.zeroClock_clock (s : State) : (s.zeroClock).clock = 0 := rfl
@[simp] theorem State.zeroClock_clockBaseline (s : State) : (s.zeroClock).clockBaseline = s.cycleInput.resetWall := rfl
@[simp] theorem State.zeroClock_mem (s : State) : (s.zeroClock).mem = s.mem := rfl
@[simp] theorem State.zeroClock_cursor (s : State) : (s.zeroClock).cursor = s.cursor := rfl
@[simp] theorem State.zeroClock_gpuX (s : State) : (s.zeroClock).gpuX = s.gpuX := rfl
@[simp] theorem State.zeroClock_gpuY (s : State) : (s.zeroClock).gpuY = s.gpuY := rfl
@[simp] theorem State.zeroClock_plots (s : State) : (s.zeroClock).plots = s.plots := rfl
@[simp] theorem State.zeroClock_quitPending (s : State) : (s.zeroClock).quitPending = s.quitPending := rfl
@[simp] theorem State.zeroClock_rendererUp (s : State) : (s.zeroClock).rendererUp = s.rendererUp := rfl
@[simp] theorem State.zeroClock_params (s : State) : (s.zeroClock).params = s.params := rfl
@[simp] theorem State.zeroClock_inputLines (s : State) : (s.zeroClock).inputLines = s.inputLines := rfl
@[simp] theorem State.zeroClock_schedule (s : State) : (s.zeroClock).schedule = s.schedule := rfl
@[simp] theorem State.zeroClock_cycles (s : State) : (s.zeroClock).cycles = s.cycles := rfl

/-! ## State.closeCycle -/

@[simp] theorem State.closeCycle_regs (s : State) : (s.closeCycle).regs = s.regs := rfl
@[simp] theorem State.closeCycle_cf (s : State) : (s.closeCycle).cf = s.cf := rfl
@[simp] theorem State.closeCycle_pc (s : State) : (s.closeCycle).pc = s.pc := rfl
@[simp] theorem State.closeCycle_halt (s : State) : (s.closeCycle).halt = s.halt := rfl
@[simp] theorem State.closeCycle_tape (s : State) : (s.closeCycle).tape = s.tape := rfl
@[simp] theorem State.closeCycle_serialIn (s : State) : (s.closeCycle).serialIn = s.serialIn := rfl
@[simp] theorem State.closeCycle_output (s : State) : (s.closeCycle).output = s.output := rfl
@[simp] theorem State.closeCycle_clock (s : State) : (s.closeCycle).clock =
    clockAt s.params.clockUnit s.cycleInput.wall s.clockBaseline := rfl
@[simp] theorem State.closeCycle_clockBaseline (s : State) : (s.closeCycle).clockBaseline = s.clockBaseline := rfl
@[simp] theorem State.closeCycle_mem (s : State) : (s.closeCycle).mem = s.mem := rfl
@[simp] theorem State.closeCycle_cursor (s : State) : (s.closeCycle).cursor = s.cursor := rfl
@[simp] theorem State.closeCycle_gpuX (s : State) : (s.closeCycle).gpuX = s.gpuX := rfl
@[simp] theorem State.closeCycle_gpuY (s : State) : (s.closeCycle).gpuY = s.gpuY := rfl
@[simp] theorem State.closeCycle_plots (s : State) : (s.closeCycle).plots = s.plots := rfl
@[simp] theorem State.closeCycle_quitPending (s : State) : (s.closeCycle).quitPending = false := rfl
@[simp] theorem State.closeCycle_rendererUp (s : State) : (s.closeCycle).rendererUp = s.rendererUp := rfl
@[simp] theorem State.closeCycle_params (s : State) : (s.closeCycle).params = s.params := rfl
@[simp] theorem State.closeCycle_inputLines (s : State) : (s.closeCycle).inputLines = s.inputLines := rfl
@[simp] theorem State.closeCycle_schedule (s : State) : (s.closeCycle).schedule = s.schedule.tail := rfl
@[simp] theorem State.closeCycle_cycles (s : State) : (s.closeCycle).cycles = s.cycles + 1 := rfl

/-! ## State.withBlock -/

@[simp] theorem State.withBlock_regs (s : State) (b : Block) : (s.withBlock b).regs = b.regs := rfl
@[simp] theorem State.withBlock_cf (s : State) (b : Block) : (s.withBlock b).cf = b.cf := rfl
@[simp] theorem State.withBlock_pc (s : State) (b : Block) : (s.withBlock b).pc = s.pc := rfl
@[simp] theorem State.withBlock_halt (s : State) (b : Block) : (s.withBlock b).halt = s.halt := rfl
@[simp] theorem State.withBlock_tape (s : State) (b : Block) : (s.withBlock b).tape = s.tape := rfl
@[simp] theorem State.withBlock_serialIn (s : State) (b : Block) : (s.withBlock b).serialIn = s.serialIn := rfl
@[simp] theorem State.withBlock_output (s : State) (b : Block) : (s.withBlock b).output = s.output := rfl
@[simp] theorem State.withBlock_clock (s : State) (b : Block) : (s.withBlock b).clock = s.clock := rfl
@[simp] theorem State.withBlock_clockBaseline (s : State) (b : Block) : (s.withBlock b).clockBaseline = s.clockBaseline := rfl
@[simp] theorem State.withBlock_mem (s : State) (b : Block) : (s.withBlock b).mem = s.mem := rfl
@[simp] theorem State.withBlock_cursor (s : State) (b : Block) : (s.withBlock b).cursor = s.cursor := rfl
@[simp] theorem State.withBlock_gpuX (s : State) (b : Block) : (s.withBlock b).gpuX = s.gpuX := rfl
@[simp] theorem State.withBlock_gpuY (s : State) (b : Block) : (s.withBlock b).gpuY = s.gpuY := rfl
@[simp] theorem State.withBlock_plots (s : State) (b : Block) : (s.withBlock b).plots = s.plots := rfl
@[simp] theorem State.withBlock_quitPending (s : State) (b : Block) : (s.withBlock b).quitPending = s.quitPending := rfl
@[simp] theorem State.withBlock_rendererUp (s : State) (b : Block) : (s.withBlock b).rendererUp = s.rendererUp := rfl
@[simp] theorem State.withBlock_params (s : State) (b : Block) : (s.withBlock b).params = s.params := rfl
@[simp] theorem State.withBlock_inputLines (s : State) (b : Block) : (s.withBlock b).inputLines = s.inputLines := rfl
@[simp] theorem State.withBlock_schedule (s : State) (b : Block) : (s.withBlock b).schedule = s.schedule := rfl
@[simp] theorem State.withBlock_cycles (s : State) (b : Block) : (s.withBlock b).cycles = s.cycles := rfl

end Sys2Proof.Machine
end

