-- ==== Sys2Proof/Laws/Ops.lean ====
section
/-!
SUPPORT. Laws/Ops.lean: one lemma per shared operation that says all it can do: register reads after writes, the gate, the
label search, halting and the end of a cycle. Later proofs cite these instead of unfolding the operations.
-/

namespace Sys2Proof.Machine

/-! ## Parameters -/

/-- What Params.wf says, part by part. -/
theorem paramsWf_iff {p : Params} :
    Params.wf p = true ↔ p.codes.wf = true ∧ 1 ≤ p.memSize ∧ p.memSize ≤ 2 ^ 18 ∧ 1 ≤ p.clockUnit := by
  simp only [Params.wf, Bool.and_eq_true, decide_eq_true_eq, and_assoc]

/-- The default parameters are in range, whatever CLOCK_UNIT is. -/
theorem paramsWf_default : Params.wf Params.default = true :=
  paramsWf_iff.2 ⟨Codes.wf_default, by decide, by decide, Config.clockUnit.pos⟩

/-! ## Registers -/

@[simp] theorem readReg_zero (s : State) : s.readReg 0#6 = 0#6 := rfl

/-- A read looks at the register file only. -/
theorem readReg_congr {s t : State} (h : t.regs = s.regs) (j : Word) : t.readReg j = s.readReg j := by
  simp [State.readReg, h]

/-- Every register after a write (R21, R22). -/
theorem readReg_writeReg (s : State) (i v j : Word) :
    (s.writeReg i v).readReg j = if j = i ∧ i ≠ 0#6 then v else s.readReg j := by
  unfold State.readReg
  rw [State.writeReg_regs]
  by_cases hi : i = 0#6
  · simp [hi]
  · by_cases hj : j = 0#6
    · rw [if_pos hj, if_pos hj, if_neg fun h : j = i ∧ i ≠ 0#6 => hi (h.1.symm.trans hj)]
    · simp only [hi, hj, if_false, ne_eq, not_false_eq_true, and_true, Vector.getElem_set]
      by_cases hji : j = i
      · rw [if_pos hji, if_pos (by rw [hji])]
      · rw [if_neg hji, if_neg fun h => hji (BitVec.eq_of_toNat_eq h.symm)]

@[simp] theorem readReg_advance (s : State) (j : Word) : s.advance.readReg j = s.readReg j := rfl

@[simp] theorem readReg_raiseHalt (s : State) (h : Halt) (j : Word) : (s.raiseHalt h).readReg j = s.readReg j := rfl

theorem writeReg_zero (s : State) (v : Word) : s.writeReg 0#6 v = s := rfl

theorem raiseHalt_eq_haltedFor (s : State) (h : Halt) : s.raiseHalt h = haltedFor s h := rfl

/-! ## Write-back -/

/-- An instruction that only writes a register: everything it does. -/
theorem writeBack_writesOnly (s : State) (rd v : Word) :
    ∃ t, s.writeBack rd v = .next t ∧ WritesOnlyRegister s t rd v :=
  ⟨_, rfl, fun j => by rw [readReg_advance, readReg_writeReg], rfl, fun _ => rfl, rfl⟩

theorem writeBack_next {s t : State} {rd v : Word} (h : s.writeBack rd v = .next t) :
    t = (s.writeReg rd v).advance := by
  simpa [State.writeBack, eq_comm] using h

/-! ## The gate -/

theorem gated_in {c : Cond} {s : State} {body : State → Result} (h : gate c s.cf = true) :
    gated c s body = body s := if_pos h

theorem gated_out {c : Cond} {s : State} {body : State → Result} (h : gate c s.cf = false) :
    gated c s body = .next s.advance := if_neg (by simp [h])

/-- A gated instruction runs its body or only advances pc (R85). -/
theorem gated_cases {c : Cond} {s : State} {body : State → Result} :
    (gate c s.cf = true ∧ gated c s body = body s) ∨
      (gate c s.cf = false ∧ gated c s body = .next s.advance) := by
  cases h : gate c s.cf
  · exact .inr ⟨rfl, gated_out h⟩
  · exact .inl ⟨rfl, gated_in h⟩

@[simp] theorem gated_always (s : State) (body : State → Result) : gated .always s body = body s := rfl

/-! ## The label search -/

theorem scanIndex_lt {dir : Direction} {pc n k : Nat} (hn : 0 < n) : scanIndex dir pc n k < n := by
  cases dir <;> exact Nat.mod_lt _ hn

/-- The search returns the first index that matches, or nothing when none does (R185). -/
theorem search_eq_some {s : State} {r : JumpRequest} {i : Nat} :
    s.search r = some i ↔
      ∃ k, 1 ≤ k ∧ k < s.tape.length ∧ i = scanIndex r.dir s.pc s.tape.length k ∧
        s.matchesLabel r.key r.val i = true ∧
        ∀ j, 1 ≤ j → j < k → s.matchesLabel r.key r.val (scanIndex r.dir s.pc s.tape.length j) = false := by
  unfold State.search State.candidates
  rw [List.find?_eq_some_iff_getElem]
  simp only [List.length_map, List.length_range, List.getElem_map, List.getElem_range]
  constructor
  · rintro ⟨hm, k, hk, hi, hj⟩
    refine ⟨k + 1, by omega, by omega, hi.symm, hm, fun j h1 h2 => ?_⟩
    have := hj (j - 1) (by omega)
    rw [Nat.sub_add_cancel h1] at this
    simpa using this
  · rintro ⟨k, h1, h2, hi, hm, hj⟩
    refine ⟨hm, k - 1, by omega, by rw [Nat.sub_add_cancel h1]; exact hi.symm, fun j hjk => ?_⟩
    simpa using hj (j + 1) (by omega) (by omega)

theorem search_eq_none {s : State} {r : JumpRequest} :
    s.search r = none ↔
      ∀ k, 1 ≤ k → k < s.tape.length →
        s.matchesLabel r.key r.val (scanIndex r.dir s.pc s.tape.length k) = false := by
  unfold State.search State.candidates
  rw [List.find?_eq_none]
  simp only [List.mem_map, List.mem_range]
  constructor
  · intro h k h1 h2
    simpa using h _ ⟨k - 1, by omega, rfl⟩ |> fun h => by simpa [Nat.sub_add_cancel h1] using h
  · rintro h _ ⟨k, hk, rfl⟩
    simpa using h (k + 1) (by omega) (by omega)

/-- A jump goes to the index found, or halts (R188, R189). -/
theorem serveJump_cases (s : State) (r : JumpRequest) :
    (∃ i, s.search r = some i ∧ s.serveJump r = .next { s with pc := i }) ∨
      (s.search r = none ∧ s.serveJump r = .next (s.raiseHalt (.labelNotFound s.pc r.key r.val))) := by
  unfold State.serveJump
  cases s.search r with
  | none => exact .inr ⟨rfl, rfl⟩
  | some i => exact .inl ⟨i, rfl, rfl⟩

/-- A jump lands on the tape. -/
theorem search_lt {s : State} {r : JumpRequest} {i : Nat} (h : s.search r = some i) : i < s.tape.length := by
  obtain ⟨k, _, hk, rfl, _⟩ := search_eq_some.1 h
  exact scanIndex_lt (by omega)

/-! ## The end of a cycle -/

/-- All that the end of a cycle can do (R208 to R210, R229). -/
theorem endCycle_cases (s : State) :
    (s.halt.isSome = true ∧ s.endCycle = s) ∨
      (s.halt = none ∧ s.cycleInput.abort = true ∧ s.endCycle = s.closeCycle.raiseHalt (.hostAbort s.pc)) ∨
      (s.halt = none ∧ s.cycleInput.abort = false ∧ s.wantsQuit = true ∧
        s.endCycle = s.closeCycle.raiseHalt (.rendererQuit s.pc)) ∨
      (s.halt = none ∧ s.cycleInput.abort = false ∧ s.wantsQuit = false ∧ s.endCycle = s.closeCycle) := by
  unfold State.endCycle
  cases h : s.halt <;> cases ha : s.cycleInput.abort <;> cases hq : s.wantsQuit <;> simp

/-- The end of a cycle changes the clock, the halt, the pending quit and the outside world's list, and nothing else. -/
theorem endCycle_frame (s : State) :
    s.endCycle =
      { s with
        clock := s.endCycle.clock, halt := s.endCycle.halt, rendererUp := s.endCycle.rendererUp
        quitPending := s.endCycle.quitPending
        schedule := s.endCycle.schedule, cycles := s.endCycle.cycles } := by
  rcases endCycle_cases s with ⟨_, h⟩ | ⟨_, _, h⟩ | ⟨_, _, _, h⟩ | ⟨_, _, _, h⟩ <;> rw [h] <;> rfl

@[simp] theorem endCycle_regs (s : State) : s.endCycle.regs = s.regs := by rw [endCycle_frame]

@[simp] theorem endCycle_cf (s : State) : s.endCycle.cf = s.cf := by rw [endCycle_frame]

@[simp] theorem endCycle_pc (s : State) : s.endCycle.pc = s.pc := by rw [endCycle_frame]

@[simp] theorem endCycle_tape (s : State) : s.endCycle.tape = s.tape := by rw [endCycle_frame]

@[simp] theorem endCycle_mem (s : State) : s.endCycle.mem = s.mem := by rw [endCycle_frame]

@[simp] theorem endCycle_params (s : State) : s.endCycle.params = s.params := by rw [endCycle_frame]

/-- After the end of a cycle no quit is pending, unless the instruction halted with one pending. -/
theorem endCycle_quitPending {s : State} (h : s.halt.isSome = true → s.quitPending = false) :
    s.endCycle.quitPending = false := by
  rcases endCycle_cases s with ⟨a, e⟩ | ⟨_, _, e⟩ | ⟨_, _, _, e⟩ | ⟨_, _, _, e⟩ <;> rw [e]
  · exact h a
  all_goals rfl

@[simp] theorem endCycle_readReg (s : State) (j : Word) : s.endCycle.readReg j = s.readReg j :=
  readReg_congr (endCycle_regs s) j

/-! ## A step -/

/-- A step that answers a next state ran an instruction of the tape in a running machine. -/
theorem step_next {s t : State} (h : step s = .next t) :
    s.halt = none ∧ ∃ w u, s.tape[s.pc]? = some w ∧ exec (s.params.codes.decode w) s = .next u ∧ t = u.endCycle := by
  unfold step State.fetch at h
  split at h
  · cases h
  · split at h
    · cases h
    · split at h
      · rename_i hh _ w hw _ u hu
        exact ⟨hh, w, u, hw, hu, by simpa [eq_comm] using h⟩
      · cases h
      · cases h

/-- A running machine's step is exec of the decoded instruction, then the end of the cycle. -/
theorem step_running {s : State} {w : InsnWord} (hh : s.halt = none) (hw : s.tape[s.pc]? = some w) :
    step s =
      match exec (s.params.codes.decode w) s with
      | .next t => .next t.endCycle
      | .fault f => .fault f
      | .refused r => .refused r := by
  simp only [step, hh, State.fetch, hw] <;> cases exec (s.params.codes.decode w) s <;> rfl

end Sys2Proof.Machine
end

