-- ==== Sys2Proof/Laws/InOut.lean ====
section
/-!
SUPPORT. Laws/InOut.lean: all that an I/O request can do: what a device that answers leaves unchanged, when a device halts
the machine, and when it does not answer.
-/

namespace Sys2Proof.Machine

/-! ## The serial input -/

/-- The provider has no line that is not empty, or it has a next one. -/
theorem nextLine_eq_none {ls : List (List Word)} : nextLine ls = none ↔ ∀ l ∈ ls, l = [] := by
  induction ls with
  | nil => simp [nextLine]
  | cons l ls ih => cases l <;> simp [nextLine, ih]

theorem nextLine_replicate (n : Nat) (v : Word) (vs : List Word) (more : List (List Word)) :
    nextLine (List.replicate n [] ++ (v :: vs) :: more) = some (v :: vs, more) := by
  induction n with
  | zero => rfl
  | succ n ih => rw [List.replicate_succ, List.cons_append, nextLine, ih]

/-- The line fetched is not empty. -/
theorem nextLine_ne_nil {ls more : List (List Word)} {l : List Word} (h : nextLine ls = some (l, more)) : l ≠ [] := by
  induction ls with
  | nil => simp [nextLine] at h
  | cons a ls ih =>
    cases a with
    | nil => exact ih h
    | cons v vs =>
      simp only [nextLine, Option.some.injEq, Prod.mk.injEq] at h
      rw [← h.1]
      simp

/-- A serial read is blocked exactly when there is no input. -/
theorem fetchLine_eq_none {s : State} :
    s.fetchLine = none ↔ s.serialIn = [] ∧ ∀ l ∈ s.inputLines, l = [] := by
  unfold State.fetchLine
  cases h : s.serialIn with
  | cons v vs => simp
  | nil =>
    cases hn : nextLine s.inputLines with
    | none => simpa using nextLine_eq_none.1 hn
    | some p =>
      simp only [reduceCtorEq, true_and, false_iff]
      intro hall
      rw [nextLine_eq_none.2 hall] at hn
      cases hn

/-- The state in which there is input differs from the one before in the buffer and the lines only, and its buffer is
not empty. -/
theorem fetchLine_eq_some {s t : State} (h : s.fetchLine = some t) :
    t.serialIn ≠ [] ∧ t = { s with serialIn := t.serialIn, inputLines := t.inputLines } := by
  unfold State.fetchLine at h
  split at h
  · rename_i v vs hv
    cases h
    exact ⟨by rw [hv]; simp, rfl⟩
  · split at h
    · rename_i line more hn
      cases h
      exact ⟨nextLine_ne_nil hn, rfl⟩
    · cases h

/-! ## Devices -/

/-- What a device's reply leaves as it was. -/
structure DeviceFrame (s t : State) : Prop where
  regs : t.regs = s.regs
  cf : t.cf = s.cf
  pc : t.pc = s.pc
  halt : t.halt = s.halt
  tape : t.tape = s.tape
  rendererUp : t.rendererUp = s.rendererUp
  params : t.params = s.params
  schedule : t.schedule = s.schedule
  cycles : t.cycles = s.cycles

theorem DeviceFrame.refl (s : State) : DeviceFrame s s := ⟨rfl, rfl, rfl, rfl, rfl, rfl, rfl, rfl, rfl⟩

/-- All that a request can be answered with: done within the frame; halted at once for an undefined device or a cursor
beyond the window, with nothing changed; halted inside a clock reset; or blocked for want of input. -/
theorem serveIo_cases (s : State) (r : IoRequest) :
    (∃ v t, s.serveIo r = .done v t ∧ DeviceFrame s t) ∨
      (∃ h, s.serveIo r = .halted h s ∧
        (h = .unknownIo s.pc r.dev ∨
          (h = .memRange s.pc s.cursor ∧ s.params.memSize ≤ s.cursor.toNat))) ∨
      (s.serveIo r = .halted (.rendererQuit s.pc) s.zeroClock) ∨
      (s.serveIo r = .blocked ∧ s.serialIn = [] ∧ (∀ l ∈ s.inputLines, l = []) ∧
        (deviceAt s.params r.dev = some .serialIncoming ∨ deviceAt s.params r.dev = some .serialRead)) := by
  unfold State.serveIo
  cases hd : deviceAt s.params r.dev with
  | none => exact .inr (.inl ⟨_, rfl, .inl rfl⟩)
  | some d =>
    have clock (part : Word) : (∃ v t, s.clockDevice r part = .done v t ∧ DeviceFrame s t) ∨
        s.clockDevice r part = .halted (.rendererQuit s.pc) s.zeroClock := by
      unfold State.clockDevice State.clockReset
      split
      · split
        · split
          · exact .inl ⟨_, _, rfl, ⟨rfl, rfl, rfl, rfl, rfl, rfl, rfl, rfl, rfl⟩⟩
          · exact .inr rfl
        · exact .inl ⟨_, _, rfl, ⟨rfl, rfl, rfl, rfl, rfl, rfl, rfl, rfl, rfl⟩⟩
      · exact .inl ⟨_, _, rfl, .refl s⟩
    cases d
    case serialIncoming =>
      simp only [State.serveDevice, State.serialIncoming]
      cases hf : s.fetchLine with
      | none => exact .inr (.inr (.inr ⟨rfl, (fetchLine_eq_none.1 hf).1, (fetchLine_eq_none.1 hf).2, by simp⟩))
      | some t =>
        refine .inl ⟨_, t, rfl, ?_⟩
        rw [(fetchLine_eq_some hf).2]
        exact ⟨rfl, rfl, rfl, rfl, rfl, rfl, rfl, rfl, rfl⟩
    case serialRead =>
      simp only [State.serveDevice, State.serialRead]
      cases hf : s.fetchLine with
      | none => exact .inr (.inr (.inr ⟨rfl, (fetchLine_eq_none.1 hf).1, (fetchLine_eq_none.1 hf).2, by simp⟩))
      | some t =>
        obtain ⟨hne, ht⟩ := fetchLine_eq_some hf
        cases hv : t.serialIn with
        | nil => exact absurd hv hne
        | cons v vs =>
          refine .inl ⟨some v, { t with serialIn := vs }, by simp only [hv], ?_⟩
          rw [ht]
          exact ⟨rfl, rfl, rfl, rfl, rfl, rfl, rfl, rfl, rfl⟩
    case clockLoCs => exact (clock _).imp id fun h => .inr (.inl h)
    case clockHiCs => exact (clock _).imp id fun h => .inr (.inl h)
    case memRead =>
      simp only [State.serveDevice, State.memReadPort]
      split
      · exact .inl ⟨_, _, rfl, ⟨rfl, rfl, rfl, rfl, rfl, rfl, rfl, rfl, rfl⟩⟩
      · exact .inr (.inl ⟨_, rfl, .inr ⟨rfl, by omega⟩⟩)
    case memWrite =>
      simp only [State.serveDevice, State.memWritePort]
      split
      · exact .inl ⟨_, _, rfl, ⟨rfl, rfl, rfl, rfl, rfl, rfl, rfl, rfl, rfl⟩⟩
      · exact .inr (.inl ⟨_, rfl, .inr ⟨rfl, by omega⟩⟩)
    all_goals exact .inl ⟨_, _, rfl, ⟨rfl, rfl, rfl, rfl, rfl, rfl, rfl, rfl, rfl⟩⟩

/-- All that an IO instruction, gated in, can do. -/
theorem opIo_cases (rd device rs : Word) (s : State) :
    (∃ v t, s.serveIo (s.ioRequest rd device rs) = .done (some v) t ∧ DeviceFrame s t ∧
        opIo rd device rs s = .next (t.writeReg rd v).advance) ∨
      (∃ t, s.serveIo (s.ioRequest rd device rs) = .done none t ∧ DeviceFrame s t ∧
        opIo rd device rs s = .next t.advance) ∨
      (∃ h, opIo rd device rs s = .next (s.raiseHalt h) ∧
        (h = .unknownIo s.pc device ∨ h = .memRange s.pc s.cursor ∨ h = .hostAbort s.pc)) ∨
      opIo rd device rs s = .next (s.zeroClock.raiseHalt (.rendererQuit s.pc)) ∨
      (opIo rd device rs s = .fault .serialInputBlocked ∧ s.serialIn = [] ∧ (∀ l ∈ s.inputLines, l = []) ∧
        (deviceAt s.params device = some .serialIncoming ∨ deviceAt s.params device = some .serialRead)) := by
  unfold opIo
  rcases serveIo_cases s (s.ioRequest rd device rs) with ⟨v, t, h, hf⟩ | ⟨h, hh, hr⟩ | h | ⟨h, h1, h2, h3⟩
  · cases v with
    | none => exact .inr (.inl ⟨t, h, hf, by rw [h]; rfl⟩)
    | some v => exact .inl ⟨v, t, h, hf, by rw [h]; rfl⟩
  · refine .inr (.inr (.inl ⟨h, by rw [hh]; rfl, ?_⟩))
    exact hr.imp id fun h => .inl h.1
  · exact .inr (.inr (.inr (.inl (by rw [h]; rfl))))
  · rw [h]
    simp only [State.finishIo, State.blockedRead]
    split
    · exact .inr (.inr (.inl ⟨_, rfl, .inr (.inr rfl)⟩))
    · exact .inr (.inr (.inr (.inr ⟨rfl, h1, h2, h3⟩)))

/-- The memory a device that answers leaves is canonical if it was before. -/
theorem serveIo_done_mem {s t : State} {r : IoRequest} {v : Option Word} (h : s.serveIo r = .done v t)
    (hm : Memory.wf s.params.memSize s.mem = true) : Memory.wf s.params.memSize t.mem = true := by
  unfold State.serveIo at h
  cases hd : deviceAt s.params r.dev with
  | none => simp [hd] at h
  | some d =>
    simp only [hd] at h
    have fetch {u : State} (hu : s.fetchLine = some u) : u.mem = s.mem := by rw [(fetchLine_eq_some hu).2]
    cases d <;> simp only [State.serveDevice] at h
    case serialIncoming =>
      unfold State.serialIncoming at h
      split at h
      · rename_i u hu
        cases h
        rw [fetch hu]
        exact hm
      · cases h
    case serialRead =>
      unfold State.serialRead at h
      split at h
      · rename_i u hu
        split at h
        · cases h
          rw [show ({ u with serialIn := _ } : State).mem = s.mem from fetch hu]
          exact hm
        · cases h
      · cases h
    case memWrite =>
      unfold State.memWritePort at h
      split at h
      · cases h
        exact memPut_wf hm ‹_›
      · cases h
    case clockLoCs | clockHiCs =>
      unfold State.clockDevice State.clockReset at h
      split at h
      · split at h
        · split at h <;> cases h
          exact hm
        · cases h; exact hm
      · cases h; exact hm
    case memRead =>
      unfold State.memReadPort at h
      split at h <;> cases h
      exact hm
    all_goals cases h; exact hm

/-- A device that answers makes a quit pending only in a clock reset that polls. -/
theorem serveIo_done_quit {s t : State} {r : IoRequest} {v : Option Word} (h : s.serveIo r = .done v t) :
    t.quitPending = s.quitPending ∨ t.quitPending = true := by
  unfold State.serveIo at h
  cases hd : deviceAt s.params r.dev with
  | none => simp [hd] at h
  | some d =>
    simp only [hd] at h
    have fetch {u : State} (hu : s.fetchLine = some u) : u.quitPending = s.quitPending := by
      rw [(fetchLine_eq_some hu).2]
    cases d <;> simp only [State.serveDevice] at h
    case serialIncoming =>
      unfold State.serialIncoming at h
      split at h
      · cases h; exact .inl (fetch ‹_›)
      · cases h
    case serialRead =>
      unfold State.serialRead at h
      split at h
      · rename_i u hu
        split at h
        · cases h
          exact .inl (show u.quitPending = _ from fetch hu)
        · cases h
      · cases h
    case memWrite =>
      unfold State.memWritePort at h
      split at h <;> cases h
      exact .inl rfl
    case memRead =>
      unfold State.memReadPort at h
      split at h <;> cases h
      exact .inl rfl
    case clockLoCs | clockHiCs =>
      unfold State.clockDevice State.clockReset at h
      split at h
      · split at h
        · split at h <;> cases h
          exact .inr rfl
        · cases h; exact .inl rfl
      · cases h; exact .inl rfl
    all_goals cases h; exact .inl rfl

end Sys2Proof.Machine
end

