-- ==== Sys2Proof/Laws/PerInstr.lean ====
section
/-!
SUPPORT. Laws/PerInstr.lean: laws stated of every instruction as syntax, one lemma per constructor. Fields: an
instruction is the one that its decoded record stands for; INVALID has no record.
-/

namespace Sys2Proof

/-- An instruction with a record is the one the record stands for. -/
def Laws.Fields.Statement (i : Instr) : Prop :=
  match i.fields with
  | none => i = .invalid
  | some f => Instr.ofFields f = i

theorem Laws.Fields.invalid : Laws.Fields.Statement .invalid := rfl
theorem Laws.Fields.add (rd ra rb : Word) :
    Laws.Fields.Statement (.add rd ra rb) := rfl
theorem Laws.Fields.addi (rd ra imm : Word) :
    Laws.Fields.Statement (.addi rd ra imm) := rfl
theorem Laws.Fields.sub (rd ra rb : Word) :
    Laws.Fields.Statement (.sub rd ra rb) := rfl
theorem Laws.Fields.or (rd ra rb : Word) :
    Laws.Fields.Statement (.or rd ra rb) := rfl
theorem Laws.Fields.ori (rd ra imm : Word) :
    Laws.Fields.Statement (.ori rd ra imm) := rfl
theorem Laws.Fields.xor (rd ra rb : Word) :
    Laws.Fields.Statement (.xor rd ra rb) := rfl
theorem Laws.Fields.xori (rd ra imm : Word) :
    Laws.Fields.Statement (.xori rd ra imm) := rfl
theorem Laws.Fields.and (rd ra rb : Word) :
    Laws.Fields.Statement (.and rd ra rb) := rfl
theorem Laws.Fields.andi (rd ra imm : Word) :
    Laws.Fields.Statement (.andi rd ra imm) := rfl
theorem Laws.Fields.shl (rd ra rb : Word) :
    Laws.Fields.Statement (.shl rd ra rb) := rfl
theorem Laws.Fields.shr (rd ra rb : Word) :
    Laws.Fields.Statement (.shr rd ra rb) := rfl
theorem Laws.Fields.shi (rd ra : Word) (zero : Bool) (ty : ShiftType) (dist : BitVec 3) :
    Laws.Fields.Statement (.shi rd ra zero ty dist) := by simp [Laws.Fields.Statement, Instr.fields, Instr.ofFields]
theorem Laws.Fields.cmp (zero : Bool) (ctype : CmpType) (cm : Comparator) (a b : Word) :
    Laws.Fields.Statement (.cmp zero ctype cm a b) := by simp [Laws.Fields.Statement, Instr.fields, Instr.ofFields]
theorem Laws.Fields.fm (rd rs : Word) (zero : Bool) (mode : FmMode) (frac : BitVec 4) :
    Laws.Fields.Statement (.fm rd rs zero mode frac) := by simp [Laws.Fields.Statement, Instr.fields, Instr.ofFields]
theorem Laws.Fields.ld (rd ra imm : Word) :
    Laws.Fields.Statement (.ld rd ra imm) := rfl
theorem Laws.Fields.st (rs ra imm : Word) :
    Laws.Fields.Statement (.st rs ra imm) := rfl
theorem Laws.Fields.lbl (keyHi keyLo val : Word) :
    Laws.Fields.Statement (.lbl keyHi keyLo val) := rfl
theorem Laws.Fields.hlt (a b c : Word) :
    Laws.Fields.Statement (.hlt a b c) := rfl
theorem Laws.Fields.jup (keyHi keyLo rc : Word) :
    Laws.Fields.Statement (.jup keyHi keyLo rc) := rfl
theorem Laws.Fields.jdn (keyHi keyLo rc : Word) :
    Laws.Fields.Statement (.jdn keyHi keyLo rc) := rfl
theorem Laws.Fields.io (rd device rs : Word) :
    Laws.Fields.Statement (.io rd device rs) := rfl
theorem Laws.Fields.addT (rd ra rb : Word) :
    Laws.Fields.Statement (.addT rd ra rb) := rfl
theorem Laws.Fields.addiT (rd ra imm : Word) :
    Laws.Fields.Statement (.addiT rd ra imm) := rfl
theorem Laws.Fields.subT (rd ra rb : Word) :
    Laws.Fields.Statement (.subT rd ra rb) := rfl
theorem Laws.Fields.orT (rd ra rb : Word) :
    Laws.Fields.Statement (.orT rd ra rb) := rfl
theorem Laws.Fields.oriT (rd ra imm : Word) :
    Laws.Fields.Statement (.oriT rd ra imm) := rfl
theorem Laws.Fields.xorT (rd ra rb : Word) :
    Laws.Fields.Statement (.xorT rd ra rb) := rfl
theorem Laws.Fields.xoriT (rd ra imm : Word) :
    Laws.Fields.Statement (.xoriT rd ra imm) := rfl
theorem Laws.Fields.andT (rd ra rb : Word) :
    Laws.Fields.Statement (.andT rd ra rb) := rfl
theorem Laws.Fields.andiT (rd ra imm : Word) :
    Laws.Fields.Statement (.andiT rd ra imm) := rfl
theorem Laws.Fields.shlT (rd ra rb : Word) :
    Laws.Fields.Statement (.shlT rd ra rb) := rfl
theorem Laws.Fields.shrT (rd ra rb : Word) :
    Laws.Fields.Statement (.shrT rd ra rb) := rfl
theorem Laws.Fields.shiT (rd ra : Word) (zero : Bool) (ty : ShiftType) (dist : BitVec 3) :
    Laws.Fields.Statement (.shiT rd ra zero ty dist) := by simp [Laws.Fields.Statement, Instr.fields, Instr.ofFields]
theorem Laws.Fields.cmpT (zero : Bool) (ctype : CmpType) (cm : Comparator) (a b : Word) :
    Laws.Fields.Statement (.cmpT zero ctype cm a b) := by simp [Laws.Fields.Statement, Instr.fields, Instr.ofFields]
theorem Laws.Fields.fmT (rd rs : Word) (zero : Bool) (mode : FmMode) (frac : BitVec 4) :
    Laws.Fields.Statement (.fmT rd rs zero mode frac) := by simp [Laws.Fields.Statement, Instr.fields, Instr.ofFields]
theorem Laws.Fields.ldT (rd ra imm : Word) :
    Laws.Fields.Statement (.ldT rd ra imm) := rfl
theorem Laws.Fields.stT (rs ra imm : Word) :
    Laws.Fields.Statement (.stT rs ra imm) := rfl
theorem Laws.Fields.lblT (keyHi keyLo val : Word) :
    Laws.Fields.Statement (.lblT keyHi keyLo val) := rfl
theorem Laws.Fields.hltT (a b c : Word) :
    Laws.Fields.Statement (.hltT a b c) := rfl
theorem Laws.Fields.jupT (keyHi keyLo rc : Word) :
    Laws.Fields.Statement (.jupT keyHi keyLo rc) := rfl
theorem Laws.Fields.jdnT (keyHi keyLo rc : Word) :
    Laws.Fields.Statement (.jdnT keyHi keyLo rc) := rfl
theorem Laws.Fields.ioT (rd device rs : Word) :
    Laws.Fields.Statement (.ioT rd device rs) := rfl
theorem Laws.Fields.addF (rd ra rb : Word) :
    Laws.Fields.Statement (.addF rd ra rb) := rfl
theorem Laws.Fields.addiF (rd ra imm : Word) :
    Laws.Fields.Statement (.addiF rd ra imm) := rfl
theorem Laws.Fields.subF (rd ra rb : Word) :
    Laws.Fields.Statement (.subF rd ra rb) := rfl
theorem Laws.Fields.orF (rd ra rb : Word) :
    Laws.Fields.Statement (.orF rd ra rb) := rfl
theorem Laws.Fields.oriF (rd ra imm : Word) :
    Laws.Fields.Statement (.oriF rd ra imm) := rfl
theorem Laws.Fields.xorF (rd ra rb : Word) :
    Laws.Fields.Statement (.xorF rd ra rb) := rfl
theorem Laws.Fields.xoriF (rd ra imm : Word) :
    Laws.Fields.Statement (.xoriF rd ra imm) := rfl
theorem Laws.Fields.andF (rd ra rb : Word) :
    Laws.Fields.Statement (.andF rd ra rb) := rfl
theorem Laws.Fields.andiF (rd ra imm : Word) :
    Laws.Fields.Statement (.andiF rd ra imm) := rfl
theorem Laws.Fields.shlF (rd ra rb : Word) :
    Laws.Fields.Statement (.shlF rd ra rb) := rfl
theorem Laws.Fields.shrF (rd ra rb : Word) :
    Laws.Fields.Statement (.shrF rd ra rb) := rfl
theorem Laws.Fields.shiF (rd ra : Word) (zero : Bool) (ty : ShiftType) (dist : BitVec 3) :
    Laws.Fields.Statement (.shiF rd ra zero ty dist) := by simp [Laws.Fields.Statement, Instr.fields, Instr.ofFields]
theorem Laws.Fields.cmpF (zero : Bool) (ctype : CmpType) (cm : Comparator) (a b : Word) :
    Laws.Fields.Statement (.cmpF zero ctype cm a b) := by simp [Laws.Fields.Statement, Instr.fields, Instr.ofFields]
theorem Laws.Fields.fmF (rd rs : Word) (zero : Bool) (mode : FmMode) (frac : BitVec 4) :
    Laws.Fields.Statement (.fmF rd rs zero mode frac) := by simp [Laws.Fields.Statement, Instr.fields, Instr.ofFields]
theorem Laws.Fields.ldF (rd ra imm : Word) :
    Laws.Fields.Statement (.ldF rd ra imm) := rfl
theorem Laws.Fields.stF (rs ra imm : Word) :
    Laws.Fields.Statement (.stF rs ra imm) := rfl
theorem Laws.Fields.lblF (keyHi keyLo val : Word) :
    Laws.Fields.Statement (.lblF keyHi keyLo val) := rfl
theorem Laws.Fields.hltF (a b c : Word) :
    Laws.Fields.Statement (.hltF a b c) := rfl
theorem Laws.Fields.jupF (keyHi keyLo rc : Word) :
    Laws.Fields.Statement (.jupF keyHi keyLo rc) := rfl
theorem Laws.Fields.jdnF (keyHi keyLo rc : Word) :
    Laws.Fields.Statement (.jdnF keyHi keyLo rc) := rfl
theorem Laws.Fields.ioF (rd device rs : Word) :
    Laws.Fields.Statement (.ioF rd device rs) := rfl

/-- Every instruction is the one that its record stands for. -/
theorem instr_is_of_its_fields (i : Instr) : Laws.Fields.Statement i := by
  cases i
  case invalid => exact Laws.Fields.invalid
  case add => exact Laws.Fields.add ..
  case addi => exact Laws.Fields.addi ..
  case sub => exact Laws.Fields.sub ..
  case or => exact Laws.Fields.or ..
  case ori => exact Laws.Fields.ori ..
  case xor => exact Laws.Fields.xor ..
  case xori => exact Laws.Fields.xori ..
  case and => exact Laws.Fields.and ..
  case andi => exact Laws.Fields.andi ..
  case shl => exact Laws.Fields.shl ..
  case shr => exact Laws.Fields.shr ..
  case shi => exact Laws.Fields.shi ..
  case cmp => exact Laws.Fields.cmp ..
  case fm => exact Laws.Fields.fm ..
  case ld => exact Laws.Fields.ld ..
  case st => exact Laws.Fields.st ..
  case lbl => exact Laws.Fields.lbl ..
  case hlt => exact Laws.Fields.hlt ..
  case jup => exact Laws.Fields.jup ..
  case jdn => exact Laws.Fields.jdn ..
  case io => exact Laws.Fields.io ..
  case addT => exact Laws.Fields.addT ..
  case addiT => exact Laws.Fields.addiT ..
  case subT => exact Laws.Fields.subT ..
  case orT => exact Laws.Fields.orT ..
  case oriT => exact Laws.Fields.oriT ..
  case xorT => exact Laws.Fields.xorT ..
  case xoriT => exact Laws.Fields.xoriT ..
  case andT => exact Laws.Fields.andT ..
  case andiT => exact Laws.Fields.andiT ..
  case shlT => exact Laws.Fields.shlT ..
  case shrT => exact Laws.Fields.shrT ..
  case shiT => exact Laws.Fields.shiT ..
  case cmpT => exact Laws.Fields.cmpT ..
  case fmT => exact Laws.Fields.fmT ..
  case ldT => exact Laws.Fields.ldT ..
  case stT => exact Laws.Fields.stT ..
  case lblT => exact Laws.Fields.lblT ..
  case hltT => exact Laws.Fields.hltT ..
  case jupT => exact Laws.Fields.jupT ..
  case jdnT => exact Laws.Fields.jdnT ..
  case ioT => exact Laws.Fields.ioT ..
  case addF => exact Laws.Fields.addF ..
  case addiF => exact Laws.Fields.addiF ..
  case subF => exact Laws.Fields.subF ..
  case orF => exact Laws.Fields.orF ..
  case oriF => exact Laws.Fields.oriF ..
  case xorF => exact Laws.Fields.xorF ..
  case xoriF => exact Laws.Fields.xoriF ..
  case andF => exact Laws.Fields.andF ..
  case andiF => exact Laws.Fields.andiF ..
  case shlF => exact Laws.Fields.shlF ..
  case shrF => exact Laws.Fields.shrF ..
  case shiF => exact Laws.Fields.shiF ..
  case cmpF => exact Laws.Fields.cmpF ..
  case fmF => exact Laws.Fields.fmF ..
  case ldF => exact Laws.Fields.ldF ..
  case stF => exact Laws.Fields.stF ..
  case lblF => exact Laws.Fields.lblF ..
  case hltF => exact Laws.Fields.hltF ..
  case jupF => exact Laws.Fields.jupF ..
  case jdnF => exact Laws.Fields.jdnF ..
  case ioF => exact Laws.Fields.ioF ..

theorem ofFields_of_fields {i : Instr} {f : Fields} (h : i.fields = some f) : Instr.ofFields f = i := by
  have := instr_is_of_its_fields i
  simpa [Laws.Fields.Statement, h] using this

theorem fields_eq_none {i : Instr} : i.fields = none ↔ i = .invalid := by
  constructor
  · intro h
    have := instr_is_of_its_fields i
    simpa [Laws.Fields.Statement, h] using this
  · rintro rfl; rfl

end Sys2Proof
end

