-- ==== Sys2Proof/Laws/Exec.lean ====
section
/-!
SUPPORT. Laws/Exec.lean: exec by op instead of by instruction: each of the 63 gated arms is its op's meaning under its
cond's gate. A proof about every instruction splits on the 21 ops once, after this lemma.
-/

namespace Sys2Proof.Machine

/-- The meaning of an op on the operand fields of a record. -/
def opMeaning (f : Fields) : State → Result :=
  match f.op with
  | .add => opAdd f.a f.b f.c
  | .addi => opAddi f.a f.b f.c
  | .sub => opSub f.a f.b f.c
  | .or => opOr f.a f.b f.c
  | .ori => opOri f.a f.b f.c
  | .xor => opXor f.a f.b f.c
  | .xori => opXori f.a f.b f.c
  | .and => opAnd f.a f.b f.c
  | .andi => opAndi f.a f.b f.c
  | .shl => opShl f.a f.b f.c
  | .shr => opShr f.a f.b f.c
  | .shi => opShi f.a f.b (subZero f.c) (shiType f.c) (shiDist f.c)
  | .cmp => opCmp (subZero f.a) (cmpType f.a) (cmpComparator f.a) f.b f.c
  | .fm => opFm f.a f.b (subZero f.c) (fmMode f.c) (fmFrac f.c)
  | .ld => opLd f.a f.b f.c
  | .st => opSt f.a f.b f.c
  | .lbl => opLbl f.a f.b f.c
  | .hlt => opHlt
  | .jup => opJup f.a f.b f.c
  | .jdn => opJdn f.a f.b f.c
  | .io => opIo f.a f.b f.c

theorem exec_ofFields (f : Fields) (s : State) : exec (Instr.ofFields f) s = gated f.cond s (opMeaning f) := by
  obtain ⟨o, c, a, b, v⟩ := f
  cases o <;> cases c <;> rfl

/-- Every arm but INVALID's is its op's meaning under its gate. -/
theorem exec_of_fields {i : Instr} {f : Fields} (h : i.fields = some f) (s : State) :
    exec i s = gated f.cond s (opMeaning f) := by
  rw [← ofFields_of_fields h, exec_ofFields]

theorem exec_invalid (s : State) : exec .invalid s = .next (s.raiseHalt (.invalid s.pc s.currentWord)) := rfl

/-- exec halts on INVALID, runs the op's meaning when the gate is true, and only advances pc when it is not. -/
theorem exec_cases (i : Instr) (s : State) :
    (i = .invalid ∧ exec i s = .next (s.raiseHalt (.invalid s.pc s.currentWord))) ∨
      (∃ f, i.fields = some f ∧ gate f.cond s.cf = true ∧ exec i s = opMeaning f s) ∨
      (∃ f, i.fields = some f ∧ gate f.cond s.cf = false ∧ exec i s = .next s.advance) := by
  cases hf : i.fields with
  | none =>
    have := fields_eq_none.1 hf
    subst this
    exact .inl ⟨rfl, rfl⟩
  | some f =>
    rw [exec_of_fields hf]
    rcases gated_cases (c := f.cond) (s := s) (body := opMeaning f) with ⟨h1, h2⟩ | ⟨h1, h2⟩
    · exact .inr (.inl ⟨f, rfl, h1, h2⟩)
    · exact .inr (.inr ⟨f, rfl, h1, h2⟩)

/-- The register an op that only computes writes, and with what. -/
inductive OpEffect (s : State) : Fields → Result → Prop where
  | write (f : Fields) (rd v : Word) (h : ∀ i, i.fields = some f → destination s i = some rd) :
      OpEffect s f (.next (s.writeReg rd v).advance)
  | flag (f : Fields) (b : Bool) (h : f.op = .cmp) : OpEffect s f (.next { s with cf := b }.advance)
  | label (f : Fields) (h : f.op = .lbl) : OpEffect s f (.next s.advance)
  | jump (f : Fields) (i : Nat) (h : f.op = .jup ∨ f.op = .jdn) (hi : i < s.tape.length) :
      OpEffect s f (.next { s with pc := i })
  | halt (f : Fields) (h : Halt)
      (hop : f.op = .hlt ∧ h = .hlt s.pc ∨
        (f.op = .shi ∨ f.op = .cmp ∨ f.op = .fm) ∧ Fields.subErr f = true ∧ h = .badSubfield s.pc s.currentWord ∨
        (f.op = .jup ∨ f.op = .jdn) ∧ ∃ k v, h = .labelNotFound s.pc k v) :
      OpEffect s f (.next (s.raiseHalt h))
  | io (f : Fields) (h : f.op = .io) : OpEffect s f (opIo f.a f.b f.c s)

/-- Everything the meaning of an op can do, IO's own cases aside (opIo_cases). -/
theorem opMeaning_effect (f : Fields) (s : State) : OpEffect s f (opMeaning f s) := by
  have dest {rd : Word} (h : match f.op with
      | .cmp | .lbl | .hlt | .jup | .jdn => False
      | .st => rd = mask6 ((s.readReg f.b).toNat + f.c.toNat)
      | _ => rd = f.a) : ∀ i : Instr, i.fields = some f → destination s i = some rd := by
    intro i hi
    unfold destination
    rw [hi]
    simp only
    split at h <;> simp_all
  have jump (r : JumpRequest) (hop : f.op = .jup ∨ f.op = .jdn) : OpEffect s f (s.serveJump r) := by
    rcases serveJump_cases s r with ⟨i, h1, h2⟩ | ⟨_, h2⟩
    · rw [h2]; exact .jump f i hop (search_lt h1)
    · rw [h2]; exact .halt f _ (.inr (.inr ⟨hop, _, _, rfl⟩))
  obtain ⟨o, c, a, b, v⟩ := f
  cases o
  case shi =>
    simp only [opMeaning, opShi]
    split
    · rename_i hz
      exact .halt _ _ (.inr (.inl ⟨.inl rfl, by simp [Fields.subErr, hz], rfl⟩))
    · exact .write _ _ _ (dest rfl)
  case cmp =>
    simp only [opMeaning, opCmp]
    split
    · rename_i hz
      exact .halt _ _ (.inr (.inl ⟨.inr (.inl rfl), by simp [Fields.subErr, hz], rfl⟩))
    · exact .flag _ _ rfl
  case fm =>
    simp only [opMeaning, opFm]
    split
    · rename_i hz
      exact .halt _ _ (.inr (.inl ⟨.inr (.inr rfl), by simp [Fields.subErr, hz], rfl⟩))
    · exact .write _ _ _ (dest rfl)
  case st =>
    refine .write _ _ _ (dest ?_)
    apply BitVec.eq_of_toNat_eq
    simp [effectiveIndex]
  case lbl => exact .label _ rfl
  case hlt => exact .halt _ _ (.inl ⟨rfl, rfl⟩)
  case jup => exact jump _ (.inl rfl)
  case jdn => exact jump _ (.inr rfl)
  case io => exact .io _ rfl
  all_goals exact .write _ _ _ (dest rfl)

end Sys2Proof.Machine
end

