-- ==== Sys2Proof/Laws/Values.lean ====
section
/-!
SUPPORT. Laws/Values.lean: the value computations of Machine/Operands.lean as arithmetic on numbers: shifts as products and
quotients by powers of two, keys, cursors and the clock as sums, and two's complement as the integer value.
-/

namespace Sys2Proof.Machine

theorem mul_lt (a b : Word) : a.toNat * b.toNat < 4096 :=
  Nat.lt_of_le_of_lt (Nat.mul_le_mul (Nat.le_of_lt_succ a.isLt) (Nat.le_of_lt_succ b.isLt)) (by decide)

theorem sext6_eq_toInt (v : Word) : sext6 v = v.toInt := by revert v; decide

theorem sext12_eq_toInt (v : Word12) : sext12 v = v.toInt := by
  simp only [sext12, BitVec.toInt_eq_toNat_cond]
  split <;> split <;> omega

theorem tc6_toNat (v : Word) : (tc6 v).toNat = ((v.toNat ^^^ 63) + 1) % 64 := by simp [tc6]

theorem tc6_eq_neg (v : Word) : tc6 v = 0 - v := by revert v; decide

theorem effectiveIndex_eq (base imm : Word) : effectiveIndex base imm = mask6 (base.toNat + imm.toNat) := by
  apply BitVec.eq_of_toNat_eq
  simp [effectiveIndex]

/-! ## Shifts -/

theorem lsl_eq_mul (v : Word) (d : Nat) : lsl v d = mask6 (v.toNat * 2 ^ d) := by
  apply BitVec.eq_of_toNat_eq
  simp [lsl, Nat.shiftLeft_eq]

theorem lsr_eq_div (v : Word) (d : Nat) : lsr v d = mask6 (v.toNat / 2 ^ d) := by
  apply BitVec.eq_of_toNat_eq
  have : v.toNat / 2 ^ d < 64 := Nat.lt_of_le_of_lt (Nat.div_le_self _ _) v.isLt
  simp [lsr, Nat.shiftRight_eq_div_pow, Nat.mod_eq_of_lt this]

theorem rol6_eq_or (v : Word) (d : Nat) :
    rol6 v d = mask6 (v.toNat * 2 ^ (d % 6) ||| v.toNat / 2 ^ (6 - d % 6)) := by
  apply BitVec.eq_of_toNat_eq
  simp [rol6, Nat.shiftLeft_eq, Nat.shiftRight_eq_div_pow]
  congr 1
  exact (Nat.mod_eq_of_lt (Nat.lt_of_le_of_lt (Nat.div_le_self _ _) v.isLt)).symm

/-- Arithmetic shift right of 6 bits: the quotient with the vacated high bits filled when bit 5 is set. -/
theorem asr_eq_or (v : Word) (d : Nat) :
    asr v d = if v.toNat < 32 then mask6 (v.toNat / 2 ^ d)
      else mask6 (v.toNat / 2 ^ d ||| (2 ^ min d 6 - 1) * 2 ^ (6 - min d 6)) := by
  have hm : v.msb = decide (32 ≤ v.toNat) := by rw [BitVec.msb_eq_decide]
  simp only [asr, hm]
  by_cases h : v.toNat < 32
  · rw [if_pos h, ← lsr_eq_div]
    simp [lsr, Nat.not_le.2 h]
  · rw [if_neg h]
    simp only [Nat.not_lt.1 h, decide_true, if_true]
    apply BitVec.eq_of_toNat_eq
    simp [signmask, Nat.shiftLeft_eq, Nat.shiftRight_eq_div_pow]
    congr 1
    exact (Nat.mod_eq_of_lt (Nat.lt_of_le_of_lt (Nat.div_le_self _ _) v.isLt)).symm

/-- The same at 12 bits, truncated to 6. -/
theorem asr12_setWidth_eq_or (v : Word12) (d : Nat) :
    (asr v d).setWidth 6 = if v.toNat < 2048 then mask6 (v.toNat / 2 ^ d)
      else mask6 (v.toNat / 2 ^ d ||| (2 ^ min d 12 - 1) * 2 ^ (12 - min d 12)) := by
  have hm : v.msb = decide (2048 ≤ v.toNat) := by rw [BitVec.msb_eq_decide]
  simp only [asr, hm]
  by_cases h : v.toNat < 2048
  · rw [if_pos h]
    apply BitVec.eq_of_toNat_eq
    simp [Nat.not_le.2 h, Nat.shiftRight_eq_div_pow]
  · rw [if_neg h]
    simp only [Nat.not_lt.1 h, decide_true, if_true]
    apply BitVec.eq_of_toNat_eq
    simp [signmask, Nat.shiftLeft_eq, Nat.shiftRight_eq_div_pow]

/-! ## Keys, the clock and the cursor -/

theorem labelKey_toNat (a b : Word) : (labelKey a b).toNat = 64 * a.toNat + b.toNat := by
  simp only [labelKey, BitVec.toNat_append]
  rw [← Nat.shiftLeft_add_eq_or_of_lt (by omega), Nat.shiftLeft_eq, Nat.mul_comm]

theorem labelKey_eq_ofNat (a b : Word) : labelKey a b = BitVec.ofNat 12 (64 * a.toNat + b.toNat) := by
  rw [← labelKey_toNat]
  simp

theorem labelKey_inj {a b c d : Word} : labelKey a b = labelKey c d ↔ a = c ∧ b = d := by
  constructor
  · intro h
    have h1 := congrArg BitVec.toNat h
    rw [labelKey_toNat, labelKey_toNat] at h1
    constructor <;> apply BitVec.eq_of_toNat_eq <;> omega
  · rintro ⟨rfl, rfl⟩
    rfl

theorem clockLo_eq (v : Word12) : clockLo v = mask6 (v.toNat % 64) := by
  apply BitVec.eq_of_toNat_eq
  simp [clockLo, BitVec.extractLsb'_toNat]

theorem clockHi_eq (v : Word12) : clockHi v = mask6 (v.toNat / 64) := by
  apply BitVec.eq_of_toNat_eq
  simp [clockHi, BitVec.extractLsb'_toNat, Nat.shiftRight_eq_div_pow]

theorem clockAt_toNat (unit wall baseline : Nat) :
    (clockAt unit wall baseline).toNat = min 4095 ((wall - baseline) / unit) := by
  simp [clockAt]

theorem cursorSetLo_eq (k : Cursor) (v : Word) :
    cursorSetLo k v = BitVec.ofNat 18 (k.toNat / 64 * 64 + v.toNat) := by
  apply BitVec.eq_of_toNat_eq
  have := k.isLt
  simp only [cursorSetLo, BitVec.toNat_append, BitVec.extractLsb'_toNat, Nat.shiftRight_eq_div_pow,
    BitVec.toNat_ofNat]
  rw [← Nat.shiftLeft_add_eq_or_of_lt (by omega), Nat.shiftLeft_eq]
  omega

theorem cursorSetMid_eq (k : Cursor) (v : Word) :
    cursorSetMid k v = BitVec.ofNat 18 (k.toNat / 4096 * 4096 + v.toNat * 64 + k.toNat % 64) := by
  apply BitVec.eq_of_toNat_eq
  have := k.isLt
  simp only [cursorSetMid, BitVec.toNat_append, BitVec.extractLsb'_toNat, Nat.shiftRight_eq_div_pow,
    BitVec.toNat_ofNat]
  rw [← Nat.shiftLeft_add_eq_or_of_lt (by omega), ← Nat.shiftLeft_add_eq_or_of_lt (by omega), Nat.shiftLeft_eq,
    Nat.shiftLeft_eq]
  omega

theorem cursorSetHi_eq (k : Cursor) (v : Word) :
    cursorSetHi k v = BitVec.ofNat 18 (v.toNat * 4096 + k.toNat % 4096) := by
  apply BitVec.eq_of_toNat_eq
  have := k.isLt
  simp only [cursorSetHi, BitVec.toNat_append, BitVec.extractLsb'_toNat, Nat.shiftRight_eq_div_pow,
    BitVec.toNat_ofNat]
  rw [← Nat.shiftLeft_add_eq_or_of_lt (by omega), Nat.shiftLeft_eq]
  omega

theorem cursorNext_toNat {size : Nat} (h1 : 1 ≤ size) (h2 : size ≤ 2 ^ 18) (k : Cursor) :
    (cursorNext size k).toNat = (k.toNat + 1) % size := by
  simp only [cursorNext, BitVec.toNat_ofNat]
  exact Nat.mod_eq_of_lt (Nat.lt_of_lt_of_le (Nat.mod_lt _ h1) h2)

end Sys2Proof.Machine
end

