-- ==== Sys2Proof/Laws/Completion.lean ====
section
/-!
SUPPORT. Laws/Completion.lean: how a statement about the three gated forms of an instruction comes from one about its
ungated form, how the words of an op decode under each cond, which words are open labels, and which device an index
reaches.
-/

namespace Sys2Proof.Machine

/-- The gated forms complete as the ungated one does. -/
theorem completesInEachForm {i iT iF : Instr} {s t : State} {Q : State → Prop} (h : exec i s = .next t)
    (hT : exec iT s = gated .ifTrue s (exec i)) (hF : exec iF s = gated .ifFalse s (exec i)) (hq : Q t) :
    CompletesInEachForm i iT iF s Q := by
  refine ⟨⟨t, h, hq⟩, fun hc => ⟨t, ?_, hq⟩, fun hc => ⟨t, ?_, hq⟩⟩
  · rw [hT, gated_in (by simp [gate, hc])]
    exact h
  · rw [hF, gated_in (by simp [gate, hc])]
    exact h

/-- An instruction that only writes a register, in its three forms. -/
theorem completes_writeBack {i iT iF : Instr} {s : State} {rd v v' : Word} (h : exec i s = s.writeBack rd v)
    (hT : exec iT s = gated .ifTrue s (exec i)) (hF : exec iF s = gated .ifFalse s (exec i)) (hv : v = v') :
    CompletesInEachForm i iT iF s fun t => WritesOnlyRegister s t rd v' := by
  subst hv
  obtain ⟨t, ht, hw⟩ := writeBack_writesOnly s rd v
  exact completesInEachForm (h.trans ht) hT hF hw

theorem completes_io {rd d rs : Word} {s t : State} {Q : State → Prop} (h : opIo rd d rs s = .next t) (hq : Q t) :
    CompletesInEachForm (.io rd d rs) (.ioT rd d rs) (.ioF rd d rs) s Q :=
  completesInEachForm (i := .io rd d rs) h rfl rfl hq

/-- Two statements of one completion are one. -/
theorem CompletesInEachForm.and {i iT iF : Instr} {s : State} {Q R : State → Prop}
    (h1 : CompletesInEachForm i iT iF s Q) (h2 : CompletesInEachForm i iT iF s R) :
    CompletesInEachForm i iT iF s fun t => Q t ∧ R t := by
  have both {j : Instr} (h1 : ∃ t, exec j s = .next t ∧ Q t) (h2 : ∃ t, exec j s = .next t ∧ R t) :
      ∃ t, exec j s = .next t ∧ Q t ∧ R t := by
    obtain ⟨t, e, q⟩ := h1
    obtain ⟨u, e', r⟩ := h2
    rw [e] at e'
    cases e'
    exact ⟨t, e, q, r⟩
  exact ⟨both h1.1 h2.1, fun h => both (h1.2.1 h) (h2.2.1 h), fun h => both (h1.2.2 h) (h2.2.2 h)⟩

/-! ## Words -/

/-- The words of an op under each cond decode to the instructions of its records. -/
theorem encodedAs_ofFields (o : Op) (a b c : Word) :
    EncodedAs o.code a b c (.ofFields ⟨o, .always, a, b, c⟩) (.ofFields ⟨o, .ifTrue, a, b, c⟩)
      (.ofFields ⟨o, .ifFalse, a, b, c⟩) := by
  have word (d : Cond) : decode (mkWord (mask6 (d.code * 21 + o.code + 1)) a b c) = .ofFields ⟨o, d, a, b, c⟩ := by
    rw [← codeIn_default_conds, ← codeIn_default_ops]
    have := decode_word Codes.wf_default ⟨o, d, a, b, c⟩
    rwa [place_default] at this
  refine ⟨?_, ?_, ?_⟩
  · convert word .always using 3; simp [Cond.code]
  · convert word .ifTrue using 3; simp only [Cond.code]; congr 1; omega
  · convert word .ifFalse using 3; simp only [Cond.code]; congr 1; omega

theorem op_of_fields {i : Instr} {f : Fields} (h : i.fields = some f) : i.op = some f.op := by simp [Instr.op, h]

/-! ## Labels -/

/-- The environment's match of a tape entry is the spec's open label (R186). -/
theorem matchesLabel_iff (s : State) (a b v : Word) (i : Nat) :
    s.matchesLabel (labelKey a b) v i = true ↔ IsOpenLabel s a b v i := by
  unfold State.matchesLabel IsOpenLabel
  cases hw : s.tape[i]? with
  | none => simp
  | some q =>
    simp only [Option.some.injEq, exists_eq_left']
    by_cases hF : fieldF q = 0#6
    · simp [labelQuery, decode_of_fieldF_zero hF, Instr.op, Instr.fields]
    · have hf := decode_fields (k := s.params.codes) hF
      have hd := ofFields_of_fields hf
      generalize hfe : s.params.codes.operands (s.params.codes.decodeFields q hF) = f at hf hd
      simp only [labelQuery, Instr.op, Instr.cond, hf, Option.map_some]
      rw [← hd]
      obtain ⟨o, c, x, y, z⟩ := f
      by_cases ho : o = .lbl
      · subst ho
        have hop : (s.params.codes.decodeFields q hF).op = .lbl := by rw [← Codes.operands_op (k := s.params.codes), hfe]
        rw [Codes.operands_fixed (.inl hop)] at hfe
        obtain ⟨ha, hb, hc⟩ : fieldA q = x ∧ fieldB q = y ∧ fieldC q = z :=
          ⟨congrArg Fields.a hfe, congrArg Fields.b hfe, congrArg Fields.c hfe⟩
        cases c <;> cases hcf : s.cf <;> simp [Instr.ofFields, gate, labelKey_inj, and_assoc, ha, hb, hc]
      · cases o <;> first | exact absurd rfl ho | (cases c <;> simp [Instr.ofFields])

/-! ## Devices -/

/-- An index that names a device which is present reaches it. -/
theorem serveIo_of_present {s : State} {r : IoRequest} {d : Device} (h : s.params.codes.deviceOf r.dev = some d)
    (hp : Device.present s.params d = true) : s.serveIo r = s.serveDevice r d := by
  simp [State.serveIo, deviceAt, h, hp]

/-- Every register after a write and an advance. -/
theorem registersBut_writeReg (s : State) (rd v : Word) : RegistersBut s (s.writeReg rd v).advance rd v := fun j => by
  rw [readReg_advance, readReg_writeReg]

end Sys2Proof.Machine
end

