-- ==== Sys2Proof/Tests/Slice0.lean ====
section
/-!
SUPPORT. Tests/Slice0.lean: the model's own tests. Ill-formed terms that WellFormed refuses; every constructor's word, written
out bit by bit from 30_encoding.md R60 to R76; one step of each op against a vector of 95_test_vectors.md (its id is in
the docstring); and, for every statement of Certificates/Slice0/Obligations.lean that has hypotheses, a concrete state
and operands that meet them, each clause at the bounds of its range.
-/

namespace Sys2Proof.Machine.Tests

/-! ## Well-formedness refuses each ill-formed term (R67, R78) -/

theorem test_invalid_is_ill_formed : Instr.wellFormed .invalid = false := by decide

theorem test_shi_subfield_is_ill_formed :
    Instr.wellFormed (.shi 2 1 true .lsl 0) = false ∧ Instr.wellFormed (.shiT 2 1 true .rol 7) = false ∧
      Instr.wellFormed (.shiF 2 1 true .asr 3) = false ∧ Instr.wellFormed (.shi 2 1 false .lsl 0) = true := by decide

theorem test_cmp_subfield_is_ill_formed :
    Instr.wellFormed (.cmp true .rr .tr 1 2) = false ∧ Instr.wellFormed (.cmpT true .ii .ugt 1 2) = false ∧
      Instr.wellFormed (.cmpF true .ri .eq 1 2) = false ∧ Instr.wellFormed (.cmp false .rr .tr 1 2) = true := by decide

theorem test_fm_subfield_is_ill_formed :
    Instr.wellFormed (.fm 1 2 true .unsigned 0) = false ∧ Instr.wellFormed (.fmT 1 2 true .signed 15) = false ∧
      Instr.wellFormed (.fmF 1 2 true .signed 0) = false ∧ Instr.wellFormed (.fm 1 2 false .signed 15) = true := by decide

/-! ## Decoding: F = cond * 21 + op + 1, then the fields a, b and c (R62, R64, R66, R70 to R76) -/

theorem test_decode_invalid : decode 0b000000_000000_000000_000000 = .invalid ∧
    decode 0b000000_111111_111111_111111 = .invalid := by decide

theorem test_decode_add :
    decode 0b000001_000101_001001_010010 = .add 5 9 18 ∧
    decode 0b010110_000101_001001_010010 = .addT 5 9 18 ∧
    decode 0b101011_000101_001001_010010 = .addF 5 9 18 := by decide

theorem test_decode_addi :
    decode 0b000010_000101_001001_010010 = .addi 5 9 18 ∧
    decode 0b010111_000101_001001_010010 = .addiT 5 9 18 ∧
    decode 0b101100_000101_001001_010010 = .addiF 5 9 18 := by decide

theorem test_decode_sub :
    decode 0b000011_000101_001001_010010 = .sub 5 9 18 ∧
    decode 0b011000_000101_001001_010010 = .subT 5 9 18 ∧
    decode 0b101101_000101_001001_010010 = .subF 5 9 18 := by decide

theorem test_decode_or :
    decode 0b000100_000101_001001_010010 = .or 5 9 18 ∧
    decode 0b011001_000101_001001_010010 = .orT 5 9 18 ∧
    decode 0b101110_000101_001001_010010 = .orF 5 9 18 := by decide

theorem test_decode_ori :
    decode 0b000101_000101_001001_010010 = .ori 5 9 18 ∧
    decode 0b011010_000101_001001_010010 = .oriT 5 9 18 ∧
    decode 0b101111_000101_001001_010010 = .oriF 5 9 18 := by decide

theorem test_decode_xor :
    decode 0b000110_000101_001001_010010 = .xor 5 9 18 ∧
    decode 0b011011_000101_001001_010010 = .xorT 5 9 18 ∧
    decode 0b110000_000101_001001_010010 = .xorF 5 9 18 := by decide

theorem test_decode_xori :
    decode 0b000111_000101_001001_010010 = .xori 5 9 18 ∧
    decode 0b011100_000101_001001_010010 = .xoriT 5 9 18 ∧
    decode 0b110001_000101_001001_010010 = .xoriF 5 9 18 := by decide

theorem test_decode_and :
    decode 0b001000_000101_001001_010010 = .and 5 9 18 ∧
    decode 0b011101_000101_001001_010010 = .andT 5 9 18 ∧
    decode 0b110010_000101_001001_010010 = .andF 5 9 18 := by decide

theorem test_decode_andi :
    decode 0b001001_000101_001001_010010 = .andi 5 9 18 ∧
    decode 0b011110_000101_001001_010010 = .andiT 5 9 18 ∧
    decode 0b110011_000101_001001_010010 = .andiF 5 9 18 := by decide

theorem test_decode_shl :
    decode 0b001010_000101_001001_010010 = .shl 5 9 18 ∧
    decode 0b011111_000101_001001_010010 = .shlT 5 9 18 ∧
    decode 0b110100_000101_001001_010010 = .shlF 5 9 18 := by decide

theorem test_decode_shr :
    decode 0b001011_000101_001001_010010 = .shr 5 9 18 ∧
    decode 0b100000_000101_001001_010010 = .shrT 5 9 18 ∧
    decode 0b110101_000101_001001_010010 = .shrF 5 9 18 := by decide

theorem test_decode_shi :
    decode 0b001100_000101_001001_010010 = .shi 5 9 false .asr 2 ∧
    decode 0b100001_000101_001001_010010 = .shiT 5 9 false .asr 2 ∧
    decode 0b110110_000101_001001_010010 = .shiF 5 9 false .asr 2 := by decide

theorem test_decode_cmp :
    decode 0b001101_000101_001001_010010 = .cmp false .rr .sgt 9 18 ∧
    decode 0b100010_000101_001001_010010 = .cmpT false .rr .sgt 9 18 ∧
    decode 0b110111_000101_001001_010010 = .cmpF false .rr .sgt 9 18 := by decide

theorem test_decode_fm :
    decode 0b001110_000101_001001_010010 = .fm 5 9 false .signed 2 ∧
    decode 0b100011_000101_001001_010010 = .fmT 5 9 false .signed 2 ∧
    decode 0b111000_000101_001001_010010 = .fmF 5 9 false .signed 2 := by decide

theorem test_decode_ld :
    decode 0b001111_000101_001001_010010 = .ld 5 9 18 ∧
    decode 0b100100_000101_001001_010010 = .ldT 5 9 18 ∧
    decode 0b111001_000101_001001_010010 = .ldF 5 9 18 := by decide

theorem test_decode_st :
    decode 0b010000_000101_001001_010010 = .st 5 9 18 ∧
    decode 0b100101_000101_001001_010010 = .stT 5 9 18 ∧
    decode 0b111010_000101_001001_010010 = .stF 5 9 18 := by decide

theorem test_decode_lbl :
    decode 0b010001_000101_001001_010010 = .lbl 5 9 18 ∧
    decode 0b100110_000101_001001_010010 = .lblT 5 9 18 ∧
    decode 0b111011_000101_001001_010010 = .lblF 5 9 18 := by decide

theorem test_decode_hlt :
    decode 0b010010_000101_001001_010010 = .hlt 5 9 18 ∧
    decode 0b100111_000101_001001_010010 = .hltT 5 9 18 ∧
    decode 0b111100_000101_001001_010010 = .hltF 5 9 18 := by decide

theorem test_decode_jup :
    decode 0b010011_000101_001001_010010 = .jup 5 9 18 ∧
    decode 0b101000_000101_001001_010010 = .jupT 5 9 18 ∧
    decode 0b111101_000101_001001_010010 = .jupF 5 9 18 := by decide

theorem test_decode_jdn :
    decode 0b010100_000101_001001_010010 = .jdn 5 9 18 ∧
    decode 0b101001_000101_001001_010010 = .jdnT 5 9 18 ∧
    decode 0b111110_000101_001001_010010 = .jdnF 5 9 18 := by decide

theorem test_decode_io :
    decode 0b010101_000101_001001_010010 = .io 5 9 18 ∧
    decode 0b101010_000101_001001_010010 = .ioT 5 9 18 ∧
    decode 0b111111_000101_001001_010010 = .ioF 5 9 18 := by decide

/-- The sub-fields of SHI, CMP and FM at other codes, and with the sub-field bit set (R72 to R78). -/
theorem test_decode_subfields :
    decode 0b001100_000010_000001_011111 = .shi 2 1 false .rol 7 ∧
    decode 0b001100_000010_000001_101001 = .shi 2 1 true .lsr 1 ∧
    decode 0b001101_001010_000001_000101 = .cmp false .ri .eq 1 5 ∧
    decode 0b001101_110111_000001_000101 = .cmp true .ir .ugt 1 5 ∧
    decode 0b001110_000001_000010_001111 = .fm 1 2 false .unsigned 15 ∧
    decode 0b001110_000001_000010_110000 = .fm 1 2 true .signed 0 := by decide

/-- The encoder's word of IO.F r63, 63, r63 is all ones (95_test_vectors.md, encode check); bytes come most
significant first (R61). -/
theorem test_encode : encode (.ioF 63 63 63) = some 0xFFFFFF ∧ encode (.add 3 1 2) = some 0x043042 ∧
    encode .invalid = none ∧ bytesOfWord 0x043042 = [0x04, 0x30, 0x42] := by decide

/-- Other numbers and placements than the defaults (R10): the ops, shift types, comparators and modes numbered backwards,
the conds and comparison types in another order, operands in other fields, sub-field bits turned and reversed, and the devices
at the indices 20 to 32. -/
def otherCodes : Codes where
  ops :=
    #v[.io, .jdn, .jup, .hlt, .lbl, .st, .ld, .fm, .cmp, .shi, .shr, .shl, .andi, .and, .xori, .xor, .ori, .or, .sub,
      .addi, .add]
  conds := #v[.ifTrue, .ifFalse, .always]
  fieldMap := { registers := .cab, immediates := .acb, shi := .abc, cmp := .bca, fm := .bac, ld := .cba, st := .abc }
  cmpLayout := #v[1, 2, 3, 4, 5, 0]
  cmpTypes := #v[.ii, .rr, .ri, .ir]
  comparators := #v[.ugt, .ult, .sgt, .slt, .ne, .eq, .fa, .tr]
  shiLayout := #v[5, 4, 3, 2, 1, 0]
  shiftTypes := #v[.rol, .asr, .lsr, .lsl]
  fmLayout := #v[0, 1, 2, 3, 5, 4]
  fmModes := #v[.signed, .unsigned]
  devices := Device.table.mapIdx fun i d => (BitVec.ofNat 6 (20 + i), d)

/-- Codes that number two names alike, or place two bits alike, are no codes. -/
theorem test_codes_wf : Codes.wf otherCodes = true ∧ Codes.wf { otherCodes with conds := #v[.always, .always, .ifTrue] } = false ∧
    Codes.wf { otherCodes with shiLayout := #v[0, 0, 1, 2, 3, 4] } = false ∧
    Codes.wf { otherCodes with devices := (3, .gpuX) :: otherCodes.devices } = false := by decide

/-- Words written out under otherCodes: ADD is op 20 and ALWAYS cond 2, so F = 63, with rd in c, ra in a, rb in b; SHI is op
9, ASR is 1, and the sub-field stands backwards; CMP is op 8, RI is 2, EQ is 5, and the sub-field stands in b turned by
one (R64 to R76). -/
theorem test_decode_other_codes :
    otherCodes.decode 0b111111_000001_000010_000011 = .add 3 1 2 ∧
    otherCodes.decode 0b110100_000010_000001_100100 = .shi 2 1 false .asr 1 ∧
    otherCodes.decode 0b110011_000101_101010_000001 = .cmp false .ri .eq 1 5 ∧
    otherCodes.encode (.add 3 1 2) = some 0b111111_000001_000010_000011 ∧
    otherCodes.encode (.shi 2 1 false .asr 1) = some 0b110100_000010_000001_100100 ∧
    otherCodes.encode (.cmp false .ri .eq 1 5) = some 0b110011_000101_101010_000001 := by decide

theorem test_decodeTableWord : decodeTableWord 24 0x043042 = some (.add 3 1 2) ∧ decodeTableWord 24 0 = some .invalid := by
  decide

/-! ## One step -/

/-- A cycle in which the outside world does nothing. -/
def quiet : CycleInput := { wall := 0, resetWall := 0, quit := false, resetQuit := false, abort := false }

/-- The reset machine with a tape and a few quiet cycles. -/
def machine (tape : List InsnWord) : State := { State.reset with tape := tape, schedule := [quiet, quiet] }

/-- The reset machine about to run w, with some registers written; the word after w is INVALID. -/
def start (w : InsnWord) (regs : List (Word × Word)) : State :=
  regs.foldl (fun s p => s.writeReg p.1 p.2) (machine [w, 0])

/-- What a step's next state shows through f. -/
def after {α : Type} (s : State) (f : State → α) : Option α :=
  match step s with
  | .next t => some (f t)
  | .fault _ => none
  | .refused _ => none

/-- What stops a step. -/
def faultOf (s : State) : Option Fault :=
  match step s with
  | .next _ => none
  | .fault f => some f
  | .refused _ => none

/-- A register's value and the pc after a step. -/
def regAfter (s : State) (r : Word) : Option (Word × Nat) := after s fun t => (t.readReg r, t.pc)

/-- V-ALU-1, V-ALU-2, V-ALU-4. -/
theorem test_add :
    regAfter (start 0x043042 [(1, 59), (2, 5)]) 3 = some (0, 1) ∧
    regAfter (start 0x043042 [(1, 63), (2, 63)]) 3 = some (62, 1) ∧
    regAfter (start 0x040042 [(1, 1), (2, 2)]) 0 = some (0, 1) := by decide

/-- V-ALU-26, V-ALU-27, V-ALU-28. -/
theorem test_add_gated :
    regAfter (start 0x583042 [(1, 1), (2, 2), (3, 9)]) 3 = some (9, 1) ∧
    regAfter { start 0x583042 [(1, 1), (2, 2), (3, 9)] with cf := true } 3 = some (3, 1) ∧
    regAfter (start 0xAC3042 [(1, 1), (2, 2), (3, 9)]) 3 = some (3, 1) := by decide

/-- V-ALU-6, V-ALU-7. -/
theorem test_addi :
    regAfter (start 0x08207F [(1, 0)]) 2 = some (63, 1) ∧
    regAfter (start 0x08207F [(1, 1)]) 2 = some (0, 1) := by decide

/-- V-ALU-8, V-ALU-10, V-ALU-12. -/
theorem test_sub :
    regAfter (start 0x0C3042 [(1, 0), (2, 1)]) 3 = some (63, 1) ∧
    regAfter (start 0x0C3042 [(1, 0), (2, 32)]) 3 = some (32, 1) ∧
    regAfter (start 0x0C1041 [(1, 42)]) 1 = some (0, 1) := by decide

/-- V-ALU-13, V-ALU-14. -/
theorem test_or :
    regAfter (start 0x103042 [(1, 42), (2, 7)]) 3 = some (47, 1) ∧
    regAfter { start 0x103042 [(1, 42), (2, 7)] with params := { Params.default with logicNegB := true } } 3 = some (59, 1) := by decide

/-- V-ALU-15, V-ALU-16. -/
theorem test_xor :
    regAfter (start 0x183042 [(1, 42), (2, 7)]) 3 = some (45, 1) ∧
    regAfter { start 0x183042 [(1, 42), (2, 7)] with params := { Params.default with logicNegB := true } } 3 = some (19, 1) := by decide

/-- V-ALU-17, V-ALU-18, V-ALU-19. -/
theorem test_and :
    regAfter (start 0x203042 [(1, 42), (2, 7)]) 3 = some (2, 1) ∧
    regAfter { start 0x203042 [(1, 42), (2, 7)] with params := { Params.default with logicNegB := true } } 3 = some (40, 1) ∧
    regAfter { start 0x203042 [(1, 42), (2, 0)] with params := { Params.default with logicNegB := true } } 3 = some (0, 1) := by decide

/-- V-ALU-21. -/
theorem test_ori :
    regAfter (start 0x142045 [(1, 42)]) 2 = some (47, 1) := by decide

/-- V-ALU-22. -/
theorem test_xori :
    regAfter (start 0x1C207F [(1, 42)]) 2 = some (21, 1) := by decide

/-- V-ALU-23. -/
theorem test_andi :
    regAfter (start 0x24204F [(1, 42)]) 2 = some (10, 1) := by decide

/-- V-SH-1, V-SH-4, V-SH-11. -/
theorem test_shl :
    regAfter (start 0x283042 [(1, 5), (2, 3)]) 3 = some (40, 1) ∧
    regAfter (start 0x283042 [(1, 1), (2, 6)]) 3 = some (0, 1) ∧
    regAfter (start 0x281041 [(1, 2)]) 1 = some (8, 1) := by decide

/-- V-SH-7, V-SH-9. -/
theorem test_shr :
    regAfter (start 0x2C3042 [(1, 44), (2, 2)]) 3 = some (11, 1) ∧
    regAfter (start 0x2C3042 [(1, 63), (2, 6)]) 3 = some (0, 1) := by decide

/-- V-SH-14, V-SH-17, V-SH-20, V-SH-22. -/
theorem test_shi_lsl_lsr :
    regAfter (start 0x302043 [(1, 43)]) 2 = some (24, 1) ∧
    regAfter (start 0x302047 [(1, 43)]) 2 = some (0, 1) ∧
    regAfter (start 0x30204B [(1, 43)]) 2 = some (5, 1) ∧
    regAfter (start 0x30204E [(1, 43)]) 2 = some (0, 1) := by decide

/-- V-SH-26, V-SH-29, V-SH-36, V-SH-32, V-SH-35. -/
theorem test_shi_asr_rol :
    regAfter (start 0x302053 [(1, 43)]) 2 = some (61, 1) ∧
    regAfter (start 0x302057 [(1, 43)]) 2 = some (63, 1) ∧
    regAfter (start 0x302053 [(1, 20)]) 2 = some (2, 1) ∧
    regAfter (start 0x30205B [(1, 43)]) 2 = some (29, 1) ∧
    regAfter (start 0x30205F [(1, 43)]) 2 = some (23, 1) := by decide

/-- V-CMP-4: 59 (-5) and 5, every comparator. -/
theorem test_cmp_comparators :
    after { start 0x340042 [(1, 59), (2, 5)] with cf := false } State.cf = some true ∧
    after { start 0x341042 [(1, 59), (2, 5)] with cf := false } State.cf = some false ∧
    after { start 0x342042 [(1, 59), (2, 5)] with cf := false } State.cf = some false ∧
    after { start 0x343042 [(1, 59), (2, 5)] with cf := false } State.cf = some true ∧
    after { start 0x344042 [(1, 59), (2, 5)] with cf := false } State.cf = some true ∧
    after { start 0x345042 [(1, 59), (2, 5)] with cf := false } State.cf = some false ∧
    after { start 0x346042 [(1, 59), (2, 5)] with cf := false } State.cf = some false ∧
    after { start 0x347042 [(1, 59), (2, 5)] with cf := false } State.cf = some true := by decide

/-- V-CMPT-1, V-CMPT-2, V-CMPT-4, V-CMPT-12, V-CMPT-14. -/
theorem test_cmp_types :
    after { start 0x34A045 [(1, 5)] with cf := false } State.cf = some true ∧
    after { start 0x352141 [(1, 5)] with cf := false } State.cf = some true ∧
    after { start 0x35F0C2 [] with cf := false } State.cf = some true ∧
    after { start 0x882041 [(1, 3)] with cf := false } State.cf = some false ∧
    after { start 0x883041 [(1, 3)] with cf := true } State.cf = some false := by decide

/-- V-FM-1, V-FM-9, V-FM-15. -/
theorem test_fm_unsigned :
    regAfter (start 0x381083 [(1, 20), (2, 5)]) 1 = some (12, 1) ∧
    regAfter (start 0x381086 [(1, 63), (2, 63)]) 1 = some (62, 1) ∧
    regAfter (start 0x38108C [(1, 63), (2, 63)]) 1 = some (0, 1) := by decide

/-- V-FM-12, V-FM-16, V-FM-22, V-FM-21, V-FM-20. -/
theorem test_fm_signed :
    regAfter (start 0x381098 [(1, 63), (2, 63)]) 1 = some (63, 1) ∧
    regAfter (start 0x38109C [(1, 63), (2, 63)]) 1 = some (63, 1) ∧
    regAfter (start 0x381092 [(1, 62), (2, 3)]) 1 = some (46, 1) ∧
    regAfter { start 0x381092 [(1, 62), (2, 3)] with params := { Params.default with fmSignedOperands := true } } 1 = some (62, 1) ∧
    regAfter { start 0x381094 [(1, 32), (2, 32)] with params := { Params.default with fmSignedOperands := true } } 1 = some (0, 1) := by decide

/-- V-LS-1, V-LS-2, V-LS-4. -/
theorem test_ld :
    regAfter (start 0x3C4042 [(1, 10), (12, 33)]) 4 = some (33, 1) ∧
    regAfter (start 0x3C4041 [(1, 63)]) 4 = some (0, 1) ∧
    regAfter (start 0x3C407C [(1, 10), (6, 21)]) 4 = some (21, 1) := by decide

/-- V-LS-7, V-LS-8, V-LS-9. -/
theorem test_st :
    regAfter (start 0x405042 [(1, 10), (5, 7)]) 12 = some (7, 1) ∧
    regAfter (start 0x405076 [(1, 10), (5, 7)]) 0 = some (0, 1) ∧
    regAfter (start 0x405040 [(1, 1), (5, 7)]) 1 = some (7, 1) := by decide

/-- LBL 0, 1, 0 is a no-op whatever its gate (R180). -/
theorem test_lbl :
    after (start 0x440040 []) (fun t => t.pc) = some 1 ∧
    after (start 0x980240 []) (fun t => t.pc) = some 1 := by decide

/-- HLT, and HLT.T with cf clear (R181, R85). -/
theorem test_hlt :
    after (start 0x480FFF []) (fun t => (t.halt, t.pc, t.haltCode)) = some (some (.hlt 0), 0, 1) ∧
    after (start 0x9C0000 []) (fun t => (t.halt, t.pc)) = some (none, 1) := by decide

/-- V-DEC-1, V-DEC-2. -/
theorem test_invalid :
    after (start 0 []) (fun t => (t.halt, t.pc, t.haltCode)) = some (some (.invalid 0 0), 0, 2) ∧
    after (start 0x03FFFF []) (fun t => (t.halt, t.pc, t.haltCode)) = some (some (.invalid 0 0x03FFFF), 0, 2) := by decide

/-- V-SUB-1, V-SUB-3, V-SUB-4, V-SUB-5. -/
theorem test_bad_subfield :
    after (start 0x360042 []) (fun t => (t.halt, t.pc, t.haltCode)) = some (some (.badSubfield 0 0x360042), 0, 3) ∧
    after (start 0x302060 []) (fun t => (t.halt, t.pc, t.haltCode)) = some (some (.badSubfield 0 0x302060), 0, 3) ∧
    after (start 0x3810B0 []) (fun t => (t.halt, t.pc, t.haltCode)) = some (some (.badSubfield 0 0x3810B0), 0, 3) ∧
    after (start 0x8A2042 []) (fun t => (t.halt, t.pc)) = some (none, 1) := by decide

/-- V-J-1, V-J-4, V-J-7, V-J-8. -/
theorem test_jup :
    after { machine [0x440040, 0x440040, 0x4C0040, 0x440040] with pc := 2, cf := false } (fun t => (t.pc, t.halt)) = some (1, none) ∧
    after { machine [0x081001, 0x4C0040, 0x440040] with pc := 1, cf := false } (fun t => (t.pc, t.halt)) = some (2, none) ∧
    after { machine [0x980040, 0x440040, 0x4C0040] with pc := 2, cf := false } (fun t => (t.pc, t.halt)) = some (1, none) ∧
    after { machine [0x440040, 0x980040, 0x4C0040] with pc := 2, cf := true } (fun t => (t.pc, t.halt)) = some (1, none) := by decide

/-- V-J-2, V-J-3, V-J-10. -/
theorem test_jdn :
    after { machine [0x440040, 0x440040, 0x500040, 0x440040] with pc := 2, cf := false } (fun t => (t.pc, t.halt)) = some (3, none) ∧
    after { machine [0x440040, 0x500040, 0x081001] with pc := 1, cf := false } (fun t => (t.pc, t.halt)) = some (0, none) ∧
    after (machine [0x500040]) (fun t => (t.halt, t.pc, t.haltCode)) = some (some (.labelNotFound 0 1 0), 0, 5) := by decide

/-- V-J-5, V-J-6, V-J-11. -/
theorem test_jump_value_and_key :
    after ({ machine [0x440040, 0x440043, 0x4C0043] with pc := 2 }.writeReg 3 3) (fun t => t.pc) = some 1 ∧
    after { machine [0x441000, 0x440040, 0x4C1000] with pc := 2, cf := false } (fun t => (t.pc, t.halt)) = some (0, none) ∧
    after ({ machine [0x440040, 0x4C0041] with pc := 1 }.writeReg 1 1) (fun t => (t.halt, t.pc, t.haltCode)) = some (some (.labelNotFound 1 1 1), 1, 5) := by decide

/-- V-IO-1. -/
theorem test_io_serial_write :
    after (start 0x540081 [(1, 10)]) State.output = some [10] := by decide

/-- V-IO-2: the line HI; then a blocked read. -/
theorem test_io_serial_in :
    after { start 0x542000 [] with inputLines := [[], [17, 18]] } (fun t => (t.readReg 2, t.serialIn)) = some (2, [17, 18]) ∧
    after { start 0x543040 [] with serialIn := [17, 18] } (fun t => (t.readReg 3, t.serialIn)) = some (17, [18]) ∧
    faultOf (start 0x543040 []) = some .serialInputBlocked := by decide

/-- V-IO-3, V-IO-4: the clock is 2501, then refreshed to 4095; a reset by the field rs; a refresh in CLOCK_UNITs of 10 (R209). -/
theorem test_io_clock :
    after { start 0x040000 [] with schedule := [{ quiet with wall := 1239 }], params := { Params.default with clockUnit := 10 } } State.clock =
      some 123 ∧
    after { start 0x5420C0 [] with clock := 0x9C5, schedule := [{ wall := 5000, resetWall := 4000, quit := false, resetQuit := false, abort := false }], params := { Params.default with clockUnit := 1 } } (fun t => (t.readReg 2, t.clock)) = some (5, 4095) ∧
    regAfter { start 0x543100 [] with clock := 0xFFF } 3 = some (63, 1) ∧
    after { start 0x5420C1 [(2, 9)] with clock := 100, schedule := [{ wall := 5000, resetWall := 4000, quit := false, resetQuit := false, abort := false }], params := { Params.default with clockUnit := 1 } } (fun t => (t.readReg 2, t.clock, t.clockBaseline)) = some (9, 1000, 4000) ∧
    regAfter { start 0x5420C1 [(2, 9)] with clock := 100, params := { Params.default with clockResetTest := .value } } 2 = some (36, 1) := by decide

/-- V-IO-6, V-IO-7. -/
theorem test_io_memory :
    after { start 0x540181 [(1, 63)] with cursor := 0x3F03F } State.cursor = some 0x3FFFF ∧
    after { start 0x540242 [(2, 7)] with cursor := 0x3FFFF } (fun t => (t.mem, t.cursor)) = some ([(0x3FFFF, 7)], 0) ∧
    regAfter { start 0x543200 [] with cursor := 5, mem := [(5, 33)] } 3 = some (33, 1) ∧
    after { start 0x543200 [] with cursor := 1000, params := { Params.default with memSize := 1000 } } (fun t => (t.halt, t.pc, t.haltCode)) = some (some (.memRange 0 1000), 0, 10) := by decide

/-- V-IO-8. -/
theorem test_io_gpu :
    after (start 0x540281 [(1, 12)]) State.gpuX = some 12 ∧
    after { start 0x540303 [(3, 54)] with gpuX := 12, gpuY := 40 } State.plots =
      some [{ x := 12, y := 40, red := 0xFF, green := 0x55, blue := 0xAA }] := by decide

/-- V-IO-9. -/
theorem test_io_unknown :
    after (start 0x542341 [(2, 9)]) (fun t => (t.halt, t.pc, t.haltCode)) = some (some (.unknownIo 0 13), 0, 4) ∧
    after (start 0x542341 [(2, 9)]) (fun t => t.readReg 2) = some 9 := by decide

/-- IO SERIAL_WRITE at index 22 under otherCodes: F = 43. -/
theorem test_other_codes_step :
    after { start 0b101011_000000_010110_000001 [(1, 10)] with params := { Params.default with codes := otherCodes } } State.output =
      some [10] := by decide

/-- The renderer quits, and the host aborts, after pc has advanced (R210, R229). -/
theorem test_quit_and_abort :
    after { start 0x043042 [] with schedule := [{ quiet with quit := true }] } (fun t => (t.halt, t.pc)) = some (some (.rendererQuit 1), 1) ∧
    after { start 0x043042 [] with schedule := [{ quiet with quit := true, abort := true }] } (fun t => t.halt) = some (some (.hostAbort 1)) := by decide

/-! ## Witnesses: states and operands that meet the hypotheses of each statement -/

/-- The step's next state, for a witness about one. -/
theorem next_of_after {α : Type} [DecidableEq α] {s : State} {f : State → α} {v : α} (h : after s f = some v) :
    ∃ t, step s = .next t ∧ f t = v := by
  unfold after at h
  split at h
  · exact ⟨_, ‹_›, by simpa using h⟩
  · cases h
  · cases h

/-- The gate of the .T forms is open in the one state and that of the .F forms in the other: the hypotheses of every
statement in CompletesInEachForm, and of ShiftsByRegisterDropBits at the counts 5, 6 and 63. -/
theorem test_witness_CompletesInEachForm :
    State.cf { start 0x583042 [] with cf := true } = true ∧ State.cf (start 0xAC3042 []) = false ∧
      ¬ 6 ≤ ((start 0x283042 [(2, 5)]).readReg 2).toNat ∧ 6 ≤ ((start 0x283042 [(2, 6)]).readReg 2).toNat ∧
      6 ≤ ((start 0x283042 [(2, 63)]).readReg 2).toNat := by decide

/-- A launch with a tape, a memory cell at the last address and PC_INIT at the tape's last index. -/
def someLaunch : Launch :=
  { Launch.default with
    params := { Params.default with pcInit := 1, clockUnit := 7 }, tape := [0x043042, 0x480000], memInit := [(0, 5), (0x3FFFF, 7)] }

theorem test_witness_LaunchMeetsInvariant :
    Params.wf someLaunch.params = true ∧ Memory.wf someLaunch.params.memSize someLaunch.memInit = true ∧
      someLaunch.params.pcInit < someLaunch.tape.length ∧ Launch.default.tape = [] := by decide

theorem test_witness_LaunchSetsResetState :
    (State.launch { Launch.default with regInit := Vector.replicate 64 9 }).readReg 0 = 0 ∧
      (State.launch { Launch.default with regInit := Vector.replicate 64 9 }).readReg 63 = 9 := by decide

theorem test_witness_StepKeepsInvariant :
    ∃ s t, Inv s ∧ step s = .next t ∧ t.pc = 0 ∧ t.mem = [(7, 5)] ∧ s.mem = [] :=
  let s : State := { start 0x540242 [(2, 5)] with tape := [0x540242], cursor := 7 }
  have ⟨t, h, e⟩ := next_of_after (s := s) (f := fun t => (t.pc, t.mem)) (v := (0, [(7, 5)])) (by decide)
  ⟨s, t, ⟨paramsWf_default, fun _ => by decide, by decide, by decide, by decide, by decide⟩, h,
    congrArg Prod.fst e, congrArg Prod.snd e, rfl⟩

/-- Also for EncodeOfDecodeIsTheWord: the default codes and others. -/
theorem test_witness_DecodeOfEncodeIsTheInstruction :
    Codes.default.wf = true ∧ otherCodes.wf = true ∧ (Instr.add 0 0 0) ≠ .invalid ∧ (Instr.ioF 63 63 63) ≠ .invalid ∧ fieldF 0 = 0#6 ∧ fieldF 0x03FFFF = 0#6 ∧
      fieldF 0x040000 ≠ 0#6 ∧ fieldF 0xFFFFFF ≠ 0#6 := by decide

/-- Also for EncodeOfDecodeIsTheWord, ReservedFieldIsTheOneInvalid and DecoderOutputsAndDebugPort: F at 0, 1 and 63. -/
theorem test_witness_OpcodeFieldGivesOpAndCond :
    BitVec.toNat (0x03FFFF : InsnWord) / 2 ^ 18 = 0 ∧
      BitVec.toNat (0x040000 : InsnWord) / 2 ^ 18 ≠ 0 ∧ BitVec.toNat (0xFFFFFF : InsnWord) / 2 ^ 18 ≠ 0 := by decide

theorem test_witness_BytesAssembleBigEndian :
    ([] : List Byte).length < 3 ∧ ([4, 48] : List Byte).length < 3 ∧
      decodeBytes [0x04, 0x30, 0x42, 7] = .ok (.add 3 1 2, [7]) := ⟨by decide, by decide, by rfl⟩

theorem test_witness_StepRunsDecodedInstruction :
    (start 0x043042 []).halt = none ∧ (start 0x043042 []).tape[(start 0x043042 []).pc]? = some 0x043042 ∧
      (start 0x043042 []).params.codes.decode 0x043042 = .add 3 1 2 ∧ Instr.wellFormed (.add 3 1 2) = true ∧
      (start 0x043042 []).params.codes.wf = true ∧
      (start 0x043042 []).params.codes.encode (.add 3 1 2) = some 0x043042 ∧
      (State.reset).halt = none ∧ (State.reset).tape[State.reset.pc]? = none := by decide

/-- A running machine at the end of a cycle whose schedule lists a quiet cycle, a quit and an abort, with a quit pending
from a clock reset, and with a wall time below the baseline, just at one CLOCK_UNIT and beyond the ceiling; and a halted
one. -/
theorem test_witness_CycleEndRefreshesClockAndHonoursQuitAndAbort :
    (machine [0]).halt = none ∧ (machine [0]).schedule = quiet :: [quiet] ∧
      State.clock (State.endCycle { machine [0] with
        schedule := [{ quiet with wall := 4096 }], params := { Params.default with clockUnit := 1 } }) = 4095 ∧
      State.clock (State.endCycle { machine [0] with
        clock := 4095, clockBaseline := 500, schedule := [{ quiet with wall := 499 }]
        params := { Params.default with clockUnit := 1 } }) = 0 ∧
      State.clock (State.endCycle { machine [0] with
        schedule := [{ quiet with wall := 60 }], params := { Params.default with clockUnit := 60 } }) = 1 ∧
      (State.endCycle { machine [0] with schedule := [{ quiet with quit := true }] }).halt = some (.rendererQuit 0) ∧
      (State.endCycle { machine [0] with quitPending := true }).halt = some (.rendererQuit 0) ∧
      (State.endCycle { machine [0] with quitPending := true }).quitPending = false ∧
      (State.endCycle { machine [0] with schedule := [{ quiet with abort := true, quit := true }] }).halt =
        some (.hostAbort 0) ∧
      (haltedFor (machine [0]) (.hlt 0)).halt.isSome = true := by decide

theorem test_witness_HaltedHasNoSuccessor : (haltedFor (machine [0]) (.hlt 0)).halt = some (.hlt 0) := by decide

theorem test_witness_InvalidHaltsWhateverTheFlagHolds :
    (start 0x03FFFF []).tape[(start 0x03FFFF []).pc]? = some 0x03FFFF ∧ fieldF 0x03FFFF = 0#6 := by decide

theorem test_witness_SubFieldErrorHalts :
    (start 0x302060 []).tape[(start 0x302060 []).pc]? = some 0x302060 ∧ decode 0x302060 = .shi 2 1 true .lsl 0 ∧
      decode 0x360042 = .cmp true .rr .tr 1 2 ∧ decode 0x3810B0 = .fm 1 2 true .signed 0 := by decide

theorem test_witness_LabelIsANoOpThatTheQueryPortSees :
    Codes.default.decode 0x440040 = .lbl 0 1 0 ∧ Codes.default.decode 0x98F7FF = .lblT 15 31 63 ∧
      Codes.default.decode 0xEC0001 = .lblF 0 0 1 ∧
      (Codes.default.decode 0x043042).op ≠ some .lbl ∧ (Codes.default.decode 0).op ≠ some .lbl := by decide

/-- The tape of V-J-1 with the jump's other neighbours. -/
def labels : State := { machine [0x440040, 0x440040, 0x4C0040, 0x980040] with pc := 2 }

theorem openLabel (i : Nat) (w : InsnWord) (h : labels.tape[i]? = some w) (hd : labels.params.codes.decode w = .lbl 0 1 0) :
    IsOpenLabel labels 0 1 0 i := ⟨w, h, .inl hd⟩

theorem notOpen (s : State) (i : Nat) (w : InsnWord) (h : s.tape[i]? = some w) (h1 : s.params.codes.decode w ≠ .lbl 0 1 0)
    (h2 : s.params.codes.decode w ≠ .lblT 0 1 0 ∨ s.cf = false)
    (h3 : s.params.codes.decode w ≠ .lblF 0 1 0 ∨ s.cf = true) :
    ¬ IsOpenLabel s 0 1 0 i := by
  rintro ⟨v, hv, hd | ⟨hd, hc⟩ | ⟨hd, hc⟩⟩ <;> rw [h] at hv <;> cases hv
  · exact h1 hd
  · simp [hd, hc] at h2
  · simp [hd, hc] at h3

/-- Up: the nearest open label is one back (k = 1). Down: the gated-out label of index 3 is passed by and the label of
index 0 found (k = 2); with the labels gone but a far one, k is N - 1; on a tape of one word, and on one whose label
is gated out, there is none. -/
theorem test_witness_JumpsGoToTheNearestOpenLabel :
    (IsOpenLabel labels 0 1 (labels.readReg 0) ((labels.pc + labels.tape.length - 1) % labels.tape.length)) ∧
      (IsOpenLabel labels 0 1 (labels.readReg 0) ((labels.pc + 2) % labels.tape.length) ∧
        ∀ j, 1 ≤ j → j < 2 → ¬ IsOpenLabel labels 0 1 (labels.readReg 0) ((labels.pc + j) % labels.tape.length)) ∧
      (IsOpenLabel (machine [0x500040, 0x440040]) 0 1 0 ((0 + 1) % 2)) ∧
      labels.params.codes.decode 0x4C0040 = .jup 0 1 0 ∧ labels.params.codes.decode 0x500040 = .jdn 0 1 0 ∧
      (∀ k, 1 ≤ k → k < (machine [0x500040]).tape.length →
        ¬ IsOpenLabel (machine [0x500040]) 0 1 0 (((machine [0x500040]).pc + k) % 1)) ∧
      (∀ k, 1 ≤ k → k < (machine [0x4C0040, 0x980040]).tape.length →
        ¬ IsOpenLabel (machine [0x4C0040, 0x980040]) 0 1 0 ((0 + 2 - k) % 2)) := by
  refine ⟨openLabel _ 0x440040 (by decide) (by decide), ⟨openLabel _ 0x440040 (by decide) (by decide), ?_⟩,
    ⟨0x440040, by decide, .inl (by decide)⟩, by decide, by decide, ?_, ?_⟩
  · intro j h1 h2
    obtain rfl : j = 1 := by omega
    exact notOpen labels _ 0x980040 (by decide) (by decide) (by decide) (by decide)
  · intro k h1 h2
    exact absurd h2 (by simp only [machine, List.length_cons, List.length_nil]; omega)
  · intro k h1 h2
    obtain rfl : k = 1 := by
      simp only [machine, List.length_cons, List.length_nil] at h2
      omega
    exact notOpen _ _ 0x980040 (by decide) (by decide) (by decide) (by decide)

/-- Also for SerialReadPopsTheFrontOfTheBuffer: input in the buffer; an empty buffer with no, one and two empty lines
before the next line. -/
theorem test_witness_SerialIncomingReportsTheBufferLength :
    (start 0x542000 []).params.codes.deviceOf 0 = some .serialIncoming ∧
      (start 0x542000 []).params.codes.deviceOf 1 = some .serialRead ∧
      otherCodes.deviceOf 20 = some .serialIncoming ∧ otherCodes.deviceOf 21 = some .serialRead ∧
      State.serialIn { start 0x542000 [] with serialIn := [17, 18] } = 17 :: [18] ∧
      State.serialIn (start 0x542000 []) = [] ∧
      State.inputLines { start 0x542000 [] with inputLines := [[17]] } = List.replicate 0 [] ++ (17 :: []) :: [] ∧
      State.inputLines { start 0x542000 [] with inputLines := [[], [], [17, 18], [5]] } =
        List.replicate 2 [] ++ (17 :: [18]) :: [[5]] := by decide

/-- No line at all, and only empty lines; with and without an abort, and with the schedule used up; under each cond. -/
theorem test_witness_BlockedSerialReadWaitsForInputOrAbort :
    State.schedule { start 0x543040 [] with schedule := [] } = [] ∧
      faultOf { start 0x543040 [] with schedule := [] } = some .serialInputBlocked ∧
      (start 0x543040 []).serialIn = [] ∧ (∀ l ∈ (start 0x543040 []).inputLines, l = []) ∧
      (∀ l ∈ (State.inputLines { start 0x543040 [] with inputLines := [[], []] }), l = []) ∧
      (start 0x543040 []).schedule = quiet :: [quiet] ∧ quiet.abort = false ∧
      State.schedule { start 0x543040 [] with schedule := [{ quiet with abort := true }] } =
        { quiet with abort := true } :: [] ∧
      State.cf { start 0x543040 [] with cf := true } = true ∧ (start 0x543040 []).cf = false := by decide

/-- Reads: rs = 0 under the field test, and x[rs] = 0 with rs = 1 under the value test. -/
theorem test_witness_ClockDevicesReadSixBitsOfTheClock :
    (start 0x5420C0 []).params.codes.deviceOf 3 = some .clockLoCs ∧
      (start 0x5420C0 []).params.codes.deviceOf 4 = some .clockHiCs ∧
      (start 0x5420C0 []).params.clockResetTest = .field ∧ (start 0x5420C0 []).params.clockResetTest ≠ .value ∧
      State.readReg { start 0x5420C1 [] with params := { Params.default with clockResetTest := .value } } 1 = 0 := by
  decide

/-- Resets: rs = 1 and rs = 63 under the field test whatever x[rs] holds, and x[rs] = 1 under the value test; with a
renderer that quits, does not quit, is not polled, or is not there. -/
theorem test_witness_ClockResetRestartsTheClockAndPolls :
    (start 0x5420C1 []).params.clockResetTest = .field ∧ (1 : Word) ≠ 0 ∧ (63 : Word) ≠ 0 ∧
      (start 0x5420C1 []).schedule = quiet :: [quiet] ∧
      State.readReg { start 0x5420C1 [(1, 1)] with params := { Params.default with clockResetTest := .value } } 1 ≠ 0 ∧
      after { start 0x5420C1 [] with schedule := [{ quiet with resetQuit := true }] } (fun t => (t.halt, t.pc)) =
        some (some (.rendererQuit 1), 1) ∧
      after { start 0x5420C1 [] with
        schedule := [{ quiet with resetQuit := true }]
        params := { Params.default with clockResetQuit := .insideStep } } (fun t => (t.halt, t.pc)) =
        some (some (.rendererQuit 0), 0) ∧
      after { start 0x5420C1 [] with
        schedule := [{ quiet with resetQuit := true }]
        params := { Params.default with gpuTickPolicy := .everyCycle } } (fun t => (t.halt, t.pc)) =
        some (none, 1) ∧
      after { start 0x5420C1 [] with
        schedule := [{ quiet with resetQuit := true }]
        params := { Params.default with hasRenderer := false } } (fun t => (t.halt, t.pc)) = some (none, 1) := by
  decide

/-- Also for CursorFragmentsAreWrittenApart and GpuDevicesMoveTheDrawCursorAndPlot: the window and the renderer are
there, at MEM_SIZE 1, 1000 and 2^18; the cursor at 0, at the last cell, and at MEM_SIZE. -/
theorem test_witness_MemoryPortsAccessTheCursorAndAdvanceIt :
    (start 0x543200 []).params.hasMem = true ∧ (start 0x543200 []).params.hasRenderer = true ∧
      Params.wf { Params.default with memSize := 1, clockUnit := 3 } = true ∧
      Memory.wf 1000 [(0, 1), (999, 63)] = true ∧ (0 : Cursor).toNat < 1 ∧ (0x3FFFF : Cursor).toNat < 2 ^ 18 ∧
      (999 : Cursor).toNat < 1000 ∧ 1000 ≤ (1000 : Cursor).toNat ∧ 1 ≤ (0x3FFFF : Cursor).toNat ∧
      [5, 6, 7, 8, 9, 10, 11, 12].map (start 0x543200 []).params.codes.deviceOf =
        [some .memAddrLo, some .memAddrMid, some .memAddrHi, some .memRead, some .memWrite, some .gpuX, some .gpuY,
          some .gpuDraw] := by decide

theorem test_witness_MemoryPorts_params : Params.wf (start 0x543200 []).params = true := paramsWf_default

theorem test_witness_UndefinedDeviceHalts :
    (start 0 []).params.codes.deviceOf 13 = none ∧ (start 0 []).params.codes.deviceOf 63 = none ∧
      (start 0 []).params.codes.deviceOf 12 ≠ none ∧ otherCodes.deviceOf 0 = none ∧ otherCodes.deviceOf 33 = none ∧
      Codes.default.deviceOf 5 = some .memAddrLo ∧ Codes.default.deviceOf 9 = some .memWrite ∧
      Params.hasMem { Params.default with hasMem := false } = false ∧ Codes.default.deviceOf 10 = some .gpuX ∧
      Codes.default.deviceOf 12 = some .gpuDraw ∧
      Params.hasRenderer { Params.default with hasRenderer := false } = false := by decide

theorem test_witness_GatedOutOnlyAdvancesPc :
    (Instr.addT 1 2 3).cond = some .ifTrue ∧ (start 0 []).cf = false ∧ (Instr.ioF 1 2 3).cond = some .ifFalse ∧
      State.cf { start 0 [] with cf := true } = true := by decide

/-- Also for TapeAndParametersAreNeverWritten and RegisterZeroReadsZero: a step of an instruction other than CMP, and
registers that are not its destination. -/
theorem test_witness_OnlyCmpWritesTheFlag :
    (∃ t, step (start 0x043042 [(1, 5)]) = .next t ∧ t.readReg 3 = 5) ∧ (Instr.add 3 1 2).op ≠ some .cmp ∧
      ((start 0x043042 []).params.codes.decode 0x043042).op ≠ some .cmp ∧ exec (.add 3 1 2) (start 0x043042 []) = .next (start 0x043042 []).advance :=
  ⟨next_of_after (by decide), by decide, by decide, by rfl⟩

theorem test_witness_OnlyTheDestinationRegisterChanges :
    destination (start 0x043042 []) (.add 3 1 2) ≠ some 4 ∧ destination (start 0x405042 [(1, 10)]) (.st 5 1 2) = some 12 ∧
      destination (start 0x405042 [(1, 10)]) (.st 5 1 2) ≠ some 5 ∧ destination (start 0 []) (.hlt 3 0 0) ≠ some 3 ∧
      exec (.st 5 1 2) (start 0x405042 [(1, 10), (5, 7)]) = .next ((start 0x405042 [(1, 10), (5, 7)]).writeReg 12 7).advance :=
  ⟨by decide, by decide, by decide, by decide, by rfl⟩

theorem test_witness_HaltsArePrecise :
    (start 0x480000 []).halt = none ∧ exec (.hlt 0 0 0) (start 0x480000 []) = .next (haltedFor (start 0x480000 []) (.hlt 0)) ∧
      exec (.io 2 40 0) (start 0x542A00 []) = .next (haltedFor (start 0x542A00 []) (.unknownIo 0 40)) ∧
      ∀ p, Halt.hlt 0 ≠ .rendererQuit p := ⟨by decide, by rfl, by rfl, fun p h => by cases h⟩

theorem test_witness_ComputingInstructionsNeverStop :
    (Instr.stF 1 2 3).op = some .st ∧ Op.neverStops .st = true ∧ (Instr.lbl 1 2 3).op = some .lbl ∧
      Op.neverStops .lbl = true := by decide

theorem test_witness_OnlySerialReadsSuspend :
    exec (.io 3 1 0) (start 0x543040 []) = .fault .serialInputBlocked ∧ ([5] : List Word) ≠ [] ∧
      (start 0x543040 []).halt = none ∧ (start 0x543040 []).pc < (start 0x543040 []).tape.length ∧
      (State.serialIn { start 0x543040 [] with serialIn := [5] }) ≠ [] ∧
      (∃ l ∈ (State.inputLines { start 0x543040 [] with inputLines := [[], [5]] }), l ≠ []) :=
  ⟨by rfl, by decide, by decide, by decide, by decide, [5], by decide, by decide⟩

theorem test_witness_MemoryWindowReadsTheLastWrite :
    Memory.wf 1000 [(3, 1), (999, 2)] = true ∧ 0 < 1000 ∧ 999 < 1000 ∧
      memPut [(3, 1), (999, 2)] 999 0 = [(3, 1)] ∧ memPut [(3, 1), (999, 2)] 0 5 = [(0, 5), (3, 1), (999, 2)] ∧
      Memory.wf 1000 [(1000, 2)] = false ∧ Memory.wf 1000 [(3, 0)] = false := by decide

theorem test_witness_OutputAndScreenNeverFlowBack :
    (start 0x043042 []).snapshot = State.snapshot { start 0x043042 [] with output := [5], gpuX := 9 } ∧
      SameOutside (start 0x043042 []) { start 0x043042 [] with output := [5], gpuX := 9 } ∧
      (∃ t, step (start 0x043042 []) = .next t ∧ t.pc = 1) ∧ step State.reset = .fault .offTape :=
  ⟨by decide, ⟨rfl, rfl, rfl, rfl, rfl⟩, next_of_after (by decide), by rfl⟩

/-- The ROM text of P6 (95_test_vectors.md section 3), texts of four bytes and of none, and a text that is not base64. -/
theorem test_witness_RomLengthIsCheckedAtLoad :
    base64Decode "NeDC+BAASAAA".toList = some [0x35, 0xE0, 0xC2, 0xF8, 0x10, 0x00, 0x48, 0x00, 0x00] ∧
      base64Decode "NeDC+A==".toList = some [0x35, 0xE0, 0xC2, 0xF8] ∧ base64Decode "".toList = some [] ∧
      base64Decode "NeDC+".toList = none ∧
      boot Launch.default "NeDC+BAASAAA".toList =
        .running (State.launch { Launch.default with tape := [0x35E0C2, 0xF81000, 0x480000] }) :=
  ⟨by decide, by decide, by decide, by decide, by rfl⟩

theorem test_witness_RomSaveIsTheInverseOfLoad :
    ([0x35E0C2, 0xF81000, 0x480000] : List InsnWord) ≠ [] ∧
      (∀ w ∈ ([0x35E0C2, 0xF81000, 0x480000] : List InsnWord), Codes.default.decode w ≠ .invalid) ∧
      (∃ w ∈ ([0x35E0C2, 0] : List InsnWord), Codes.default.decode w = .invalid) ∧
      saveRom .default [0x480000] = some "SAAA".toList ∧ base64Word 0x35E0C2 = "NeDC".toList := by
  refine ⟨by decide, fun w hw => ?_, ⟨0, by decide, by decide⟩, by decide, by decide⟩
  simp only [List.mem_cons, List.not_mem_nil, or_false] at hw
  rcases hw with rfl | rfl | rfl <;> decide

theorem test_witness_SerialAlphabetIsSixtyFourSymbols :
    (0 : Word) ≠ 63 ∧ (62 : Word) ≠ 63 ∧ 'a'.isLower = true ∧ 'a' ∉ serialAlphabet ∧ '%' ∉ serialAlphabet := by decide

theorem test_witness_AssemblerNeverEmitsASubFieldError :
    assemble .default "CMP.T EQ, r1, #5".toList = some (.cmpT false .ri .eq 1 5) ∧
      assemble .default "SHI r2, r1, ROL, 7".toList = some (.shi 2 1 false .rol 7) ∧
      assemble .default "SHI r2, r1, ROL, 8".toList = none ∧ assemble .default "NOT r2, r1".toList = some (.xori 2 1 63) := by decide

/-- A word of each kind that R32 tells apart, gated in and out. -/
theorem test_witness_RequestPortsShowTheOneRequest :
    (start 0 []).params.codes.decode 0 = .invalid ∧
      ((start 0 []).params.codes.decode 0x302060).fields = some ⟨.shi, .always, 2, 1, 32⟩ ∧
      ((start 0 []).params.codes.decode 0x302060).wellFormed = false ∧
      ((start 0 []).params.codes.decode 0xA00040).fields = some ⟨.jup, .ifTrue, 0, 1, 0⟩ ∧
      ((start 0 []).params.codes.decode 0xA00040).wellFormed = true ∧ gate .ifTrue (start 0 []).cf = false ∧
      gate .ifTrue (State.cf { start 0 [] with cf := true }) = true ∧
      (start 0 []).requestPorts 0x4C0FFF = ⟨none, some ⟨0, 63, 0⟩, none, false⟩ ∧
      (start 0 []).requestPorts 0x500FC0 = ⟨none, some ⟨1, 63, 0⟩, none, false⟩ ∧
      (start 0 [(1, 9)]).requestPorts 0x542081 = ⟨none, none, some ⟨2, 2, 1, 9⟩, false⟩ ∧
      (start 0 []).requestPorts 0x480000 = ⟨some 1, none, none, false⟩ ∧
      (start 0 []).requestPorts 0x043042 = ⟨none, none, none, false⟩ := by decide

/-- Each bound of a range, within and beyond; a name that is none of the spec's, with no comma and no space. -/
theorem test_witness_AssemblerTakesEachFormInRange :
    63 < 64 ∧ ¬ 64 < 64 ∧ 7 < 8 ∧ 15 < 16 ∧
      Codes.indexOf .default .gpuDraw = some 12 ∧ Codes.indexOf otherCodes .gpuDraw = some 32 ∧
      (∀ ch ∈ ['R', 'O', 'R'], ch ≠ ',' ∧ ch ≠ ' ') ∧
      ['R', 'O', 'R'] ∉ ["LSL", "LSR", "ASR", "ROL"].map String.toList ∧ ('R' : Char).isDigit = false ∧
      ['R', 'O', 'R'].head? ≠ some 'r' ∧ ['R', 'O', 'R'].head? ≠ some '#' :=
  ⟨by decide, by decide, by decide, by decide, by decide, by decide, by simp, by decide, by decide, by decide, by decide⟩

/-- A line that is printed, and lines that are taken and refused (R91, R95). -/
theorem test_assemble :
    asmLine "ST" .ifTrue [asmIndexed 63 10, asmReg 5] = "ST.T [r63+10], r5".toList ∧
      assemble .default "ST.T [r63+10], r5".toList = some (.stT 5 63 10) ∧
      assemble .default "ADD r64, r1, r2".toList = none ∧
      assemble otherCodes "IO r0, GPU_DRAW, r1".toList = some (.io 0 32 1) :=
  ⟨by rfl, by rfl, by rfl, by rfl⟩

theorem test_witness_WellFormedNeverHaltsBadSubfield :
    (start 0x043042 []).halt = none ∧ Instr.wellFormed (.add 3 1 2) = true ∧
      (∃ t, exec (.add 3 1 2) (start 0x043042 []) = .next t) ∧ Instr.wellFormed (.shiT 2 1 true .lsl 0) = false ∧
      gate .ifTrue (State.cf { start 0 [] with cf := true }) = true ∧ Instr.wellFormed .invalid = false :=
  ⟨by decide, by decide, ⟨_, rfl⟩, by decide, by decide, by decide⟩

end Sys2Proof.Machine.Tests
end

/-!
PROOFS of the family 10_state.md: register 0 (R24, R251) and the request outputs (R32). The request is first said by op,
for a record instead of a word; the request outputs then follow from it case by case.
-/

namespace Sys2Proof.Machine

/-! ## Register 0 -/

/-- Settles O50: reading and writing register 0 never reach the register file, in any state. -/
theorem registerZeroReadsZero : Obligations.RegisterZeroReadsZero :=
  ⟨fun s v => ⟨readReg_zero _, writeReg_zero s v⟩, fun _ => readReg_zero _, fun _ _ t _ => readReg_zero t⟩

/-! ## Sub-field errors -/

/-- The instruction of a record is well-formed exactly when the record has no sub-field error (R78, R95). -/
theorem wellFormed_ofFields (f : Fields) : (Instr.ofFields f).wellFormed = !Fields.subErr f := by
  obtain ⟨o, c, a, b, v⟩ := f
  cases o <;> cases c <;> simp [Instr.ofFields, Instr.wellFormed, Fields.subErr]

theorem subErr_eq_not_wellFormed {i : Instr} {f : Fields} (h : i.fields = some f) :
    Fields.subErr f = !i.wellFormed := by
  rw [← ofFields_of_fields h, wellFormed_ofFields, Bool.not_not]

/-! ## The request of a record -/

/-- The request of an op that is gated in and has no sub-field error. -/
def State.opRequest (s : State) (f : Fields) : Request :=
  match f.op with
  | .hlt => .halt (.hlt s.pc)
  | .jup => .jump (s.jumpRequest .up f.a f.b f.c)
  | .jdn => .jump (s.jumpRequest .down f.a f.b f.c)
  | .io => .io (s.ioRequest f.a f.b f.c)
  | _ => .none

section

variable {s : State} {f : Fields}

theorem opRequest_hlt (h : f.op = .hlt) : s.opRequest f = .halt (.hlt s.pc) := by
  simp only [State.opRequest, h]

theorem opRequest_jup (h : f.op = .jup) : s.opRequest f = .jump (s.jumpRequest .up f.a f.b f.c) := by
  simp only [State.opRequest, h]

theorem opRequest_jdn (h : f.op = .jdn) : s.opRequest f = .jump (s.jumpRequest .down f.a f.b f.c) := by
  simp only [State.opRequest, h]

theorem opRequest_io (h : f.op = .io) : s.opRequest f = .io (s.ioRequest f.a f.b f.c) := by
  simp only [State.opRequest, h]

/-- Every op but HLT, the jumps and IO leaves the requests alone. -/
theorem opRequest_none (hHlt : f.op ≠ .hlt) (hJup : f.op ≠ .jup) (hJdn : f.op ≠ .jdn) (hIo : f.op ≠ .io) :
    s.opRequest f = .none := by
  unfold State.opRequest
  split
  · contradiction
  · contradiction
  · contradiction
  · contradiction
  · rfl

end

/-! ## The request of a word -/

section

variable {s : State} {w : InsnWord} {f : Fields}

theorem request_of_invalid (h : s.params.codes.decode w = .invalid) :
    s.request w = .halt (.invalid s.pc s.currentWord) := by
  simp only [State.request, h, Instr.fields]

/-- The request of a word with a record: none when gated out, a halt on a sub-field error, and its op's otherwise. -/
theorem request_of_fields (h : (s.params.codes.decode w).fields = some f) :
    s.request w =
      if gate f.cond s.cf then
        if Fields.subErr f then .halt (.badSubfield s.pc s.currentWord) else s.opRequest f
      else .none := by
  simp only [State.request, h]
  rfl

theorem request_gatedOut (h : (s.params.codes.decode w).fields = some f) (hg : gate f.cond s.cf = false) :
    s.request w = .none := by
  simp [request_of_fields h, hg]

theorem request_illFormed (h : (s.params.codes.decode w).fields = some f) (hg : gate f.cond s.cf = true)
    (hw : (s.params.codes.decode w).wellFormed = false) :
    s.request w = .halt (.badSubfield s.pc s.currentWord) := by
  simp [request_of_fields h, hg, subErr_eq_not_wellFormed h, hw]

theorem request_gatedIn (h : (s.params.codes.decode w).fields = some f) (hg : gate f.cond s.cf = true)
    (hw : (s.params.codes.decode w).wellFormed = true) : s.request w = s.opRequest f := by
  simp [request_of_fields h, hg, subErr_eq_not_wellFormed h, hw]

/-! ## The request outputs -/

theorem requestPorts_of_none (h : s.request w = .none) :
    s.requestPorts w = { halt := none, jump := none, io := none, cf := s.cf } := by
  simp only [State.requestPorts, h]

theorem requestPorts_of_halt {r : Halt} (h : s.request w = .halt r) :
    s.requestPorts w = { halt := some (Halt.code r), jump := none, io := none, cf := s.cf } := by
  simp only [State.requestPorts, h]

/-- A jump request, with its key in arithmetic (R71). -/
theorem requestPorts_of_jump {dir : Direction} {hi lo rc : Word}
    (h : s.request w = .jump (s.jumpRequest dir hi lo rc)) :
    s.requestPorts w =
      { halt := none, io := none, cf := s.cf
        jump := some
          { dir := Direction.code dir, key := BitVec.ofNat 12 (64 * hi.toNat + lo.toNat), val := s.readReg rc } } := by
  simp only [State.requestPorts, h, State.jumpRequest, labelKey_eq_ofNat]

theorem requestPorts_of_io {r : IoRequest} (h : s.request w = .io r) :
    s.requestPorts w = { halt := none, jump := none, io := some r, cf := s.cf } := by
  simp only [State.requestPorts, h]

theorem requestPorts_cf (s : State) (w : InsnWord) : (s.requestPorts w).cf = s.cf := by
  cases h : s.request w <;> simp only [State.requestPorts, h]

theorem requestPorts_atMostOne (s : State) (w : InsnWord) :
    (s.requestPorts w).halt.isSome.toNat + (s.requestPorts w).jump.isSome.toNat +
      (s.requestPorts w).io.isSome.toNat ≤ 1 := by
  cases h : s.request w <;> simp [State.requestPorts, h]

end

/-- Settles O59: the outputs show the one request of the word, which its record, the gate and the op determine. -/
theorem requestPortsShowTheOneRequest : Obligations.RequestPortsShowTheOneRequest := by
  intro s w
  refine ⟨requestPorts_cf s w, requestPorts_atMostOne s w,
    fun h => requestPorts_of_halt (request_of_invalid h), fun f hf => ⟨?gatedOut, ?illFormed, ?gatedIn⟩⟩
  case gatedOut => exact fun hg => requestPorts_of_none (request_gatedOut hf hg)
  case illFormed => exact fun hg hw => requestPorts_of_halt (request_illFormed hf hg hw)
  case gatedIn =>
    intro hg hw
    have hr : s.request w = s.opRequest f := request_gatedIn hf hg hw
    exact ⟨fun h => requestPorts_of_halt (hr.trans (opRequest_hlt h)),
      fun h => requestPorts_of_jump (hr.trans (opRequest_jup h)),
      fun h => requestPorts_of_jump (hr.trans (opRequest_jdn h)),
      fun h => requestPorts_of_io (hr.trans (opRequest_io h)),
      fun h₁ h₂ h₃ h₄ => requestPorts_of_none (hr.trans (opRequest_none h₁ h₂ h₃ h₄))⟩

end Sys2Proof.Machine

/-!
PROOFS of the family 20_memory.md: the cursor fragments (R48, R203) and the memory ports (R49, R204). What an IO
instruction does is first said by the reply of the device it reaches; each device's reply then settles its clause.
-/

namespace Sys2Proof.Machine

/-! ## IO by the reply of its device -/

section

variable {rd d rs v : Word} {s t : State} {dev : Device} {h : Halt} {Q : State → Prop}

/-- IO to a device that is present finishes with that device's reply (R197). -/
theorem opIo_of_present (hd : s.params.codes.deviceOf d = some dev) (hp : Device.present s.params dev = true) :
    opIo rd d rs s = s.finishIo rd (s.serveDevice (s.ioRequest rd d rs) dev) :=
  congrArg (s.finishIo rd) (serveIo_of_present hd hp)

theorem completes_io_value (hd : s.params.codes.deviceOf d = some dev) (hp : Device.present s.params dev = true)
    (hr : s.serveDevice (s.ioRequest rd d rs) dev = .done (some v) t) (hq : Q (t.writeReg rd v).advance) :
    CompletesInEachForm (.io rd d rs) (.ioT rd d rs) (.ioF rd d rs) s Q :=
  completes_io (by rw [opIo_of_present hd hp, hr]; rfl) hq

theorem completes_io_silent (hd : s.params.codes.deviceOf d = some dev) (hp : Device.present s.params dev = true)
    (hr : s.serveDevice (s.ioRequest rd d rs) dev = .done none t) (hq : Q t.advance) :
    CompletesInEachForm (.io rd d rs) (.ioT rd d rs) (.ioF rd d rs) s Q :=
  completes_io (by rw [opIo_of_present hd hp, hr]; rfl) hq

theorem completes_io_halted (hd : s.params.codes.deviceOf d = some dev) (hp : Device.present s.params dev = true)
    (hr : s.serveDevice (s.ioRequest rd d rs) dev = .halted h t) (hq : Q (t.raiseHalt h)) :
    CompletesInEachForm (.io rd d rs) (.ioT rd d rs) (.ioF rd d rs) s Q :=
  completes_io (by rw [opIo_of_present hd hp, hr]; rfl) hq

end

/-! ## The cursor -/

/-- A device that only sets the cursor to k: everything IO does with it. -/
theorem completes_io_setCursor {rd d rs : Word} {s : State} {dev : Device} {k : Cursor}
    (hd : s.params.codes.deviceOf d = some dev) (hp : Device.present s.params dev = true)
    (hr : s.serveDevice (s.ioRequest rd d rs) dev = .done none { s with cursor := k }) :
    CompletesInEachForm (.io rd d rs) (.ioT rd d rs) (.ioF rd d rs) s fun t =>
      t = { s with cursor := k, pc := t.pc } ∧ PcAdvanced s t ∧ (∀ j, t.readReg j = s.readReg j) ∧ MemorySame s t :=
  completes_io_silent hd hp hr ⟨rfl, rfl, fun _ => rfl, fun _ => rfl⟩

/-- Settles O39: each fragment device sets the cursor to the value that its third of the bits makes. -/
theorem cursorFragmentsAreWrittenApart : Obligations.CursorFragmentsAreWrittenApart := by
  intro rd lo mid hi rs s hlo hmid hhi hmem
  rw [← cursorSetLo_eq, ← cursorSetMid_eq, ← cursorSetHi_eq]
  exact ⟨completes_io_setCursor hlo hmem rfl, completes_io_setCursor hmid hmem rfl,
    completes_io_setCursor hhi hmem rfl, rfl, rfl, rfl⟩

/-! ## The memory ports -/

/-- A write to a canonical window is read back and leaves every other cell alone. -/
theorem readMem_writeMem {size : Nat} {s : State} (hm : Memory.wf size s.mem = true) (a : Nat) (v : Word) (b : Nat) :
    (s.writeMem a v).readMem b = if b = a then v else s.readMem b :=
  memGet_memPut hm b

section

variable {s : State}

theorem memReadPort_inside (h : s.cursor.toNat < s.params.memSize) :
    s.memReadPort =
      .done (some (s.readMem s.cursor.toNat)) { s with cursor := cursorNext s.params.memSize s.cursor } :=
  if_pos h

theorem memReadPort_beyond (h : s.params.memSize ≤ s.cursor.toNat) :
    s.memReadPort = .halted (.memRange s.pc s.cursor) s :=
  if_neg (Nat.not_lt.2 h)

theorem memWritePort_inside (h : s.cursor.toNat < s.params.memSize) (v : Word) :
    s.memWritePort v =
      .done none { s.writeMem s.cursor.toNat v with cursor := cursorNext s.params.memSize s.cursor } :=
  if_pos h

theorem memWritePort_beyond (h : s.params.memSize ≤ s.cursor.toNat) (v : Word) :
    s.memWritePort v = .halted (.memRange s.pc s.cursor) s :=
  if_neg (Nat.not_lt.2 h)

end

/-- Settles O40: inside the window the port's reply is the access and the next cursor, beyond it the halt (R49). -/
theorem memoryPortsAccessTheCursorAndAdvanceIt : Obligations.MemoryPortsAccessTheCursorAndAdvanceIt := by
  intro rd rport wport rs s hread hwrite hmem hparams hwf
  obtain ⟨-, hpos, hmax, -⟩ := paramsWf_iff.1 hparams
  have hnext : (cursorNext s.params.memSize s.cursor).toNat = (s.cursor.toNat + 1) % s.params.memSize :=
    cursorNext_toNat hpos hmax s.cursor
  refine ⟨fun hin => ⟨?readInside, ?writeInside⟩, fun hout => ⟨?readBeyond, ?writeBeyond⟩, rfl, rfl⟩
  case readInside =>
    exact completes_io_value hread hmem (memReadPort_inside hin)
      ⟨registersBut_writeReg _ rd _, rfl, fun _ => rfl, hnext, rfl⟩
  case writeInside =>
    exact completes_io_silent hwrite hmem (memWritePort_inside hin _)
      ⟨readMem_writeMem hwf _ _, rfl, fun _ => rfl, hnext, rfl⟩
  case readBeyond => exact completes_io_halted hread hmem (memReadPort_beyond hout) ⟨rfl, rfl⟩
  case writeBeyond => exact completes_io_halted hwrite hmem (memWritePort_beyond hout _) ⟨rfl, rfl⟩

end Sys2Proof.Machine

/-!
PROOFS of the family 30_encoding.md: decode and encode (R61 to R67) and the conditional gate (R85). The round trip rests on
records: encode goes from an instruction by its operand record to the record's word, and decode goes the same way back.
-/

namespace Sys2Proof.Machine

/-! ## The field F -/

theorem fieldF_eq_zero_iff {w : InsnWord} : fieldF w = 0#6 ↔ w.toNat / 2 ^ 18 = 0 := by
  rw [← BitVec.toNat_inj, fieldF_toNat]
  rfl

/-- A word decodes to INVALID exactly when its field F is 0 (R63). -/
theorem decode_eq_invalid_iff {k : Codes} {w : InsnWord} : k.decode w = .invalid ↔ fieldF w = 0#6 := by
  refine ⟨fun h => ?_, decode_of_fieldF_zero⟩
  by_contra hF
  have hrec : (k.decode w).fields = some (k.operands (k.decodeFields w hF)) := decode_fields hF
  rw [fields_eq_none.2 h] at hrec
  cases hrec

/-! ## Decode and encode -/

section

variable {k : Codes} {i : Instr} {w : InsnWord}

theorem exists_fields (h : i ≠ .invalid) : ∃ f, i.fields = some f :=
  Option.ne_none_iff_exists'.1 (mt fields_eq_none.1 h)

/-- Every instruction but INVALID has a word (R66). -/
theorem exists_encode (k : Codes) (h : i ≠ .invalid) : ∃ w, k.encode i = some w := by
  obtain ⟨f, hf⟩ := exists_fields h
  exact ⟨k.word (k.place f), by rw [Codes.encode, hf, Option.map_some]⟩

/-- The word of an instruction decodes to it: its record comes back, and with it the instruction. -/
theorem decode_of_encode (hk : k.wf = true) (h : k.encode i = some w) : k.decode w = i := by
  obtain ⟨f, hf, rfl⟩ := Option.map_eq_some_iff.1 h
  rw [decode_word hk, ofFields_of_fields hf]

/-- Two words with F not 0 that decode alike are the same word: each is the encoding of what it decodes to. -/
theorem decode_injective (hk : k.wf = true) {v : InsnWord} (hv : fieldF v ≠ 0#6) (hw : fieldF w ≠ 0#6)
    (h : k.decode v = k.decode w) : v = w := by
  have hv' := encode_decode hk hv
  rw [h, encode_decode hk hw] at hv'
  exact (Option.some.inj hv').symm

end

/-- Settles O5: by the records, for every codes that number every name once; the bytes of a word assemble to it again. -/
theorem decodeOfEncodeIsTheInstruction : Obligations.DecodeOfEncodeIsTheInstruction := by
  refine ⟨Codes.wf_default, fun k hk => ⟨fun i hi => ?roundTrip, rfl, fun _ => decode_of_fieldF_zero,
    fun _ _ => decode_injective hk⟩⟩
  case roundTrip =>
    obtain ⟨w, hw⟩ := exists_encode k hi
    have hd : k.decode w = i := decode_of_encode hk hw
    exact ⟨w, hw, hd, fun rest => by rw [decodeBytes_bytesOfWord, hd]⟩

/-- Settles O7: INVALID is the one instruction without a record, and its meaning is the halt. -/
theorem reservedFieldIsTheOneInvalid : Obligations.ReservedFieldIsTheOneInvalid :=
  ⟨fun _ _ => decode_eq_invalid_iff.trans fieldF_eq_zero_iff, exec_invalid⟩

/-- Settles O8: under the default codes the decoded record is the decoder's own, whose numbers are those of R64. -/
theorem opcodeFieldGivesOpAndCond : Obligations.OpcodeFieldGivesOpAndCond := by
  refine ⟨fun w hw => ?record, by decide, by decide⟩
  case record =>
    have hF : fieldF w ≠ 0#6 := mt fieldF_eq_zero_iff.1 hw
    obtain ⟨hop, hcond⟩ := code_decodeFields hF
    rw [fieldF_toNat] at hop hcond
    exact ⟨Codes.default.decodeFields w hF, by rw [decode_fields hF, operands_default], hop, hcond,
      fieldA_toNat w, fieldB_toNat w, fieldC_toNat w⟩

/-- Settles O10: the word of three bytes by its number; an input of none, one or two bytes is rejected by name. -/
theorem bytesAssembleBigEndian : Obligations.BytesAssembleBigEndian := by
  refine ⟨fun k b0 b1 b2 rest => ?assembled, fun k bytes h => ?rejected⟩
  case assembled =>
    rw [← wordOfBytes_toNat, BitVec.ofNat_toNat, BitVec.setWidth_eq]
    rfl
  case rejected =>
    match bytes, h with
    | [], _ => rfl
    | [_], _ => rfl
    | [_, _], _ => rfl

/-! ## The conditional gate -/

/-- An instruction whose cond's gate is false only advances pc (R85). -/
theorem exec_gatedOut {i : Instr} {c : Cond} {s : State} (hc : i.cond = some c) (hg : gate c s.cf = false) :
    exec i s = .next s.advance := by
  obtain ⟨f, hf, rfl⟩ := Option.map_eq_some_iff.1 hc
  rw [exec_of_fields hf, gated_out hg]

/-- Settles O43: in both cases the gate is false. -/
theorem gatedOutOnlyAdvancesPc : Obligations.GatedOutOnlyAdvancesPc := by
  refine ⟨fun _ => ⟨rfl, rfl, rfl⟩, fun i s h => ?_⟩
  obtain ⟨hc, hcf⟩ | ⟨hc, hcf⟩ := h
  · exact exec_gatedOut hc (by simp [gate, hcf])
  · exact exec_gatedOut hc (by simp [gate, hcf])

end Sys2Proof.Machine

/-!
PROOFS of the family 40_alu.md: the sums and the logic ops (R100 to R110). Every one of these ops only writes its first
operand field: that is said once, for any such op; what an op computes then is its value as the spec's arithmetic.
-/

namespace Sys2Proof.Machine

/-! ## Ops that only write their first operand field -/

section

variable (o : Op) {a b c v v' : Word} {s : State}

/-- An op whose meaning is to write v into the register of its field a does just that in each of its forms. -/
theorem completes_ofFields_writeBack (hop : opMeaning ⟨o, .always, a, b, c⟩ s = s.writeBack a v) (hv : v = v') :
    CompletesInEachForm (.ofFields ⟨o, .always, a, b, c⟩) (.ofFields ⟨o, .ifTrue, a, b, c⟩)
      (.ofFields ⟨o, .ifFalse, a, b, c⟩) s fun t => WritesOnlyRegister s t a v' := by
  have ungated : exec (.ofFields ⟨o, .always, a, b, c⟩) = opMeaning ⟨o, .always, a, b, c⟩ :=
    funext (exec_ofFields _)
  refine completes_writeBack ?_ ?_ ?_ hv <;> rw [ungated]
  · exact hop
  · exact exec_ofFields ⟨o, .ifTrue, a, b, c⟩ s
  · exact exec_ofFields ⟨o, .ifFalse, a, b, c⟩ s

/-- The words of such an op decode to its three forms, and these complete. -/
theorem encoded_and_completes (hop : opMeaning ⟨o, .always, a, b, c⟩ s = s.writeBack a v) (hv : v = v') :
    EncodedAs o.code a b c (.ofFields ⟨o, .always, a, b, c⟩) (.ofFields ⟨o, .ifTrue, a, b, c⟩)
        (.ofFields ⟨o, .ifFalse, a, b, c⟩) ∧
      CompletesInEachForm (.ofFields ⟨o, .always, a, b, c⟩) (.ofFields ⟨o, .ifTrue, a, b, c⟩)
        (.ofFields ⟨o, .ifFalse, a, b, c⟩) s fun t => WritesOnlyRegister s t a v' :=
  ⟨encodedAs_ofFields o a b c, completes_ofFields_writeBack o hop hv⟩

end

/-! ## Values -/

section

variable (x y : Word)

theorem mask6_toNat : mask6 x.toNat = x := (BitVec.ofNat_toNat 6 x).trans (BitVec.setWidth_eq x)

theorem add_tc6_eq_mask6_sum : x + tc6 y = mask6 (x.toNat + ((y.toNat ^^^ 63) + 1) % 64) := by
  rw [BitVec.add_def, tc6_toNat]

/-- Adding the two's complement is subtraction modulo 64 (R102, R109). -/
theorem add_tc6_eq_mask6_difference : x + tc6 y = mask6 (x.toNat + 64 - y.toNat) := by
  rw [tc6_eq_neg]
  bv_omega

theorem or_eq_mask6 : x ||| y = mask6 (x.toNat ||| y.toNat) := by
  rw [← BitVec.toNat_or, mask6_toNat]

theorem xor_eq_mask6 : x ^^^ y = mask6 (x.toNat ^^^ y.toNat) := by
  rw [← BitVec.toNat_xor, mask6_toNat]

theorem and_eq_mask6 : x &&& y = mask6 (x.toNat &&& y.toNat) := by
  rw [← BitVec.toNat_and, mask6_toNat]

end

/-- The operand that the logic ops combine is the spec's B, negated or not (R110). -/
theorem logicOperand_toNat (s : State) (rb : Word) :
    (logicOperand s.params.logicNegB (s.readReg rb)).toNat = secondOperand s rb := by
  unfold logicOperand secondOperand
  split
  · exact tc6_toNat _
  · rfl

/-! ## The obligations -/

/-- Settles O15: a sum of words is the sum of their numbers modulo 64. -/
theorem addWritesSumModulo64 : Obligations.AddWritesSumModulo64 :=
  fun _ _ _ _ => encoded_and_completes .add rfl (BitVec.add_def _ _)

/-- Settles O16, like O15 with the immediate as the second number. -/
theorem addiWritesSumModulo64 : Obligations.AddiWritesSumModulo64 :=
  fun _ _ _ _ => encoded_and_completes .addi rfl (BitVec.add_def _ _)

/-- Settles O17: the one value written is both the sum with the two's complement and the difference. -/
theorem subWritesDifferenceModulo64 : Obligations.SubWritesDifferenceModulo64 :=
  fun rd ra rb _ => ⟨encodedAs_ofFields .sub rd ra rb,
    (completes_ofFields_writeBack .sub rfl (add_tc6_eq_mask6_sum _ _)).and
      (completes_ofFields_writeBack .sub rfl (add_tc6_eq_mask6_difference _ _))⟩

/-- Settles O18: each op combines x[ra] with the operand that LOGIC_NEG_B selects. -/
theorem orXorAndCombineRegisters : Obligations.OrXorAndCombineRegisters := by
  intro rd ra rb s
  rw [← logicOperand_toNat]
  exact ⟨encoded_and_completes .or rfl (or_eq_mask6 _ _), encoded_and_completes .xor rfl (xor_eq_mask6 _ _),
    encoded_and_completes .and rfl (and_eq_mask6 _ _), rfl⟩

/-- Settles O19: each op combines x[ra] with the immediate as it stands. -/
theorem logicImmediatesCombine : Obligations.LogicImmediatesCombine :=
  fun _ _ _ _ =>
    ⟨encoded_and_completes .ori rfl (or_eq_mask6 _ _), encoded_and_completes .xori rfl (xor_eq_mask6 _ _),
      encoded_and_completes .andi rfl (and_eq_mask6 _ _)⟩

end Sys2Proof.Machine

/-!
PROOFS of the family 41_shifter.md: the shifts by a register (R120, R121) and by an immediate (R123 to R126). As in the
ALU, what is left of an op is its value; SHI's words need besides that its sub-field c is the number the rule gives.
-/

namespace Sys2Proof.Machine

/-! ## Shifts by a register -/

/-- What a completion ends in may be weakened. -/
theorem CompletesInEachForm.mono {i iT iF : Instr} {s : State} {Q R : State → Prop}
    (h : CompletesInEachForm i iT iF s Q) (hQR : ∀ t, Q t → R t) : CompletesInEachForm i iT iF s R := by
  obtain ⟨hAlways, hTrue, hFalse⟩ := h
  have weaken {j : Instr} : (∃ t, exec j s = .next t ∧ Q t) → ∃ t, exec j s = .next t ∧ R t :=
    fun ⟨t, ht, hq⟩ => ⟨t, ht, hQR t hq⟩
  exact ⟨weaken hAlways, fun hc => weaken (hTrue hc), fun hc => weaken (hFalse hc)⟩

/-- An op that only writes its field a, where P makes the value written 0. -/
theorem encoded_and_completes_zero (o : Op) {a b c v v' : Word} {s : State} {P : Prop}
    (hop : opMeaning ⟨o, .always, a, b, c⟩ s = s.writeBack a v) (hv : v = v') (hz : P → v = 0) :
    EncodedAs o.code a b c (.ofFields ⟨o, .always, a, b, c⟩) (.ofFields ⟨o, .ifTrue, a, b, c⟩)
        (.ofFields ⟨o, .ifFalse, a, b, c⟩) ∧
      CompletesInEachForm (.ofFields ⟨o, .always, a, b, c⟩) (.ofFields ⟨o, .ifTrue, a, b, c⟩)
        (.ofFields ⟨o, .ifFalse, a, b, c⟩) s
        fun t => WritesOnlyRegister s t a v' ∧ (P → WritesOnlyRegister s t a 0) := by
  subst hv
  obtain ⟨henc, hcompl⟩ := encoded_and_completes o hop rfl
  exact ⟨henc, hcompl.mono fun _ hw => ⟨hw, fun hP => hz hP ▸ hw⟩⟩

/-- Settles O20: a shift is a product or quotient by a power of two, and from the width on it leaves no bit. -/
theorem shiftsByRegisterDropBits : Obligations.ShiftsByRegisterDropBits :=
  fun _ _ _ _ =>
    ⟨encoded_and_completes_zero .shl rfl (lsl_eq_mul _ _) BitVec.shiftLeft_eq_zero,
      encoded_and_completes_zero .shr rfl (lsr_eq_div _ _) BitVec.ushiftRight_eq_zero⟩

/-! ## Shifts by an immediate -/

/-- The words of an op with the fields a, b and c decode to the instructions that have these records. -/
theorem encodedAs_of_fields {o : Op} {a b c : Word} {i iT iF : Instr} (h : i.fields = some ⟨o, .always, a, b, c⟩)
    (hT : iT.fields = some ⟨o, .ifTrue, a, b, c⟩) (hF : iF.fields = some ⟨o, .ifFalse, a, b, c⟩) :
    EncodedAs o.code a b c i iT iF := by
  rw [← ofFields_of_fields h, ← ofFields_of_fields hT, ← ofFields_of_fields hF]
  exact encodedAs_ofFields o a b c

/-- SHI's field c with its sub-field bit clear, as a number (R75). -/
theorem shiSub_eq_mask6 (ty : ShiftType) (dist : BitVec 3) :
    shiSub false ty dist = mask6 (ty.code.toNat * 8 + dist.toNat) := by
  cases ty <;> revert dist <;> decide

theorem encodedAs_shi (rd ra : Word) (ty : ShiftType) (dist : BitVec 3) :
    EncodedAs 11 rd ra (mask6 (ty.code.toNat * 8 + dist.toNat)) (.shi rd ra false ty dist) (.shiT rd ra false ty dist)
      (.shiF rd ra false ty dist) := by
  rw [← shiSub_eq_mask6]
  exact encodedAs_of_fields (o := .shi) rfl rfl rfl

/-- SHI with its sub-field bit clear only writes the value its type computes (R122). -/
theorem completes_shi {rd ra v : Word} {ty : ShiftType} {dist : BitVec 3} {s : State}
    (hv : shiftBy ty (s.readReg ra) dist.toNat = v) :
    CompletesInEachForm (.shi rd ra false ty dist) (.shiT rd ra false ty dist) (.shiF rd ra false ty dist) s
      fun t => WritesOnlyRegister s t rd v :=
  completes_writeBack rfl rfl rfl hv

/-- Settles O21: one completion for all four types, each with its value as arithmetic. -/
theorem shiftByImmediateHasFourTypes : Obligations.ShiftByImmediateHasFourTypes :=
  fun rd ra dist _ =>
    ⟨fun ty => encodedAs_shi rd ra ty dist, rfl, completes_shi (lsl_eq_mul _ _), completes_shi (lsr_eq_div _ _),
      completes_shi (asr_eq_or _ _), completes_shi (rol6_eq_or _ _)⟩

end Sys2Proof.Machine

/-!
PROOFS of the family 42_comparator.md: CMP (R141 to R143). The words need that CMP's sub-field a is the number the rule
gives; the flag is what the comparator makes of the two operands that the comparison type selects.
-/

namespace Sys2Proof.Machine

/-! ## Words -/

/-- CMP's field a with its sub-field bit clear, as a number (R72). -/
theorem cmpSub_eq_mask6 (ctype : CmpType) (cm : Comparator) :
    cmpSub false ctype cm = mask6 (ctype.code.toNat * 8 + cm.code.toNat) := by
  cases ctype <;> cases cm <;> decide

theorem encodedAs_cmp (ctype : CmpType) (cm : Comparator) (b c : Word) :
    EncodedAs 12 (mask6 (ctype.code.toNat * 8 + cm.code.toNat)) b c (.cmp false ctype cm b c)
      (.cmpT false ctype cm b c) (.cmpF false ctype cm b c) := by
  rw [← cmpSub_eq_mask6]
  exact encodedAs_of_fields (o := .cmp) rfl rfl rfl

/-! ## Operands and comparators -/

theorem cmpOperandA_eq_ite (ctype : CmpType) (field regValue : Word) :
    cmpOperandA ctype field regValue = if ctype = .rr ∨ ctype = .ri then regValue else field := by
  cases ctype <;> rfl

theorem cmpOperandB_eq_ite (ctype : CmpType) (field regValue : Word) :
    cmpOperandB ctype field regValue = if ctype = .rr ∨ ctype = .ir then regValue else field := by
  cases ctype <;> rfl

/-- The signed comparators read a word as its two's complement (R143). -/
theorem compareValues_slt (x y : Word) : compareValues .slt x y = decide (x.toInt < y.toInt) := by
  rw [← sext6_eq_toInt, ← sext6_eq_toInt]
  rfl

theorem compareValues_sgt (x y : Word) : compareValues .sgt x y = decide (x.toInt > y.toInt) :=
  compareValues_slt y x

/-- The eight comparators, one clause each (R142). -/
theorem compareValues_clauses (cm : Comparator) (x y : Word) :
    (cm = .tr → compareValues cm x y = true) ∧ (cm = .fa → compareValues cm x y = false) ∧
    (cm = .eq → compareValues cm x y = decide (x = y)) ∧ (cm = .ne → compareValues cm x y = decide (x ≠ y)) ∧
    (cm = .slt → compareValues cm x y = decide (x.toInt < y.toInt)) ∧
    (cm = .sgt → compareValues cm x y = decide (x.toInt > y.toInt)) ∧
    (cm = .ult → compareValues cm x y = decide (x.toNat < y.toNat)) ∧
    (cm = .ugt → compareValues cm x y = decide (x.toNat > y.toNat)) := by
  refine ⟨?_, ?_, ?_, ?_, ?_, ?_, ?_, ?_⟩ <;> rintro rfl
  case refine_5 => exact compareValues_slt x y
  case refine_6 => exact compareValues_sgt x y
  all_goals rfl

/-! ## The flag -/

/-- CMP with its sub-field bit clear puts the comparison into the flag and advances (R140). -/
theorem exec_cmp (ctype : CmpType) (cm : Comparator) (b c : Word) (s : State) :
    exec (.cmp false ctype cm b c) s = .next { s with
      cf := compareValues cm (cmpOperandA ctype b (s.readReg b)) (cmpOperandB ctype c (s.readReg c)) }.advance := rfl

/-- Settles O24: the flag is the only thing written beside pc, and its value is the comparator's clause. -/
theorem cmpSetsTheFlag : Obligations.CmpSetsTheFlag :=
  fun ctype cm b c s =>
    ⟨encodedAs_cmp ctype cm b c, rfl, rfl, completesInEachForm (exec_cmp ctype cm b c s) rfl rfl
      ⟨rfl, rfl, fun _ => rfl, fun _ => rfl, _, _, cmpOperandA_eq_ite ctype b (s.readReg b),
        cmpOperandB_eq_ite ctype c (s.readReg c), compareValues_clauses cm _ _⟩⟩

end Sys2Proof.Machine

/-!
PROOFS of the family 43_multiplier.md: FM (R161 to R163). The words need that FM's sub-field c is the number the rule
gives; the value written is the shift of the working product, so the product is first said as a number.
-/

namespace Sys2Proof.Machine

/-! ## Words -/

/-- FM's field c with its sub-field bit clear, as a number (R76). -/
theorem fmSub_eq_mask6 (mode : FmMode) (frac : BitVec 4) :
    fmSub false mode frac = mask6 (mode.code.toNat * 16 + frac.toNat) := by
  cases mode <;> revert frac <;> decide

theorem encodedAs_fm (rd rs : Word) (mode : FmMode) (frac : BitVec 4) :
    EncodedAs 13 rd rs (mask6 (mode.code.toNat * 16 + frac.toNat)) (.fm rd rs false mode frac)
      (.fmT rd rs false mode frac) (.fmF rd rs false mode frac) := by
  rw [← fmSub_eq_mask6]
  exact encodedAs_of_fields (o := .fm) rfl rfl rfl

/-! ## The product and its shift -/

/-- The product of two words fits the 12 bits, so that no bit of it is lost (R163). -/
theorem fmProduct_unsigned_toNat (signedOperands : Bool) (u v : Word) :
    (fmProduct signedOperands .unsigned u v).toNat = u.toNat * v.toNat :=
  Nat.mod_eq_of_lt (mul_lt u v)

/-- Only under FM_SIGNED_OPERANDS does signed mode multiply the two's complement values (R163). -/
theorem fmProduct_signed_toNat (signedOperands : Bool) (u v : Word) :
    (fmProduct signedOperands .signed u v).toNat =
      if signedOperands then (u.toInt * v.toInt % 4096).toNat else u.toNat * v.toNat := by
  cases signedOperands with
  | false => exact fmProduct_unsigned_toNat false u v
  | true => simp [fmProduct, sext6_eq_toInt, BitVec.toNat_ofInt]

/-- In unsigned mode the shift is a quotient by a power of two (R161). -/
theorem fmResult_unsigned (p : Word12) (frac : Nat) : fmResult .unsigned p frac = mask6 (p.toNat / 2 ^ frac) := by
  apply BitVec.eq_of_toNat_eq
  simp [fmResult, lsr, Nat.shiftRight_eq_div_pow]

/-! ## The instruction -/

/-- FM with its sub-field bit clear only writes the shifted product (R160). -/
theorem completes_fm {rd rs v : Word} {mode : FmMode} {frac : BitVec 4} {s : State}
    (hv : fmResult mode (fmProduct s.params.fmSignedOperands mode (s.readReg rd) (s.readReg rs)) frac.toNat = v) :
    CompletesInEachForm (.fm rd rs false mode frac) (.fmT rd rs false mode frac) (.fmF rd rs false mode frac) s
      fun t => WritesOnlyRegister s t rd v :=
  completes_writeBack rfl rfl rfl hv

/-- Settles O25: one completion for both modes; in signed mode p is the number of the working product. -/
theorem fixedPointMultiplyShiftsTheProduct : Obligations.FixedPointMultiplyShiftsTheProduct := by
  intro rd rs frac s
  refine ⟨fun mode => encodedAs_fm rd rs mode frac, rfl, rfl, completes_fm ?unsigned, ?signed⟩
  case unsigned => rw [fmResult_unsigned, fmProduct_unsigned_toNat]
  case signed =>
    exact (completes_fm (mode := .signed) (asr12_setWidth_eq_or _ _)).mono fun _ hw =>
      ⟨_, fmProduct_signed_toNat _ _ _, hw⟩

end Sys2Proof.Machine

/-!
PROOFS of the family 44_register_indirect.md: LD and ST (R170 to R172). Both only write one register. LD writes the
register of its field a, as an op of the ALU does; ST writes the register that the computed index names.
-/

namespace Sys2Proof.Machine

/-- ST only writes x[rs] into the register of the effective index (R171, R172). -/
theorem completes_st (rs ra imm : Word) (s : State) :
    CompletesInEachForm (.st rs ra imm) (.stT rs ra imm) (.stF rs ra imm) s
      fun t => WritesOnlyRegister s t (effectiveIndex (s.readReg ra) imm) (s.readReg rs) :=
  completes_writeBack rfl rfl rfl rfl

/-- Settles O26: the value read is that of the register numbered by the sum modulo 64. -/
theorem loadCopiesTheIndexedRegister : Obligations.LoadCopiesTheIndexedRegister :=
  fun _ _ _ s => encoded_and_completes .ld rfl (congrArg s.readReg (effectiveIndex_eq _ _))

/-- Settles O27: the register written is the one numbered by the sum modulo 64. -/
theorem storeWritesTheIndexedRegister : Obligations.StoreWritesTheIndexedRegister := by
  intro rs ra imm s
  rw [← effectiveIndex_eq]
  exact ⟨encodedAs_ofFields .st rs ra imm, completes_st rs ra imm s⟩

end Sys2Proof.Machine

/-!
PROOFS of the family 45_control_and_io.md: labels, halts and jumps (R180 to R189), and the devices that write to the
outside or are not there (R200, R205 to R207). A jump is its label search, said once for both directions; a device is its
reply.
-/

namespace Sys2Proof.Machine

/-! ## Jumps: the search -/

section

variable {s t : State} {dir : Direction} {a b rc v : Word} {Q : State → Prop}

theorem matchesLabel_eq_false_iff {i : Nat} :
    s.matchesLabel (labelKey a b) v i = false ↔ ¬ IsOpenLabel s a b v i := by
  rw [← matchesLabel_iff, Bool.not_eq_true]

theorem scanIndex_down (pc n k : Nat) : scanIndex .down pc n k = (pc + k) % n := rfl

/-- Within the tape the distance up is the spec's subtraction modulo the tape's length (R185). -/
theorem scanIndex_up {n k : Nat} (pc : Nat) (hk : k < n) : scanIndex .up pc n k = (pc + n - k) % n := by
  rw [Nat.add_sub_assoc hk.le]
  rfl

section

variable {index : Nat → Nat} (hindex : ∀ k < s.tape.length, scanIndex dir s.pc s.tape.length k = index k)
include hindex

/-- The search ends at the k-th candidate when that one is an open label and no earlier one is (R185, R186). -/
theorem search_eq_some_of_nearest {k : Nat} (hpos : 1 ≤ k) (hk : k < s.tape.length)
    (hopen : IsOpenLabel s a b (s.readReg rc) (index k))
    (hfirst : ∀ j, 1 ≤ j → j < k → ¬ IsOpenLabel s a b (s.readReg rc) (index j)) :
    s.search (s.jumpRequest dir a b rc) = some (index k) := by
  refine search_eq_some.2 ⟨k, hpos, hk, (hindex k hk).symm, (matchesLabel_iff ..).2 hopen, fun j hj hjk => ?_⟩
  rw [State.jumpRequest, hindex j (hjk.trans hk)]
  exact matchesLabel_eq_false_iff.2 (hfirst j hj hjk)

theorem search_eq_none_of_closed
    (hclosed : ∀ k, 1 ≤ k → k < s.tape.length → ¬ IsOpenLabel s a b (s.readReg rc) (index k)) :
    s.search (s.jumpRequest dir a b rc) = none := by
  refine search_eq_none.2 fun k hpos hk => ?_
  rw [State.jumpRequest, hindex k hk]
  exact matchesLabel_eq_false_iff.2 (hclosed k hpos hk)

end

/-! ## Jumps: what they answer -/

theorem serveJump_of_found {r : JumpRequest} {i : Nat} (h : s.search r = some i) :
    s.serveJump r = .next { s with pc := i } := by
  simp only [State.serveJump, h]

theorem serveJump_of_notFound {r : JumpRequest} (h : s.search r = none) :
    s.serveJump r = .next (s.raiseHalt (.labelNotFound s.pc r.key r.val)) := by
  simp only [State.serveJump, h]

theorem completes_jup (h : s.serveJump (s.jumpRequest .up a b rc) = .next t) (hq : Q t) :
    CompletesInEachForm (.jup a b rc) (.jupT a b rc) (.jupF a b rc) s Q :=
  completesInEachForm (i := .jup a b rc) h rfl rfl hq

theorem completes_jdn (h : s.serveJump (s.jumpRequest .down a b rc) = .next t) (hq : Q t) :
    CompletesInEachForm (.jdn a b rc) (.jdnT a b rc) (.jdnF a b rc) s Q :=
  completesInEachForm (i := .jdn a b rc) h rfl rfl hq

/-- The request of a word that decodes to a well-formed instruction of the cond that is always true is its op's. -/
theorem request_of_ungated {w : InsnWord} {i : Instr} {f : Fields} (h : s.params.codes.decode w = i)
    (hf : i.fields = some f) (hc : f.cond = .always) (hw : i.wellFormed = true) : s.request w = s.opRequest f := by
  subst h
  exact request_gatedIn hf (by rw [hc]; rfl) hw

end

/-- Settles O32: the search by its nearest open label in either direction, and the jump by what the search finds. -/
theorem jumpsGoToTheNearestOpenLabel : Obligations.JumpsGoToTheNearestOpenLabel := by
  intro a b rc s
  rw [← labelKey_eq_ofNat]
  have hdown : ∀ k < s.tape.length, scanIndex .down s.pc s.tape.length k = (s.pc + k) % s.tape.length :=
    fun _ _ => scanIndex_down ..
  have hup : ∀ k < s.tape.length, scanIndex .up s.pc s.tape.length k = (s.pc + s.tape.length - k) % s.tape.length :=
    fun _ hk => scanIndex_up s.pc hk
  refine ⟨encodedAs_ofFields .jup a b rc, encodedAs_ofFields .jdn a b rc,
    fun w hw => request_of_ungated hw rfl rfl rfl, fun w hw => request_of_ungated hw rfl rfl rfl,
    fun k hpos hk hopen hfirst => ?foundDown, fun k hpos hk hopen hfirst => ?foundUp,
    fun hclosed => ?noneDown, fun hclosed => ?noneUp⟩
  case foundDown =>
    exact completes_jdn (serveJump_of_found (search_eq_some_of_nearest hdown hpos hk hopen hfirst)) rfl
  case foundUp =>
    exact completes_jup (serveJump_of_found (search_eq_some_of_nearest hup hpos hk hopen hfirst)) rfl
  case noneDown =>
    exact completes_jdn (serveJump_of_notFound (search_eq_none_of_closed hdown hclosed)) ⟨rfl, rfl⟩
  case noneUp =>
    exact completes_jup (serveJump_of_notFound (search_eq_none_of_closed hup hclosed)) ⟨rfl, rfl⟩

/-! ## Labels -/

/-- The label query port on the word of an LBL, under any codes (R33). -/
theorem labelQuery_of_label {k : Codes} {w : InsnWord} {d : Cond} {a b c : Word}
    (h : (k.decode w).fields = some ⟨.lbl, d, a, b, c⟩) (cf : Bool) :
    labelQuery k w cf = { isLbl := true, gate := gate d cf, key := labelKey a b, val := c } := by
  have hF : fieldF w ≠ 0#6 := by
    intro h0
    rw [decode_of_fieldF_zero h0] at h
    cases h
  have hrec : k.operands (k.decodeFields w hF) = ⟨.lbl, d, a, b, c⟩ :=
    Option.some.inj ((decode_fields hF).symm.trans h)
  have hop : (k.decodeFields w hF).op = .lbl := by rw [← Codes.operands_op (k := k), hrec]
  rw [Codes.operands_fixed (.inl hop)] at hrec
  have ha : fieldA w = a := congrArg Fields.a hrec
  have hb : fieldB w = b := congrArg Fields.b hrec
  have hc : fieldC w = c := congrArg Fields.c hrec
  simp [labelQuery, Instr.op, Instr.cond, h, ha, hb, hc]

/-- Settles O28: LBL only advances, and the port's answer follows from the word's record. -/
theorem labelIsANoOpThatTheQueryPortSees : Obligations.LabelIsANoOpThatTheQueryPortSees := by
  refine ⟨fun a b c s => ⟨encodedAs_ofFields .lbl a b c, completesInEachForm (i := .lbl a b c) rfl rfl rfl rfl⟩,
    fun k w cf a b c gated h => ?label, fun k w cf h => decide_eq_false h⟩
  case label =>
    obtain ⟨d, hrec, hgate⟩ : ∃ d, (k.decode w).fields = some ⟨.lbl, d, a, b, c⟩ ∧ gated = gate d cf := by
      obtain ⟨hw, hg⟩ | ⟨hw, hg⟩ | ⟨hw, hg⟩ := h
      · exact ⟨.always, by rw [hw]; rfl, hg⟩
      · exact ⟨.ifTrue, by rw [hw]; rfl, hg⟩
      · exact ⟨.ifFalse, by rw [hw]; rfl, hg⟩
    rw [labelQuery_of_label hrec]
    exact ⟨rfl, hgate.symm, labelKey_toNat a b, rfl⟩

/-! ## Halts -/

/-- Settles O29: the meaning of HLT is the halt, whatever its fields hold. -/
theorem hltHaltsInPlace : Obligations.HltHaltsInPlace :=
  fun a b c _ => ⟨encodedAs_ofFields .hlt a b c, completesInEachForm (i := .hlt a b c) rfl rfl rfl ⟨rfl, rfl⟩⟩

theorem currentWord_of_fetched {s : State} {w : InsnWord} (h : s.tape[s.pc]? = some w) : s.currentWord = w := by
  rw [State.currentWord, h, Option.getD_some]

/-- Settles O30: a word with F = 0 decodes to INVALID, whose meaning is the halt with that word. -/
theorem invalidHaltsWhateverTheFlagHolds : Obligations.InvalidHaltsWhateverTheFlagHolds := by
  refine ⟨fun s w hw hF => ?fetched, fun s => ⟨_, exec_invalid s, rfl, rfl⟩, decode_of_fieldF_zero rfl⟩
  case fetched => rw [decode_of_fieldF_zero hF, exec_invalid, currentWord_of_fetched hw, raiseHalt_eq_haltedFor]

/-! ## Devices that write to the outside -/

/-- Settles O36: SERIAL_WRITE answers with no value, its one change being the sink. -/
theorem serialWriteAppendsToTheSink : Obligations.SerialWriteAppendsToTheSink := by
  refine ⟨fun rd d rs s hd => ⟨encodedAs_ofFields .io rd 2 rs, rfl, ?_⟩, by decide⟩
  exact completes_io_silent hd rfl rfl ⟨rfl, fun _ => rfl, fun _ => rfl⟩

/-- A channel's level is the one its two bits number (R206). -/
theorem getElem?_levels (c : BitVec 2) : [0x00, 0x55, 0xAA, 0xFF][c.toNat]? = some (colourLevel c).toNat := by
  revert c
  decide

theorem extract_red_toNat (v : Word) : (v.extractLsb' 4 2).toNat = v.toNat / 16 := by
  have := v.isLt
  rw [BitVec.extractLsb'_toNat, Nat.shiftRight_eq_div_pow]
  omega

theorem extract_green_toNat (v : Word) : (v.extractLsb' 2 2).toNat = v.toNat / 4 % 4 := by
  rw [BitVec.extractLsb'_toNat, Nat.shiftRight_eq_div_pow]

theorem extract_blue_toNat (v : Word) : (v.extractLsb' 0 2).toNat = v.toNat % 4 := by
  rw [BitVec.extractLsb'_toNat, Nat.shiftRight_zero]

/-- Settles O41: each GPU device answers with no value; the pixel's channels are the levels of the three bit pairs. -/
theorem gpuDevicesMoveTheDrawCursorAndPlot : Obligations.GpuDevicesMoveTheDrawCursorAndPlot := by
  intro rd x y draw rs s hx hy hdraw hrenderer
  rw [← extract_red_toNat, ← extract_green_toNat, ← extract_blue_toNat]
  exact ⟨completes_io_silent hx hrenderer rfl ⟨rfl, fun _ => rfl, fun _ => rfl⟩,
    completes_io_silent hy hrenderer rfl ⟨rfl, fun _ => rfl, fun _ => rfl⟩,
    completes_io_silent hdraw hrenderer rfl ⟨s.plotAt (s.readReg rs), rfl, rfl, rfl, getElem?_levels _,
      getElem?_levels _, getElem?_levels _, fun _ => rfl, fun _ => rfl⟩, rfl, rfl, rfl⟩

/-! ## Undefined devices -/

theorem deviceAt_of_unnamed {p : Params} {i : Word} (h : p.codes.deviceOf i = none) : deviceAt p i = none := by
  simp only [deviceAt, h]

/-- An index that names a device which is absent reaches none (R207). -/
theorem deviceAt_of_absent {p : Params} {i : Word} {d : Device} (h : p.codes.deviceOf i = some d)
    (hd : Device.present p d = false) : deviceAt p i = none := by
  simp [deviceAt, h, hd]

/-- IO to an index that reaches no device halts at once (R225). -/
theorem opIo_of_unreached {rd d rs : Word} {s : State} (h : deviceAt s.params d = none) :
    opIo rd d rs s = .next (s.raiseHalt (.unknownIo s.pc d)) := by
  simp only [opIo, State.serveIo, State.ioRequest, h, State.finishIo]

theorem present_eq_hasMem (p : Params) :
    ∀ d ∈ [Device.memAddrLo, .memAddrMid, .memAddrHi, .memRead, .memWrite], Device.present p d = p.hasMem := by
  simp [Device.present]

theorem present_eq_hasRenderer (p : Params) :
    ∀ d ∈ [Device.gpuX, .gpuY, .gpuDraw], Device.present p d = p.hasRenderer := by
  simp [Device.present]

/-- Settles O42: an index without a name, or whose device is absent, reaches none. -/
theorem undefinedDeviceHalts : Obligations.UndefinedDeviceHalts := by
  refine ⟨fun rd d rs s h => ?halts, by decide, rfl, rfl⟩
  case halts =>
    have hnone : deviceAt s.params d = none := by
      obtain hd | ⟨hmem, x, hx, hd⟩ | ⟨hrenderer, x, hx, hd⟩ := h
      · exact deviceAt_of_unnamed hd
      · exact deviceAt_of_absent hd ((present_eq_hasMem _ x hx).trans hmem)
      · exact deviceAt_of_absent hd ((present_eq_hasRenderer _ x hx).trans hrenderer)
    exact completes_io (opIo_of_unreached hnone) ⟨rfl, rfl⟩

end Sys2Proof.Machine

/-!
PROOFS of the family 60_exceptions.md: the halt on a sub-field error (R224). SHI, CMP and FM share it, so that what it
does in the three forms of an instruction is said once.
-/

namespace Sys2Proof.Machine

section

variable {s : State} {w : InsnWord}

/-- The halt of a sub-field error, with the word at pc by name (R224). -/
theorem haltBadSubfield_of_fetched (hw : s.tape[s.pc]? = some w) :
    s.haltBadSubfield = haltedFor s (.badSubfield s.pc w) := by
  rw [State.haltBadSubfield, currentWord_of_fetched hw, raiseHalt_eq_haltedFor]

/-- An instruction that takes the sub-field error, in its three forms. -/
theorem completes_badSubfield {i iT iF : Instr} (hw : s.tape[s.pc]? = some w)
    (h : exec i s = .next s.haltBadSubfield) (hT : exec iT s = gated .ifTrue s (exec i))
    (hF : exec iF s = gated .ifFalse s (exec i)) :
    CompletesInEachForm i iT iF s fun t => t = haltedFor s (.badSubfield s.pc w) ∧ t.haltCode = 3 :=
  completesInEachForm h hT hF ⟨haltBadSubfield_of_fetched hw, rfl⟩

end

/-! ## The instructions with their sub-field bit set -/

theorem exec_shi_badSubfield (rd ra : Word) (ty : ShiftType) (dist : BitVec 3) (s : State) :
    exec (.shi rd ra true ty dist) s = .next s.haltBadSubfield := rfl

theorem exec_cmp_badSubfield (ctype : CmpType) (cm : Comparator) (b c : Word) (s : State) :
    exec (.cmp true ctype cm b c) s = .next s.haltBadSubfield := rfl

theorem exec_fm_badSubfield (rd rs : Word) (mode : FmMode) (frac : BitVec 4) (s : State) :
    exec (.fm rd rs true mode frac) s = .next s.haltBadSubfield := rfl

/-- Settles O31: each of the three takes the sub-field error, which records the word at pc. -/
theorem subFieldErrorHalts : Obligations.SubFieldErrorHalts :=
  fun s _ hw =>
    ⟨fun rd ra ty dist => completes_badSubfield hw (exec_shi_badSubfield rd ra ty dist s) rfl rfl,
      fun ctype cm b c => completes_badSubfield hw (exec_cmp_badSubfield ctype cm b c s) rfl rfl,
      fun rd rs mode frac => completes_badSubfield hw (exec_fm_badSubfield rd rs mode frac s) rfl rfl⟩

end Sys2Proof.Machine

/-!
PROOFS of the family 70_reset_and_hazards.md: what reset leaves (R250, R255). The launch and the reset of the block fill
the register file in one way, with the draws but for cell 0, so that what the registers read is said once for both.
-/

namespace Sys2Proof.Machine

/-- The registers of a register file filled with the draws r: r0 reads 0, every other register its draw (R251, R252). -/
theorem readReg_of_drawn {s : State} {r : Vector Word 64} (h : s.regs = r.set 0 0) (j : Word) :
    s.readReg j = if j = 0#6 then 0 else r[j.toNat] := by
  by_cases hj : j = 0#6
  · simp [hj]
  · have hcell : 0 ≠ j.toNat := fun h0 => hj (BitVec.eq_of_toNat_eq h0.symm)
    simp only [State.readReg, h, if_neg hj]
    exact Vector.getElem_set_ne _ _ hcell

theorem regs_launch (l : Launch) : (State.launch l).regs = l.regInit.set 0 0 := rfl

theorem regs_rst (s : State) (r : Vector Word 64) (c : Bool) : (s.rst r c).regs = r.set 0 0 := rfl

/-- The reset of the block leaves the environment as it was (R30, R250). -/
theorem rst_frame (s : State) (r : Vector Word 64) (c : Bool) :
    s.rst r c = { s with regs := (s.rst r c).regs, cf := c } := rfl

/-- Settles O1: the registers read their draws after the launch and after `rst`; every other field is assigned. -/
theorem launchSetsResetState : Obligations.LaunchSetsResetState :=
  fun l =>
    ⟨readReg_of_drawn (regs_launch l), rfl, rfl, rfl, rfl, rfl, rfl, rfl, rfl, rfl, fun _ => rfl, rfl, rfl, rfl,
      fun s r c => ⟨rfl, readReg_of_drawn (regs_rst s r c), rst_frame s r c⟩⟩

end Sys2Proof.Machine

/-!
PROOFS of the family other: the statements about every instruction (R23, R25, R42, R196, R230). All that exec can do is
said once (ExecEffect, exec_effect), as it was for the meaning of an op; each statement about what an instruction
writes, raises or leaves alone is then a split on these few cases.
-/

namespace Sys2Proof.Machine

/-! ## All that an instruction can do -/

/-- The reasons for which exec of the instruction i halts the machine s at once (R221). -/
inductive InstrHalt (s : State) (i : Instr) : Halt → Prop where
  | hlt : InstrHalt s i (.hlt s.pc)
  | invalid (hi : i.wellFormed = false) : InstrHalt s i (.invalid s.pc s.currentWord)
  | badSubfield (hi : i.wellFormed = false) : InstrHalt s i (.badSubfield s.pc s.currentWord)
  | unknownIo (d : Word) : InstrHalt s i (.unknownIo s.pc d)
  | labelNotFound (key : Word12) (val : Word) : InstrHalt s i (.labelNotFound s.pc key val)
  | hostAbort : InstrHalt s i (.hostAbort s.pc)
  | memRange : InstrHalt s i (.memRange s.pc s.cursor)

/-- What a device has done to the machine s when its instruction completes; nothing where there is no device. -/
structure DeviceDone (s t : State) : Prop extends DeviceFrame s t where
  mem : Memory.wf s.params.memSize s.mem = true → Memory.wf s.params.memSize t.mem = true

theorem DeviceDone.refl (s : State) : DeviceDone s s := ⟨.refl s, id⟩

theorem DeviceDone.of_served {s t : State} {r : IoRequest} {v : Option Word} (h : s.serveIo r = .done v t)
    (hf : DeviceFrame s t) : DeviceDone s t :=
  ⟨hf, serveIo_done_mem h⟩

/-- All that exec of the instruction i in the state s can answer. -/
inductive ExecEffect (s : State) (i : Instr) : Result → Prop where
  | silent (t : State) (ht : DeviceDone s t) : ExecEffect s i (.next t.advance)
  | write (t : State) (ht : DeviceDone s t) (rd v : Word) (hd : destination s i = some rd) :
      ExecEffect s i (.next (t.writeReg rd v).advance)
  | flag (b : Bool) (h : i.op = some .cmp) : ExecEffect s i (.next { s with cf := b }.advance)
  | jump (j : Nat) (hj : j < s.tape.length) : ExecEffect s i (.next { s with pc := j })
  | halt (h : Halt) (hh : InstrHalt s i h) : ExecEffect s i (.next (s.raiseHalt h))
  | quit : ExecEffect s i (.next (s.zeroClock.raiseHalt (.rendererQuit s.pc)))
  | blocked (c : Cond) (rd d rs : Word) (hi : i.fields = some ⟨.io, c, rd, d, rs⟩)
      (hd : s.params.codes.deviceOf d = some .serialIncoming ∨ s.params.codes.deviceOf d = some .serialRead)
      (hs : s.serialIn = []) (hl : ∀ l ∈ s.inputLines, l = []) : ExecEffect s i (.fault .serialInputBlocked)

/-- An index that reaches a device names it. -/
theorem deviceOf_of_deviceAt {p : Params} {i : Word} {d : Device} (h : deviceAt p i = some d) :
    p.codes.deviceOf i = some d := by
  unfold deviceAt at h
  split at h
  · split at h
    · rwa [‹p.codes.deviceOf i = _›]
    · cases h
  · cases h

theorem destination_io {s : State} {i : Instr} {c : Cond} {rd d rs : Word}
    (hi : i.fields = some ⟨.io, c, rd, d, rs⟩) : destination s i = some rd := by
  simp only [destination, hi]

/-- All that an IO instruction that is gated in can answer. -/
theorem opIo_effect {i : Instr} {c : Cond} {rd d rs : Word} (s : State)
    (hi : i.fields = some ⟨.io, c, rd, d, rs⟩) : ExecEffect s i (opIo rd d rs s) := by
  obtain ⟨v, t, hr, hf, h⟩ | ⟨t, hr, hf, h⟩ | ⟨r, h, hh⟩ | h | ⟨h, hs, hl, hd⟩ := opIo_cases rd d rs s <;> rw [h]
  case inl => exact .write t (.of_served hr hf) rd v (destination_io hi)
  case inr.inl => exact .silent t (.of_served hr hf)
  case inr.inr.inl =>
    obtain rfl | rfl | rfl := hh
    · exact .halt _ (.unknownIo d)
    · exact .halt _ .memRange
    · exact .halt _ .hostAbort
  case inr.inr.inr.inl => exact .quit
  case inr.inr.inr.inr => exact .blocked c rd d rs hi (hd.imp deviceOf_of_deviceAt deviceOf_of_deviceAt) hs hl

/-- All that the meaning of an op can answer, IO included. -/
theorem opMeaning_execEffect {i : Instr} {f : Fields} (s : State) (hi : i.fields = some f) :
    ExecEffect s i (opMeaning f s) := by
  have heff := opMeaning_effect f s
  generalize opMeaning f s = r at heff
  cases heff with
  | write rd v hd => exact .write s (.refl s) rd v (hd i hi)
  | flag b hop => exact .flag b (by rw [op_of_fields hi, hop])
  | label hop => exact .silent s (.refl s)
  | jump j hop hj => exact .jump j hj
  | halt h hop =>
    obtain ⟨-, rfl⟩ | ⟨-, herr, rfl⟩ | ⟨-, key, val, rfl⟩ := hop
    · exact .halt _ .hlt
    · exact .halt _ (.badSubfield (by simpa [subErr_eq_not_wellFormed hi] using herr))
    · exact .halt _ (.labelNotFound key val)
  | io hop =>
    obtain ⟨o, c, rd, d, rs⟩ := f
    cases hop
    exact opIo_effect s hi

/-- Every answer of exec is one of ExecEffect's. -/
theorem exec_effect (i : Instr) (s : State) : ExecEffect s i (exec i s) := by
  obtain ⟨rfl, h⟩ | ⟨f, hf, -, h⟩ | ⟨f, -, -, h⟩ := exec_cases i s <;> rw [h]
  case inl => exact .halt _ (.invalid rfl)
  case inr.inl => exact opMeaning_execEffect s hf
  case inr.inr => exact .silent s (.refl s)

theorem exec_effect_of_eq {i : Instr} {s : State} {r : Result} (h : exec i s = r) : ExecEffect s i r :=
  h ▸ exec_effect i s

/-! ## The invariant -/

/-- pc moves within a tape that is not empty. -/
theorem advance_pc_lt {s : State} (h : s.advance.tape ≠ []) : s.advance.pc < s.advance.tape.length :=
  Nat.mod_lt _ (List.length_pos_iff.2 h)

/-- What an instruction has kept of the invariant before the end of its cycle: a quit may be pending while the machine
runs. -/
structure MidInv (s : State) : Prop where
  paramsInRange : Params.wf s.params = true
  pcOnTape : s.tape ≠ [] → s.pc < s.tape.length
  memCanonical : Memory.wf s.params.memSize s.mem = true
  cellZero : s.regs[0] = 0
  rendererRuns : s.rendererUp = (s.params.hasRenderer && s.halt.isNone)
  quitWhileRunning : s.halt.isSome = true → s.quitPending = false

theorem cellZero_writeReg {s : State} (i v : Word) (h : s.regs[0] = 0) : (s.writeReg i v).regs[0] = 0 := by
  simp only [State.writeReg_regs]
  split
  · exact h
  · rename_i hi
    have hcell : i.toNat ≠ 0 := fun h0 => hi (BitVec.eq_of_toNat_eq h0)
    rw [Vector.getElem_set_ne _ _ hcell]
    exact h

theorem Inv.mid {s : State} (h : Inv s) : MidInv s := { h with quitWhileRunning := fun _ => h.quitUsedUp }

theorem MidInv.raiseHalt {s : State} (h : MidInv s) (hq : s.quitPending = false) (r : Halt) :
    MidInv (s.raiseHalt r) :=
  { h with rendererRuns := by simp, quitWhileRunning := fun _ => hq }

/-- A device that answers in a running machine, then the advance. -/
theorem MidInv.advance_of_served {s t : State} (h : MidInv s) (hrun : s.halt = none) (ht : DeviceDone s t) :
    MidInv t.advance where
  paramsInRange := by simpa [ht.params] using h.paramsInRange
  pcOnTape := advance_pc_lt
  memCanonical := by simpa [ht.params] using ht.mem h.memCanonical
  cellZero := by simpa [ht.regs] using h.cellZero
  rendererRuns := by simpa [ht.params, ht.halt, ht.rendererUp] using h.rendererRuns
  quitWhileRunning := by simp [ht.halt, hrun]

theorem MidInv.writeReg {s : State} (h : MidInv s) (i v : Word) : MidInv (s.writeReg i v) :=
  { h with cellZero := cellZero_writeReg i v h.cellZero }

theorem exec_midInv {i : Instr} {s t : State} (hs : Inv s) (hrun : s.halt = none) (h : exec i s = .next t) :
    MidInv t := by
  have hmid : MidInv s := hs.mid
  cases exec_effect_of_eq h with
  | silent u hu => exact hmid.advance_of_served hrun hu
  | write u hu rd v hd => exact (hmid.advance_of_served hrun hu).writeReg rd v
  | flag b hop => exact { hmid with pcOnTape := advance_pc_lt }
  | jump j hj => exact { hmid with pcOnTape := fun _ => hj }
  | halt r hr => exact hmid.raiseHalt hs.quitUsedUp r
  | quit =>
    have hzero : MidInv s.zeroClock := { hmid with }
    exact hzero.raiseHalt hs.quitUsedUp _

/-- The end of a cycle uses up the pending quit, and tears the renderer down where it halts. -/
theorem MidInv.endCycle {s : State} (h : MidInv s) : Inv s.endCycle where
  paramsInRange := by simpa using h.paramsInRange
  pcOnTape := by simpa using h.pcOnTape
  memCanonical := by simpa using h.memCanonical
  cellZero := by simpa using h.cellZero
  rendererRuns := by
    obtain ⟨-, e⟩ | ⟨-, -, e⟩ | ⟨-, -, -, e⟩ | ⟨-, -, -, e⟩ := endCycle_cases s <;> rw [e]
    · exact h.rendererRuns
    · simp
    · simp
    · exact h.rendererRuns
  quitUsedUp := endCycle_quitPending h.quitWhileRunning

/-- Settles O4: exec keeps all of the invariant but the used-up quit, and the end of the cycle brings that back. -/
theorem stepKeepsInvariant : Obligations.StepKeepsInvariant := by
  intro s t hs hstep
  obtain ⟨hrun, w, u, -, hexec, rfl⟩ := step_next hstep
  exact (exec_midInv hs hrun hexec).endCycle

/-- Settles O3: every clause is a field of the launch or a hypothesis. -/
theorem launchMeetsInvariant : Obligations.LaunchMeetsInvariant := by
  have launched (l : Launch) (hp : Params.wf l.params = true) (hm : Memory.wf l.params.memSize l.memInit = true)
      (hpc : l.tape ≠ [] → l.params.pcInit < l.tape.length) : Inv (State.launch l) :=
    ⟨hp, hpc, hm, by simp [regs_launch], by simp [State.launch], rfl⟩
  exact ⟨launched Launch.default paramsWf_default rfl fun h => absurd rfl h, launched⟩

/-! ## What no instruction, or only one, writes -/

theorem exec_cf {i : Instr} {s t : State} (hi : i.op ≠ some .cmp) (h : exec i s = .next t) : t.cf = s.cf := by
  cases exec_effect_of_eq h with
  | silent u hu => exact hu.cf
  | write u hu rd v hd => exact hu.cf
  | flag b hop => exact absurd hop hi
  | jump j hj => rfl
  | halt r hr => rfl
  | quit => rfl

/-- Settles O44: every answer of exec but CMP's leaves the flag, and the end of the cycle leaves it always. -/
theorem onlyCmpWritesTheFlag : Obligations.OnlyCmpWritesTheFlag := by
  refine ⟨fun i s t => exec_cf, fun s t w hw hop hstep => ?step⟩
  case step =>
    obtain ⟨-, w', u, hw', hexec, rfl⟩ := step_next hstep
    obtain rfl : w' = w := Option.some.inj (hw'.symm.trans hw)
    rw [endCycle_cf, exec_cf hop hexec]

/-- Settles O45: a register is written only where ExecEffect names it as the destination. -/
theorem onlyTheDestinationRegisterChanges : Obligations.OnlyTheDestinationRegisterChanges := by
  refine ⟨fun i s t j h hj => ?exec, endCycle_readReg⟩
  case exec =>
    cases exec_effect_of_eq h with
    | silent u hu => exact readReg_congr hu.regs j
    | write u hu rd v hd =>
      have hne : j ≠ rd := fun e => hj (e ▸ hd)
      rw [readReg_advance, readReg_writeReg, if_neg fun hw => hne hw.1]
      exact readReg_congr hu.regs j
    | flag b hop => rfl
    | jump k hk => rfl
    | halt r hr => rfl
    | quit => rfl

theorem exec_tape_params {i : Instr} {s t : State} (h : exec i s = .next t) :
    t.tape = s.tape ∧ t.params = s.params := by
  cases exec_effect_of_eq h with
  | silent u hu => exact ⟨hu.tape, hu.params⟩
  | write u hu rd v hd => exact ⟨hu.tape, hu.params⟩
  | flag b hop => exact ⟨rfl, rfl⟩
  | jump j hj => exact ⟨rfl, rfl⟩
  | halt r hr => exact ⟨rfl, rfl⟩
  | quit => exact ⟨rfl, rfl⟩

/-- Settles O46: neither exec nor the end of the cycle writes the tape or the parameters. -/
theorem tapeAndParametersAreNeverWritten : Obligations.TapeAndParametersAreNeverWritten := by
  refine ⟨fun i s t => exec_tape_params, fun s t hstep => ?step⟩
  case step =>
    obtain ⟨-, w, u, -, hexec, rfl⟩ := step_next hstep
    rw [endCycle_tape, endCycle_params]
    exact exec_tape_params hexec

/-! ## Halts -/

/-- A halt that exec raises in a running machine is one of InstrHalt's and changes nothing else, or it is the quit
inside a clock reset. -/
theorem exec_halts {i : Instr} {s t : State} {h : Halt} (hrun : s.halt = none) (hexec : exec i s = .next t)
    (ht : t.halt = some h) : (InstrHalt s i h ∧ t = haltedFor s h) ∨ h = .rendererQuit s.pc := by
  cases exec_effect_of_eq hexec with
  | silent u hu => simp [hu.halt, hrun] at ht
  | write u hu rd v hd => simp [hu.halt, hrun] at ht
  | flag b hop => simp [hrun] at ht
  | jump j hj => simp [hrun] at ht
  | halt r hr =>
    obtain rfl : r = h := Option.some.inj ht
    exact .inl ⟨hr, raiseHalt_eq_haltedFor s r⟩
  | quit => exact .inr (Option.some.inj ht).symm

/-- Settles O47: a halt other than RENDERER_QUIT is exec's own, one disjunct for each of InstrHalt's reasons. -/
theorem haltsArePrecise : Obligations.HaltsArePrecise := by
  intro i s t h hrun hexec ht hquit
  obtain ⟨hh, rfl⟩ | rfl := exec_halts hrun hexec ht
  · refine ⟨rfl, ?_⟩
    cases hh with
    | hlt => exact .inl rfl
    | invalid => exact .inr (.inl rfl)
    | badSubfield => exact .inr (.inr (.inl rfl))
    | unknownIo d => exact .inr (.inr (.inr (.inl ⟨d, rfl⟩)))
    | labelNotFound key val => exact .inr (.inr (.inr (.inr (.inl ⟨key, val, rfl⟩))))
    | hostAbort => exact .inr (.inr (.inr (.inr (.inr (.inl rfl)))))
    | memRange => exact .inr (.inr (.inr (.inr (.inr (.inr rfl)))))
  · exact absurd rfl (hquit s.pc)

/-- A gated-in op with a sub-field error halts with BAD_SUBFIELD (R78, R224). -/
theorem opMeaning_of_subErr {f : Fields} (h : Fields.subErr f = true) (s : State) :
    opMeaning f s = .next s.haltBadSubfield := by
  obtain ⟨o, c, a, b, v⟩ := f
  cases o
  case shi | fm | cmp => simp_all [Fields.subErr, opMeaning, opShi, opFm, opCmp]
  all_goals simp [Fields.subErr] at h

/-- Settles O58: exec raises the two codes for ill-formed instructions only, and an ill-formed one that is gated in is
INVALID or has a sub-field error. -/
theorem wellFormedNeverHaltsBadSubfield : Obligations.WellFormedNeverHaltsBadSubfield := by
  refine ⟨fun i s t p w hrun hi hexec => ?wellFormed, fun i s hi hgate => ?illFormed⟩
  case wellFormed =>
    refine ⟨fun ht => ?_, fun ht => ?_⟩ <;> obtain ⟨hh, -⟩ | hq := exec_halts hrun hexec ht
    · cases hh with
      | badSubfield hill => simp [hi] at hill
    · cases hq
    · cases hh with
      | invalid hill => simp [hi] at hill
    · cases hq
  case illFormed =>
    cases hf : i.fields with
    | none =>
      obtain rfl := fields_eq_none.1 hf
      exact ⟨_, exec_invalid s, .inr rfl⟩
    | some f =>
      have hcond : i.cond = some f.cond := by rw [Instr.cond, hf, Option.map_some]
      have herr : Fields.subErr f = true := by rw [subErr_eq_not_wellFormed hf, hi, Bool.not_false]
      refine ⟨s.haltBadSubfield, ?_, .inl rfl⟩
      rw [exec_of_fields hf, gated_in (hgate _ hcond), opMeaning_of_subErr herr]

/-! ## Completion and suspension -/

/-- Settles O48: gated in, such an op only writes a register or, for LBL, nothing; gated out it only advances. -/
theorem computingInstructionsNeverStop : Obligations.ComputingInstructionsNeverStop := by
  intro i s op hop hnever
  have completes {u : State} (hu : u = { s with regs := u.regs }) :
      ∃ t, (.next u.advance : Result) = .next t ∧ t.halt = s.halt ∧ t.cf = s.cf ∧ PcAdvanced s t ∧
        t = { s with regs := t.regs, pc := t.pc } := by
    rw [hu]
    exact ⟨_, rfl, rfl, rfl, rfl, rfl⟩
  obtain ⟨rfl, -⟩ | ⟨f, hf, -, h⟩ | ⟨f, -, -, h⟩ := exec_cases i s
  case inl => cases hop
  case inr.inr => exact h ▸ completes rfl
  case inr.inl =>
    obtain rfl : f.op = op := Option.some.inj ((op_of_fields hf).symm.trans hop)
    rw [h]
    have heff := opMeaning_effect f s
    generalize opMeaning f s = r at heff
    cases heff with
    | write rd v hd => exact completes (u := s.writeReg rd v) rfl
    | label hl => exact completes rfl
    | flag b hc => simp [hc, Op.neverStops] at hnever
    | jump j hj => obtain hj | hj := hj <;> simp [hj, Op.neverStops] at hnever
    | halt r hh =>
      obtain ⟨hh, -⟩ | ⟨hh | hh | hh, -⟩ | ⟨hh | hh, -⟩ := hh <;> simp [hh, Op.neverStops] at hnever
    | io hio => simp [hio, Op.neverStops] at hnever

/-- With a line that is not empty exec answers a next state. -/
theorem exec_next_of_input {s : State} (h : s.serialIn ≠ [] ∨ ∃ l ∈ s.inputLines, l ≠ []) (i : Instr) :
    ∃ t, exec i s = .next t := by
  have heff := exec_effect i s
  generalize exec i s = r at heff
  cases heff with
  | blocked c rd d rs hi hd hs hl =>
    obtain hin | ⟨l, hmem, hne⟩ := h
    · exact absurd hs hin
    · exact absurd (hl l hmem) hne
  | _ => exact ⟨_, rfl⟩

/-- An IO under any cond is one of the three constructors. -/
theorem io_of_fields {i : Instr} {c : Cond} {rd d rs : Word} (hi : i.fields = some ⟨.io, c, rd, d, rs⟩) :
    i = .io rd d rs ∨ i = .ioT rd d rs ∨ i = .ioF rd d rs := by
  rw [← ofFields_of_fields hi]
  cases c
  · exact .inl rfl
  · exact .inr (.inl rfl)
  · exact .inr (.inr rfl)

/-- Settles O49: ExecEffect has one answer that is no next state. -/
theorem onlySerialReadsSuspend : Obligations.OnlySerialReadsSuspend := by
  refine ⟨fun i s f h => ?fault, fun i s r h => ?refused, fun i s l hl => ?added, fun s hrun hpc hin => ?step⟩
  case fault =>
    cases exec_effect_of_eq h with
    | blocked c rd d rs hi hd hs hl => exact ⟨rfl, hs, hl, rd, d, rs, hd, io_of_fields hi⟩
  case refused => cases exec_effect_of_eq h
  case added => exact exec_next_of_input (.inr ⟨l, by simp, hl⟩) i
  case step =>
    obtain ⟨t, ht⟩ := exec_next_of_input hin (s.params.codes.decode s.tape[s.pc])
    exact ⟨t.endCycle, by rw [step_running hrun (List.getElem?_eq_getElem hpc), ht]⟩

end Sys2Proof.Machine

/-!
PROOFS of the family other: the step, what it runs (R208) and that it ends at a halt (R231), and the end of a cycle
(R209, R210, R229, R232).
-/

namespace Sys2Proof.Machine

/-! ## The step -/

section

variable {s : State}

theorem step_halted {h : Halt} (hh : s.halt = some h) : step s = .fault .halted := by
  simp only [step, hh]

theorem step_offTape (hrun : s.halt = none) (hw : s.tape[s.pc]? = none) : step s = .fault .offTape := by
  simp only [step, hrun, State.fetch, hw]

/-- What an instruction answers, with the end of the cycle after a next state. -/
def endResult : Result → Result
  | .next t => .next t.endCycle
  | .fault f => .fault f
  | .refused r => .refused r

theorem step_eq_endResult {w : InsnWord} (hrun : s.halt = none) (hw : s.tape[s.pc]? = some w) :
    step s = endResult (exec (s.params.codes.decode w) s) := by
  rw [step_running hrun hw]
  cases exec (s.params.codes.decode w) s <;> rfl

end

/-- A word loaded from outside stands at pc, where the tape is long enough and where it is not (log entry 5). -/
theorem fetch_placeWord (s : State) (w : InsnWord) : (s.placeWord w).tape[(s.placeWord w).pc]? = some w := by
  unfold State.placeWord
  split
  · simp [*]
  · have hlen : (s.tape ++ List.replicate (s.pc - s.tape.length) 0).length = s.pc := by
      rw [List.length_append, List.length_replicate]
      omega
    have hlast := List.getElem?_concat_length (l := s.tape ++ List.replicate (s.pc - s.tape.length) 0) (a := w)
    rwa [hlen] at hlast

/-- Settles O12: the decoded instruction, or the well-formed one that the word encodes, is the one that runs. -/
theorem stepRunsDecodedInstruction : Obligations.StepRunsDecodedInstruction := by
  refine ⟨fun s w i hrun hw hi => ?runs, fun s => step_offTape, fun s w => ?loaded⟩
  case runs =>
    have hdecode : s.params.codes.decode w = i := by
      obtain hd | ⟨hk, -, henc⟩ := hi
      · exact hd
      · exact decode_of_encode hk henc
    rw [step_eq_endResult hrun hw, hdecode]
    exact ⟨fun t h => by rw [h]; rfl, fun f h => by rw [h]; rfl, fun r h => by rw [h]; rfl⟩
  case loaded =>
    have hword : BitVec.ofNat 24 (w % 2 ^ 24) = BitVec.ofNat 24 w := BitVec.eq_of_toNat_eq (by simp)
    rw [State.withFetchWord, hword]
    exact fetch_placeWord s _

/-- Settles O14. -/
theorem haltedHasNoSuccessor : Obligations.HaltedHasNoSuccessor := fun _ _ => step_halted

/-! ## The end of a cycle -/

theorem cycleInput_of_scheduled {t : State} {e : CycleInput} {rest : List CycleInput} (h : t.schedule = e :: rest) :
    t.cycleInput = e := by
  simp only [State.cycleInput, h]

/-- A quit is wanted when one is pending, or where the renderer is polled at the end of the cycle and asks (R210). -/
theorem wantsQuit_iff {t : State} :
    t.wantsQuit = true ↔ t.quitPending = true ∨
      (t.params.hasRenderer = true ∧ t.params.gpuTickPolicy ≠ .clockReset ∧ t.cycleInput.quit = true) := by
  simp only [State.wantsQuit, Params.pollsEachCycle, Bool.or_eq_true, Bool.and_eq_true, decide_eq_true_eq, and_assoc]

/-- Why the end of a cycle with the input e halts a running machine, if it does: the abort goes first (R232). -/
theorem endCycle_halt {t : State} {e : CycleInput} (hrun : t.halt = none) (he : t.cycleInput = e) :
    t.endCycle.halt =
      if e.abort = true then some (.hostAbort t.pc)
      else if t.quitPending = true ∨
          (t.params.hasRenderer = true ∧ t.params.gpuTickPolicy ≠ .clockReset ∧ e.quit = true)
        then some (.rendererQuit t.pc)
      else none := by
  subst he
  obtain ⟨h, -⟩ | ⟨-, ha, h⟩ | ⟨-, ha, hq, h⟩ | ⟨-, ha, hq, h⟩ := endCycle_cases t
  case inl => simp [hrun] at h
  case inr.inl => rw [h, if_pos ha]; rfl
  case inr.inr.inl => rw [h, if_neg (by simp [ha]), if_pos (wantsQuit_iff.1 hq)]; rfl
  case inr.inr.inr =>
    have hno := mt (wantsQuit_iff (t := t)).2 (by simp [hq])
    rw [h, if_neg (by simp [ha]), if_neg hno]
    exact hrun

/-- The end of a cycle of a running machine is its close, with the halt that it may raise (R209, R231). -/
theorem endCycle_running {t : State} (hrun : t.halt = none) :
    t.endCycle = { t.closeCycle with
      halt := t.endCycle.halt, rendererUp := (t.rendererUp && t.endCycle.halt.isNone) } := by
  obtain ⟨h, -⟩ | ⟨-, -, h⟩ | ⟨-, -, -, h⟩ | ⟨-, -, -, h⟩ := endCycle_cases t
  case inl => simp [hrun] at h
  all_goals
    rw [h]
    simp [State.raiseHalt, State.closeCycle, hrun]

/-- Settles O13: in a running machine the end of the cycle is its close, with a halt by abort, by quit or not at all. -/
theorem cycleEndRefreshesClockAndHonoursQuitAndAbort : Obligations.CycleEndRefreshesClockAndHonoursQuitAndAbort := by
  refine ⟨fun t h => if_pos h, fun t e rest hrun hsched => ?running⟩
  case running =>
    have hin : t.cycleInput = e := cycleInput_of_scheduled hsched
    have hend := endCycle_running hrun
    refine ⟨?clock, endCycle_halt hrun hin, congrArg State.rendererUp hend, ?frame⟩
    case clock => rw [hend, State.closeCycle_clock, clockAt_toNat, hin]
    case frame =>
      have hrest : t.closeCycle.schedule = rest := by rw [State.closeCycle_schedule, hsched, List.tail_cons]
      rw [hend, ← hrest]
      rfl

end Sys2Proof.Machine

/-!
PROOFS of the family other: two descriptions, and two machines, held against each other. The meanings and the run loop
over the block (R35, R208) are compared op by op. That output and screen never flow back (R37, D34) is a commutation:
a machine and the same machine with all that is drawn and output erased answer alike, up to that erasure.
-/

namespace Sys2Proof.Machine

/-! ## The block -/

theorem withBlock_block (s : State) : s.withBlock s.block = s := rfl

section

variable {s : State} {w : InsnWord} {f : Fields}

/-- The block's step on a word whose gate is false changes nothing. -/
theorem block_next_gatedOut {p : Params} {b : Block} (h : (p.codes.decode w).fields = some f)
    (hg : gate f.cond b.cf = false) (rdata : Option Word) : b.next p w rdata = b := by
  simp [Block.next, h, hg]

theorem block_next_gatedIn {p : Params} {b : Block} (h : (p.codes.decode w).fields = some f)
    (hg : gate f.cond b.cf = true) (herr : Fields.subErr f = false) (rdata : Option Word) :
    b.next p w rdata = b.execute p f rdata := by
  simp [Block.next, h, hg, herr]

/-- An op that raises no request does what the block's execution says, and advances. -/
theorem opMeaning_eq_execute (herr : Fields.subErr f = false) (hHlt : f.op ≠ .hlt) (hJup : f.op ≠ .jup)
    (hJdn : f.op ≠ .jdn) (hIo : f.op ≠ .io) :
    opMeaning f s = .next (s.withBlock (s.block.execute s.params f none)).advance := by
  obtain ⟨o, c, a, b, v⟩ := f
  cases o
  case hlt | jup | jdn | io => contradiction
  case shi | fm =>
    have hz : subZero v = false := by simpa [Fields.subErr] using herr
    simp only [opMeaning, opShi, opFm, hz]
    rfl
  case cmp =>
    have hz : subZero a = false := by simpa [Fields.subErr] using herr
    simp only [opMeaning, opCmp, hz]
    rfl
  all_goals rfl

/-- The run loop on an IO: the device's answer, the value it returns being written by the block (R36). -/
theorem runLoop_io (hf : (s.params.codes.decode w).fields = some f) (hop : f.op = .io) (hg : gate f.cond s.cf = true) :
    s.runLoop w = opIo f.a f.b f.c s := by
  have herr : Fields.subErr f = false := by simp [Fields.subErr, hop]
  have hreq : s.request w = .io (s.ioRequest f.a f.b f.c) := by
    simp [request_of_fields hf, hg, herr, opRequest_io hop]
  unfold opIo State.runLoop
  rw [hreq]
  obtain ⟨rdata, t, h, ht⟩ | ⟨r, h, -⟩ | h | ⟨h, -⟩ := serveIo_cases s (s.ioRequest f.a f.b f.c)
  case inl =>
    have hgt : gate f.cond t.block.cf = true := by rw [State.block, ht.cf, hg]
    simp only [h, block_next_gatedIn hf hgt herr, Block.execute, hop]
    cases rdata <;> rfl
  all_goals simp only [h, State.finishIo]

/-- The run loop on a word that is gated in and has no sub-field error, by the op's request. -/
theorem runLoop_gatedIn (hf : (s.params.codes.decode w).fields = some f) (hg : gate f.cond s.cf = true)
    (herr : Fields.subErr f = false) : s.runLoop w = opMeaning f s := by
  have hreq : s.request w = s.opRequest f := by simp [request_of_fields hf, hg, herr]
  by_cases hHlt : f.op = .hlt
  · simp only [State.runLoop, hreq, opRequest_hlt hHlt, opMeaning, hHlt, opHlt]
  by_cases hJup : f.op = .jup
  · simp only [State.runLoop, hreq, opRequest_jup hJup, opMeaning, hJup, opJup]
  by_cases hJdn : f.op = .jdn
  · simp only [State.runLoop, hreq, opRequest_jdn hJdn, opMeaning, hJdn, opJdn]
  by_cases hIo : f.op = .io
  · simp only [runLoop_io hf hIo hg, opMeaning, hIo]
  · rw [opMeaning_eq_execute herr hHlt hJup hJdn hIo, ← block_next_gatedIn (b := s.block) hf hg herr none]
    simp only [State.runLoop, hreq, opRequest_none hHlt hJup hJdn hIo]

end

/-- Settles O52: by the cases of the request: INVALID, gated out, a sub-field error, and the op's own. -/
theorem meaningsAreTheRunLoopOverTheBlock : Obligations.MeaningsAreTheRunLoopOverTheBlock := by
  intro w s
  cases hf : (s.params.codes.decode w).fields with
  | none =>
    have hinv : s.params.codes.decode w = .invalid := fields_eq_none.1 hf
    simp only [State.runLoop, request_of_invalid hinv, hinv, exec_invalid]
  | some f =>
    rw [exec_of_fields hf]
    cases hg : gate f.cond s.cf with
    | false =>
      simp only [gated_out hg, State.runLoop, request_gatedOut hf hg, block_next_gatedOut hf (b := s.block) hg,
        withBlock_block]
    | true =>
      rw [gated_in hg]
      cases herr : Fields.subErr f with
      | true =>
        simp only [opMeaning_of_subErr herr, State.runLoop, request_of_fields hf, hg, herr, if_true,
          State.haltBadSubfield]
      | false => exact (runLoop_gatedIn hf hg herr).symm

/-! ## Erasing what is output and drawn -/

/-- The machine with all that neither a snapshot nor the inputs of its run hold erased: the output sink, the renderer's
draw cursor and pixels, and whether it is up. -/
def State.erase (s : State) : State :=
  { s with output := [], gpuX := 0, gpuY := 0, plots := [], rendererUp := false }

/-- Two machines are equal up to that erasure exactly when they have equal snapshots and the same outside. -/
theorem erase_eq_iff {s t : State} : s.erase = t.erase ↔ s.snapshot = t.snapshot ∧ SameOutside s t := by
  simp only [State.erase, State.snapshot, SameOutside, State.mk.injEq, Snapshot.mk.injEq]
  tauto

/-- What an instruction or a step answers, with the next state erased. -/
def eraseResult : Result → Result
  | .next s => .next s.erase
  | .fault f => .fault f
  | .refused r => .refused r

theorem eq_next_of_eraseResult {r : Result} {u : State} (h : eraseResult r = .next u) :
    ∃ t, r = .next t ∧ t.erase = u := by
  cases r with
  | next t => exact ⟨t, rfl, Host.Outcome.next.inj h⟩
  | fault f => cases h
  | refused q => cases h

theorem eq_fault_of_eraseResult {r : Result} {f : Fault} (h : eraseResult r = .fault f) : r = .fault f := by
  cases r with
  | next t => cases h
  | fault g => exact h
  | refused q => cases h

section

variable {i : Instr} (s : State)

/-- A jump searches the tape, which is not erased. -/
theorem eraseResult_serveJump (r : JumpRequest) : eraseResult (s.serveJump r) = eraseResult (s.erase.serveJump r) := by
  have hsearch : s.erase.search r = s.search r := rfl
  unfold State.serveJump
  rw [hsearch]
  cases s.search r <;> rfl

theorem fetchLine_erase : s.erase.fetchLine = s.fetchLine.map State.erase := by
  have hin : s.erase.serialIn = s.serialIn := rfl
  have hlines : s.erase.inputLines = s.inputLines := rfl
  unfold State.fetchLine
  rw [hin, hlines]
  split
  · rfl
  · split <;> rfl

theorem eraseResult_blockedRead : eraseResult s.blockedRead = eraseResult s.erase.blockedRead := by
  have habort : s.erase.cycleInput = s.cycleInput := rfl
  unfold State.blockedRead
  rw [habort]
  split <;> rfl

/-- What the dispatcher and the write-back make of the device d, erased. -/
theorem eraseResult_serveDevice (rd : Word) (r : IoRequest) (d : Device) :
    eraseResult (s.finishIo rd (s.serveDevice r d)) = eraseResult (s.erase.finishIo rd (s.erase.serveDevice r d)) := by
  have clock (part : Word) :
      eraseResult (s.finishIo rd (s.clockDevice r part)) =
        eraseResult (s.erase.finishIo rd (s.erase.clockDevice r part)) := by
    have hreset : isClockReset s.erase.params r = isClockReset s.params r := rfl
    have hpolls : Params.pollsOnReset s.erase.params = Params.pollsOnReset s.params := rfl
    have hinput : s.erase.cycleInput = s.cycleInput := rfl
    have hquit : s.erase.params.clockResetQuit = s.params.clockResetQuit := rfl
    unfold State.clockDevice State.clockReset
    rw [hreset, hpolls, hinput, hquit]
    split
    · split
      · split <;> rfl
      · rfl
    · rfl
  cases d
  case serialIncoming =>
    simp only [State.serveDevice, State.serialIncoming, fetchLine_erase]
    cases s.fetchLine with
    | none => exact eraseResult_blockedRead s
    | some t => rfl
  case serialRead =>
    simp only [State.serveDevice, State.serialRead, fetchLine_erase]
    cases s.fetchLine with
    | none => exact eraseResult_blockedRead s
    | some t =>
      have hin : t.erase.serialIn = t.serialIn := rfl
      simp only [Option.map_some, hin]
      cases t.serialIn with
      | nil => exact eraseResult_blockedRead s
      | cons v vs => rfl
  case clockLoCs => exact clock (clockLo s.clock)
  case clockHiCs => exact clock (clockHi s.clock)
  case memRead =>
    simp only [State.serveDevice]
    obtain h | h := Nat.lt_or_ge s.cursor.toNat s.params.memSize
    · rw [memReadPort_inside h, memReadPort_inside (s := s.erase) h]; rfl
    · rw [memReadPort_beyond h, memReadPort_beyond (s := s.erase) h]; rfl
  case memWrite =>
    simp only [State.serveDevice]
    obtain h | h := Nat.lt_or_ge s.cursor.toNat s.params.memSize
    · rw [memWritePort_inside h, memWritePort_inside (s := s.erase) h]; rfl
    · rw [memWritePort_beyond h, memWritePort_beyond (s := s.erase) h]; rfl
  all_goals rfl

theorem eraseResult_opIo (rd d rs : Word) : eraseResult (opIo rd d rs s) = eraseResult (opIo rd d rs s.erase) := by
  have hreq : s.erase.ioRequest rd d rs = s.ioRequest rd d rs := rfl
  have hdev : deviceAt s.erase.params d = deviceAt s.params d := rfl
  unfold opIo State.serveIo
  rw [hreq]
  simp only [State.ioRequest, hdev]
  cases deviceAt s.params d with
  | none => rfl
  | some dev => exact eraseResult_serveDevice s rd _ dev

/-- The meaning of an op reads nothing that is erased. -/
theorem eraseResult_opMeaning (f : Fields) : eraseResult (opMeaning f s) = eraseResult (opMeaning f s.erase) := by
  obtain ⟨o, c, a, b, v⟩ := f
  cases o
  case shi | fm | cmp =>
    simp only [opMeaning, opShi, opFm, opCmp]
    split <;> rfl
  case jup | jdn => exact eraseResult_serveJump s _
  case io => exact eraseResult_opIo s a b v
  all_goals rfl

theorem eraseResult_exec (i : Instr) : eraseResult (exec i s) = eraseResult (exec i s.erase) := by
  cases hf : i.fields with
  | none =>
    obtain rfl := fields_eq_none.1 hf
    rfl
  | some f =>
    have hcf : s.erase.cf = s.cf := rfl
    rw [exec_of_fields hf, exec_of_fields hf]
    unfold gated
    rw [hcf]
    split
    · exact eraseResult_opMeaning s f
    · rfl

theorem erase_endCycle : s.endCycle.erase = s.erase.endCycle.erase := by
  have hhalt : s.erase.halt = s.halt := rfl
  have hinput : s.erase.cycleInput = s.cycleInput := rfl
  have hquit : s.erase.wantsQuit = s.wantsQuit := rfl
  unfold State.endCycle
  rw [hhalt, hinput, hquit]
  split
  · rfl
  · split
    · rfl
    · split <;> rfl

theorem eraseResult_endResult (r : Result) :
    eraseResult (endResult r) = eraseResult (endResult (eraseResult r)) := by
  cases r with
  | next t => exact congrArg Host.Outcome.next (erase_endCycle t)
  | fault f => rfl
  | refused q => rfl

/-- A step reads nothing that is erased. -/
theorem eraseResult_step : eraseResult (step s) = eraseResult (step s.erase) := by
  cases hh : s.halt with
  | some h => rw [step_halted hh, step_halted (s := s.erase) hh]
  | none =>
    cases hw : s.tape[s.pc]? with
    | none => rw [step_offTape hh hw, step_offTape (s := s.erase) hh hw]
    | some w =>
      rw [step_eq_endResult hh hw, step_eq_endResult (s := s.erase) hh hw, eraseResult_endResult, eraseResult_exec,
        ← eraseResult_endResult]
      rfl

end

/-- Settles O53: machines that agree up to the erasure step alike, since each steps as its erasure does. -/
theorem outputAndScreenNeverFlowBack : Obligations.OutputAndScreenNeverFlowBack := by
  refine ⟨fun s t hsnap hout => ?twoRuns, fun s c => ⟨rfl, ⟨rfl, rfl, rfl, rfl, rfl⟩, rfl, rfl, rfl, rfl⟩⟩
  case twoRuns =>
    have hstep : eraseResult (step s) = eraseResult (step t) := by
      rw [eraseResult_step s, eraseResult_step t, erase_eq_iff.2 ⟨hsnap, hout⟩]
    refine ⟨fun s' hs => ?next, fun f hs => ?fault⟩ <;> rw [hs] at hstep
    case next =>
      obtain ⟨t', ht, herase⟩ := eq_next_of_eraseResult hstep.symm
      exact ⟨t', ht, erase_eq_iff.1 herase.symm⟩
    case fault => exact eq_fault_of_eraseResult hstep.symm

end Sys2Proof.Machine

/-!
PROOFS of the family other: reset's own draws (R10, R252, R253), the decoder's outputs (R31, R79), the words that the
spec writes out, and the round trip from a word to its instruction and back (R66).
-/

namespace Sys2Proof.Machine

/-! ## The model's own reset -/

theorem readReg_reset (j : Word) : State.reset.readReg j = 0 := by
  rw [State.reset, readReg_of_drawn (regs_launch Launch.default)]
  split
  · rfl
  · exact Vector.getElem_replicate _

/-- Settles O2: every clause but the registers and CLOCK_UNIT is a field of the default launch as it stands. -/
theorem resetTakesTheNamedDraws : Obligations.ResetTakesTheNamedDraws :=
  ⟨readReg_reset, rfl, fun _ => rfl, rfl, rfl, rfl, rfl, rfl, rfl, rfl, rfl, rfl, rfl, rfl, rfl, rfl,
    Config.clockUnit.pos, rfl, rfl, rfl, rfl, rfl, rfl, rfl, rfl, rfl, rfl, rfl⟩

/-! ## Words and instructions -/

/-- Settles O6: the decoded record is placed back and its word is the word (encode_decode). -/
theorem encodeOfDecodeIsTheWord : Obligations.EncodeOfDecodeIsTheWord := fun _ _ hk hF => encode_decode hk hF

/-- Settles O11: twelve closed words. -/
theorem specWordsDecode : Obligations.SpecWordsDecode := by
  refine ⟨?_, ?_, ?_, ?_, ?_, ?_, ?_, ?_, ?_, ?_, ?_, ?_⟩ <;> decide

/-! ## The decoder's outputs -/

section

variable {k : Codes} {w : InsnWord}

theorem decoderOut_of_fieldF_zero (h : fieldF w = 0#6) (cf : Bool) :
    decoderOut k w cf = { invalid := true, record := none, subErr := false, gate := false } :=
  dif_pos h

/-- The outputs for a word with F not 0: its record as it stands, the error of its operands and its cond's gate. -/
theorem decoderOut_of_fieldF_ne_zero (h : fieldF w ≠ 0#6) (cf : Bool) :
    decoderOut k w cf =
      { invalid := false, record := some (k.decodeFields w h)
        subErr := Fields.subErr (k.operands (k.decodeFields w h)), gate := gate (k.decodeFields w h).cond cf } :=
  dif_neg h

/-- The numbers of the decoded op and cond, as indices into the tables (R64). -/
theorem decodeFields_tables (h : fieldF w ≠ 0#6) :
    k.ops[(w.toNat / 2 ^ 18 - 1) % 21]? = some (k.decodeFields w h).op ∧
      k.conds[(w.toNat / 2 ^ 18 - 1) / 21]? = some (k.decodeFields w h).cond := by
  rw [← fieldF_toNat]
  exact ⟨Vector.getElem?_eq_getElem _, Vector.getElem?_eq_getElem _⟩

end

/-- The sub-field bit is the one worth 32. -/
theorem subZero_iff (v : Word) : subZero v = true ↔ 32 ≤ v.toNat := by
  revert v
  decide

theorem subErr_iff (f : Fields) :
    Fields.subErr f = true ↔ (f.op = .cmp ∧ 32 ≤ f.a.toNat) ∨ ((f.op = .shi ∨ f.op = .fm) ∧ 32 ≤ f.c.toNat) := by
  simp only [Fields.subErr, Bool.or_eq_true, Bool.and_eq_true, decide_eq_true_eq, subZero_iff]

/-- Settles O9: the outputs of the record, whose numbers index the tables; the debug port reads as x does. -/
theorem decoderOutputsAndDebugPort : Obligations.DecoderOutputsAndDebugPort := by
  refine ⟨fun k w cf h => ?invalid, fun k w cf h => ?valid, fun s a => rfl⟩
  case invalid => rw [decoderOut_of_fieldF_zero (fieldF_eq_zero_iff.2 h)]
  case valid =>
    have hF : fieldF w ≠ 0#6 := mt fieldF_eq_zero_iff.1 h
    obtain ⟨hop, hcond⟩ := decodeFields_tables (k := k) hF
    rw [decoderOut_of_fieldF_ne_zero hF]
    refine ⟨k.decodeFields w hF, rfl, rfl, hop, hcond, fieldA_toNat w, fieldB_toNat w, fieldC_toNat w, rfl, ?error,
      fun hk => ?default⟩
    case error => simp [subErr_eq_not_wellFormed (decode_fields hF)]
    case default =>
      subst hk
      obtain ⟨hopCode, hcondCode⟩ := code_decodeFields hF
      rw [fieldF_toNat] at hopCode hcondCode
      rw [operands_default]
      exact ⟨hopCode, hcondCode, subErr_iff _⟩

end Sys2Proof.Machine

/-!
PROOFS of the family other: laws of the shift helpers (R127). The arithmetic right shift is division rounded down, and a
rotation moves every bit and loses none.
-/

namespace Sys2Proof.Machine

/-! ## The arithmetic right shift -/

/-- The bits that a right shift by d vacates are the top d ones. -/
theorem getLsbD_signmask (w d i : Nat) : (signmask w d).getLsbD i = decide (i < w ∧ w ≤ i + d) := by
  rw [signmask, BitVec.getLsbD_ofNat, Nat.testBit_shiftLeft, Nat.testBit_two_pow_sub_one]
  grind

/-- The model's arithmetic shift is the library's, at every width. -/
theorem asr_eq_sshiftRight {w : Nat} (v : BitVec w) (d : Nat) : asr v d = v.sshiftRight d := by
  refine BitVec.eq_of_getLsbD_eq fun i hi => ?_
  have hbit : d + i < w ∨ v.getLsbD (d + i) = false := (Nat.lt_or_ge _ _).imp id (BitVec.getLsbD_of_ge v _)
  rw [BitVec.getLsbD_sshiftRight, asr]
  cases v.msb with
  | false =>
    simp only [Bool.false_eq_true, if_false, BitVec.getLsbD_ushiftRight]
    grind
  | true =>
    simp only [if_true, BitVec.getLsbD_or, BitVec.getLsbD_ushiftRight, getLsbD_signmask]
    grind

theorem asr_eq_ofInt_div {w : Nat} (v : BitVec w) (d : Nat) : asr v d = BitVec.ofInt w (v.toInt / 2 ^ d) := by
  rw [asr_eq_sshiftRight, BitVec.sshiftRight_eq, Int.shiftRight_eq_div_pow]
  rfl

/-- Settles O22: the two's complement readings are the library's integer value. -/
theorem arithmeticShiftIsFloorDivision : Obligations.ArithmeticShiftIsFloorDivision := by
  refine ⟨fun v d => ?_, fun v d => ?_⟩
  · rw [sext6_eq_toInt, asr_eq_ofInt_div]
  · rw [sext12_eq_toInt, asr_eq_ofInt_div]

/-! ## The rotation -/

/-- Bit j of a word is bit j + d, modulo 6, of its rotation by d. -/
theorem getLsbD_rol6 (v : Word) (d : Nat) {j : Nat} (hj : j < 6) : (rol6 v d).getLsbD ((j + d) % 6) = v.getLsbD j := by
  rw [rol6, BitVec.getLsbD_or, BitVec.getLsbD_shiftLeft, BitVec.getLsbD_ushiftRight]
  obtain h | h := Nat.lt_or_ge (j + d % 6) 6
  · have hplace : (j + d) % 6 = j + d % 6 := by omega
    have hpast : v.getLsbD (6 - d % 6 + (j + d % 6)) = false := BitVec.getLsbD_of_ge v _ (by omega)
    rw [hplace, hpast]
    simp [h]
  · have hplace : (j + d) % 6 = j + d % 6 - 6 := by omega
    have hback : 6 - d % 6 + (j + d % 6 - 6) = j := by omega
    have hlow : j + d % 6 - 6 < d % 6 := by omega
    rw [hplace, hback]
    simp [hlow]

/-- Settles O23: the second law bit by bit from the first: the two distances make 6 together. -/
theorem rotationLosesNoBits : Obligations.RotationLosesNoBits := by
  refine ⟨fun v d j => getLsbD_rol6 v d, fun v d => eq_of_bits fun j hj => ?inverse⟩
  case inverse =>
    have hmid : (j + d) % 6 < 6 := Nat.mod_lt _ (by decide)
    have hback : ((j + d) % 6 + (6 - d % 6)) % 6 = j := by omega
    calc (rol6 (rol6 v d) (6 - d % 6)).getLsbD j
        = (rol6 (rol6 v d) (6 - d % 6)).getLsbD (((j + d) % 6 + (6 - d % 6)) % 6) := by rw [hback]
      _ = (rol6 v d).getLsbD ((j + d) % 6) := getLsbD_rol6 _ _ hmid
      _ = v.getLsbD j := getLsbD_rol6 v d hj

end Sys2Proof.Machine

/-!
PROOFS of the family other: the serial input and the clock devices (R196, R198, R199, R202). Each device's reply comes
first, by the input there is or by the clock devices' test, and then what IO does with that reply.
-/

namespace Sys2Proof.Machine

/-! ## The serial input -/

section

variable {s t : State} {v : Word} {vs : List Word}

theorem fetchLine_of_buffered (h : s.serialIn = v :: vs) : s.fetchLine = some s := by
  simp only [State.fetchLine, h]

/-- An empty buffer takes the provider's next line that is not empty (R196, D24). -/
theorem fetchLine_of_provided {n : Nat} {more : List (List Word)} (h : s.serialIn = [])
    (hl : s.inputLines = List.replicate n [] ++ (v :: vs) :: more) :
    s.fetchLine = some { s with serialIn := v :: vs, inputLines := more } := by
  simp only [State.fetchLine, h, hl, nextLine_replicate]

theorem serialIncoming_of_fetched (h : s.fetchLine = some t) (ht : t.serialIn = v :: vs) :
    s.serialIncoming = .done (some (mask6 (vs.length + 1))) t := by
  simp only [State.serialIncoming, h, ht, List.length_cons]

theorem serialRead_of_fetched (h : s.fetchLine = some t) (ht : t.serialIn = v :: vs) :
    s.serialRead = .done (some v) { t with serialIn := vs } := by
  simp only [State.serialRead, h, ht]

/-- With no input both serial reads are blocked. -/
theorem opIo_of_noInput {rd d rs : Word}
    (hd : s.params.codes.deviceOf d = some .serialIncoming ∨ s.params.codes.deviceOf d = some .serialRead)
    (hin : s.serialIn = []) (hl : ∀ l ∈ s.inputLines, l = []) : opIo rd d rs s = s.blockedRead := by
  have hfetch : s.fetchLine = none := fetchLine_eq_none.2 ⟨hin, hl⟩
  obtain hd | hd := hd
  · rw [opIo_of_present hd rfl]
    simp only [State.serveDevice, State.serialIncoming, hfetch, State.finishIo]
  · rw [opIo_of_present hd rfl]
    simp only [State.serveDevice, State.serialRead, hfetch, State.finishIo]

/-- A blocked read ends in HOST_ABORT when the host aborts in this cycle, and is stuck otherwise (R229). -/
theorem blockedRead_of_abort (h : s.cycleInput.abort = true) :
    s.blockedRead = .next (haltedFor s (.hostAbort s.pc)) := if_pos h

theorem blockedRead_of_noAbort (h : s.cycleInput.abort = false) : s.blockedRead = .fault .serialInputBlocked :=
  if_neg (by simp [h])

theorem cycleInput_abort_of_unscheduled (h : s.schedule = []) : s.cycleInput.abort = false := by
  simp only [State.cycleInput, h]

/-- An IO whose gate is true, under any cond, is IO's meaning. -/
theorem exec_io_of_gatedIn {i : Instr} {rd d rs : Word}
    (hi : i = .io rd d rs ∨ (i = .ioT rd d rs ∧ s.cf = true) ∨ (i = .ioF rd d rs ∧ s.cf = false)) :
    exec i s = opIo rd d rs s := by
  obtain rfl | ⟨rfl, hcf⟩ | ⟨rfl, hcf⟩ := hi
  · rfl
  · exact gated_in (c := .ifTrue) hcf
  · exact gated_in (c := .ifFalse) (by simp [gate, hcf])

end

/-- Settles O33: the reply is the length of the buffer that there is, or of the one fetched. -/
theorem serialIncomingReportsTheBufferLength : Obligations.SerialIncomingReportsTheBufferLength := by
  intro rd d rs s v vs hd
  refine ⟨encodedAs_ofFields .io rd 0 rs, rfl, fun hin => ?buffered, fun n more hin hl => ?provided⟩
  case buffered =>
    exact completes_io_value hd rfl (serialIncoming_of_fetched (fetchLine_of_buffered hin) hin)
      ⟨registersBut_writeReg s rd _, rfl, fun _ => rfl, rfl⟩
  case provided =>
    exact completes_io_value hd rfl (serialIncoming_of_fetched (fetchLine_of_provided hin hl) rfl)
      ⟨registersBut_writeReg _ rd _, rfl, fun _ => rfl, rfl⟩

/-- Settles O34: the reply is the front of the buffer that there is, or of the one fetched, which is popped. -/
theorem serialReadPopsTheFrontOfTheBuffer : Obligations.SerialReadPopsTheFrontOfTheBuffer := by
  intro rd d rs s v vs hd
  refine ⟨encodedAs_ofFields .io rd 1 rs, rfl, fun hin => ?buffered, fun n more hin hl => ?provided⟩
  case buffered =>
    exact completes_io_value hd rfl (serialRead_of_fetched (fetchLine_of_buffered hin) hin)
      ⟨registersBut_writeReg _ rd _, rfl, fun _ => rfl, rfl⟩
  case provided =>
    exact completes_io_value hd rfl (serialRead_of_fetched (fetchLine_of_provided hin hl) rfl)
      ⟨registersBut_writeReg _ rd _, rfl, fun _ => rfl, rfl⟩

/-- Settles O35: the read is blocked, and the cycle's input says what becomes of it. -/
theorem blockedSerialReadWaitsForInputOrAbort : Obligations.BlockedSerialReadWaitsForInputOrAbort := by
  intro rd rs d s i hd hi hin hl
  rw [exec_io_of_gatedIn hi, opIo_of_noInput hd hin hl]
  refine ⟨fun e rest hsched => ?scheduled, fun hsched => ?unscheduled⟩
  case scheduled =>
    rw [← cycleInput_of_scheduled hsched]
    exact ⟨blockedRead_of_abort, blockedRead_of_noAbort⟩
  case unscheduled => exact blockedRead_of_noAbort (cycleInput_abort_of_unscheduled hsched)

/-! ## The clock devices -/

section

variable {s : State} {r : IoRequest} {part : Word}

theorem clockDevice_of_read (hf : s.params.clockResetTest = .field → r.rs = 0)
    (hv : s.params.clockResetTest = .value → r.wdata = 0) : s.clockDevice r part = .done (some part) s := by
  have hread : isClockReset s.params r = false := by
    unfold isClockReset
    split
    · simpa using hf ‹_›
    · simpa using hv ‹_›
  simp [State.clockDevice, hread]

theorem clockDevice_of_reset (hf : s.params.clockResetTest = .field → r.rs ≠ 0)
    (hv : s.params.clockResetTest = .value → r.wdata ≠ 0) : s.clockDevice r part = s.clockReset := by
  have hreset : isClockReset s.params r = true := by
    unfold isClockReset
    split
    · simpa using hf ‹_›
    · simpa using hv ‹_›
  simp [State.clockDevice, hreset]

/-- A device that is read and changes nothing: IO only writes the value (R36). -/
theorem completes_io_read {rd d rs v v' : Word} {dev : Device} (hd : s.params.codes.deviceOf d = some dev)
    (hp : Device.present s.params dev = true)
    (hr : s.serveDevice (s.ioRequest rd d rs) dev = .done (some v) s) (hv : v = v') :
    CompletesInEachForm (.io rd d rs) (.ioT rd d rs) (.ioF rd d rs) s fun t => WritesOnlyRegister s t rd v' :=
  completes_writeBack (i := .io rd d rs) ((opIo_of_present hd hp).trans (congrArg (s.finishIo rd) hr)) rfl rfl hv

/-- The renderer is polled inside this cycle's clock reset and asks to quit (R202, R210). -/
def State.quitsOnReset (s : State) : Prop :=
  s.params.hasRenderer = true ∧ s.params.gpuTickPolicy ≠ .everyCycle ∧ s.cycleInput.resetQuit = true

theorem quitsOnReset_iff :
    s.quitsOnReset ↔ (Params.pollsOnReset s.params && s.cycleInput.resetQuit) = true := by
  simp only [State.quitsOnReset, Params.pollsOnReset, Bool.and_eq_true, decide_eq_true_eq, and_assoc]

theorem clockReset_of_noQuit (h : ¬ s.quitsOnReset) : s.clockReset = .done none s.zeroClock :=
  if_neg (mt quitsOnReset_iff.2 h)

theorem clockReset_of_quit_insideStep (h : s.quitsOnReset) (hq : s.params.clockResetQuit = .insideStep) :
    s.clockReset = .halted (.rendererQuit s.pc) s.zeroClock := by
  rw [State.clockReset, if_pos (quitsOnReset_iff.1 h), hq]

theorem clockReset_of_quit_endOfCycle (h : s.quitsOnReset) (hq : s.params.clockResetQuit ≠ .insideStep) :
    s.clockReset = .done none { s.zeroClock with quitPending := true } := by
  rw [State.clockReset, if_pos (quitsOnReset_iff.1 h)]
  split
  · rfl
  · contradiction

end

/-- Settles O37: a read answers with the device's half of the clock. -/
theorem clockDevicesReadSixBitsOfTheClock : Obligations.ClockDevicesReadSixBitsOfTheClock :=
  fun rd _ _ rs s hlo hhi =>
    ⟨encodedAs_ofFields .io rd 3 rs, rfl, encodedAs_ofFields .io rd 4 rs, rfl, fun hf hv =>
      ⟨completes_io_read hlo rfl (clockDevice_of_read hf hv) (clockLo_eq s.clock),
        completes_io_read hhi rfl (clockDevice_of_read hf hv) (clockHi_eq s.clock)⟩⟩

/-- Settles O38: the clock is reset in each of the three cases of the poll, and the reply is what the case says. -/
theorem clockResetRestartsTheClockAndPolls : Obligations.ClockResetRestartsTheClockAndPolls := by
  intro rd rs d s e rest hd hsched hf hv
  have hreset : opIo rd d rs s = s.finishIo rd s.clockReset := by
    obtain hd | hd := hd <;> rw [opIo_of_present hd rfl, State.serveDevice, clockDevice_of_reset hf hv]
  obtain rfl : s.cycleInput = e := cycleInput_of_scheduled hsched
  by_cases hquit : s.quitsOnReset
  · by_cases hpoint : s.params.clockResetQuit = .insideStep
    · rw [clockReset_of_quit_insideStep hquit hpoint] at hreset
      exact completes_io hreset ⟨((if_pos hquit).trans (if_pos hpoint)).symm, fun _ => rfl, fun _ => rfl⟩
    · rw [clockReset_of_quit_endOfCycle hquit hpoint] at hreset
      exact completes_io hreset ⟨((if_pos hquit).trans (if_neg hpoint)).symm, fun _ => rfl, fun _ => rfl⟩
  · rw [clockReset_of_noQuit hquit] at hreset
    exact completes_io hreset ⟨(if_neg hquit).symm, fun _ => rfl, fun _ => rfl⟩

end Sys2Proof.Machine

/-!
PROOFS of the family other: the memory window (R47, R49), the serial alphabet (R199 to R201), and the ROM's load and
save (R227, R256, R257), whose text is base64 (log entry 10).
-/

namespace Sys2Proof.Machine

/-! ## The memory window -/

/-- Settles O51: by the laws of the canonical form. -/
theorem memoryWindowReadsTheLastWrite : Obligations.MemoryWindowReadsTheLastWrite :=
  ⟨fun _ _ _ _ hm ha => ⟨memGet_memPut hm, memPut_wf hm ha⟩, fun _ _ _ hm hn => memWfFrom_ext hm hn⟩

/-! ## The serial alphabet -/

/-- A symbol that is not in a list has no index in it. -/
theorem symbolIndex_eq_none {c : Char} {cs : List Char} (h : c ∉ cs) (n : Nat) : symbolIndex c cs n = none := by
  induction cs generalizing n with
  | nil => rfl
  | cons d ds ih =>
    obtain ⟨hd, hds⟩ := not_or.1 (mt List.mem_cons.2 h)
    rw [symbolIndex, if_neg hd, ih hds]

theorem serialOfChar_of_outside {c : Char} (h : c ∉ serialAlphabet) : serialOfChar c = 63 := by
  rw [serialOfChar, symbolIndex_eq_none h]

theorem serialAlphabet_noLower : serialAlphabet.all (fun c => !c.isLower) = true := by decide

/-- Settles O56: the symbols by evaluation of the 63 values, the characters outside by their absence from the list. -/
theorem serialAlphabetIsSixtyFourSymbols : Obligations.SerialAlphabetIsSixtyFourSymbols := by
  refine ⟨by decide, by decide, by decide, fun c => serialOfChar_of_outside, fun c hlow hmem => ?_, fun _ => rfl⟩
  have hnot := List.all_eq_true.1 serialAlphabet_noLower c hmem
  simp [hlow] at hnot

/-! ## The words of a ROM's bytes -/

/-- A byte string of whole words: as many words, each assembled from its three bytes (R43, R256). -/
theorem wordsOfBytes_spec (bytes : List Byte) (h : bytes.length % 3 = 0) :
    3 * (wordsOfBytes bytes).length = bytes.length ∧
      ∀ k, k < (wordsOfBytes bytes).length → ∃ b0 b1 b2 : Byte, bytes[3 * k]? = some b0 ∧
        bytes[3 * k + 1]? = some b1 ∧ bytes[3 * k + 2]? = some b2 ∧
        (wordsOfBytes bytes)[k]? = some (wordOfBytes b0 b1 b2) := by
  match bytes with
  | [] => exact ⟨rfl, fun k hk => absurd hk (Nat.not_lt_zero k)⟩
  | [_] | [_, _] => simp at h
  | b0 :: b1 :: b2 :: rest =>
    obtain ⟨hlen, hget⟩ := wordsOfBytes_spec rest (by simp only [List.length_cons] at h; omega)
    refine ⟨by simp only [wordsOfBytes, List.length_cons]; omega, fun k hk => ?_⟩
    cases k with
    | zero => exact ⟨b0, b1, b2, rfl, rfl, rfl, rfl⟩
    | succ k =>
      obtain ⟨c0, c1, c2, h0, h1, h2, hw⟩ := hget k (by simpa [wordsOfBytes] using hk)
      exact ⟨c0, c1, c2, h0, h1, h2, hw⟩

theorem tapeOfBytes_ok {bytes : List Byte} (h : bytes.length % 3 = 0) (hne : bytes ≠ []) :
    tapeOfBytes bytes = .ok (wordsOfBytes bytes) := by
  rw [tapeOfBytes, if_neg (by simp [h]), if_neg (by simpa using hne)]

theorem tapeOfBytes_romLength {bytes : List Byte} (h : bytes.length % 3 ≠ 0) :
    tapeOfBytes bytes = .error (.romLength bytes.length) := if_pos h

section

variable {l : Launch} {text : List Char} {bytes : List Byte} (h : base64Decode text = some bytes)
include h

theorem boot_running {tape : List InsnWord} (ht : tapeOfBytes bytes = .ok tape) :
    boot l text = .running (State.launch { l with tape := tape }) := by
  simp only [boot, h, ht]

theorem boot_refused {r : Halt} (ht : tapeOfBytes bytes = .error r) : boot l text = .refused r := by
  simp only [boot, h, ht]

end

/-- Settles O54: the bytes of the text decide, in the three cases of their count. -/
theorem romLengthIsCheckedAtLoad : Obligations.RomLengthIsCheckedAtLoad := by
  refine ⟨fun l text bytes hb => ⟨fun h => boot_refused hb (tapeOfBytes_romLength h), ?empty, fun h hne => ?whole⟩,
    fun l text hb => ?notBase64, fun _ => rfl, rfl⟩
  case empty =>
    rintro rfl
    exact boot_refused hb rfl
  case whole =>
    obtain ⟨hlen, hget⟩ := wordsOfBytes_spec bytes h
    refine ⟨wordsOfBytes bytes, boot_running hb (tapeOfBytes_ok h hne), hlen, fun k hk => ?_⟩
    obtain ⟨b0, b1, b2, h0, h1, h2, hw⟩ := hget k hk
    exact ⟨b0, b1, b2, _, h0, h1, h2, hw, wordOfBytes_toNat b0 b1 b2⟩
  case notBase64 => simp only [boot, hb]

/-! ## Saving a tape -/

/-- Each base64 symbol stands for the six bits it was chosen for. -/
theorem base64Value_base64Char (v : BitVec 6) : base64Value (base64Char v) = some v := by
  revert v
  decide

/-- The four symbols of a word, read back. -/
theorem base64Group_word (last : Bool) (w : InsnWord) :
    base64Group last (base64Char (fieldF w)) (base64Char (fieldA w)) (base64Char (fieldB w)) (base64Char (fieldC w)) =
      some (bytesOfWord w) := by
  have hw : fieldF w ++ fieldA w ++ fieldB w ++ fieldC w = w := mkWord_fields w
  simp only [base64Group, base64Value_base64Char, hw]

theorem base64Decode_words (tape : List InsnWord) :
    base64Decode (tape.flatMap base64Word) = some (tape.flatMap bytesOfWord) := by
  induction tape with
  | nil => rfl
  | cons w tape ih => simp [base64Word, base64Decode, base64Group_word, ih]

theorem wordOfBytes_bytesOfWord (w : InsnWord) :
    wordOfBytes (w.extractLsb' 16 8) (w.extractLsb' 8 8) (w.extractLsb' 0 8) = w := by
  have := w.isLt
  apply BitVec.eq_of_toNat_eq
  simp only [wordOfBytes_toNat, BitVec.extractLsb'_toNat, Nat.shiftRight_eq_div_pow]
  omega

theorem wordsOfBytes_flatMap (tape : List InsnWord) : wordsOfBytes (tape.flatMap bytesOfWord) = tape := by
  induction tape with
  | nil => rfl
  | cons w tape ih => simp [bytesOfWord, wordsOfBytes, wordOfBytes_bytesOfWord, ih]

theorem length_flatMap_bytesOfWord (tape : List InsnWord) : (tape.flatMap bytesOfWord).length = 3 * tape.length := by
  induction tape with
  | nil => rfl
  | cons w tape ih =>
    rw [List.flatMap_cons, List.length_append, ih, List.length_cons]
    simp only [bytesOfWord, List.length_cons, List.length_nil]
    omega

section

variable {k : Codes} {tape : List InsnWord}

/-- A tape without INVALID is the encoding of its instructions, so it is saved as it stands. -/
theorem encodeTape_of_valid (henc : ∀ w ∈ tape, k.encode (k.decode w) = some w) : encodeTape k tape = some tape := by
  induction tape with
  | nil => rfl
  | cons w tape ih =>
    obtain ⟨hw, htape⟩ := List.forall_mem_cons.1 henc
    simp only [encodeTape, hw, ih htape]

theorem encodeTape_of_invalid (h : ∃ w ∈ tape, k.decode w = .invalid) : encodeTape k tape = none := by
  induction tape with
  | nil => simp at h
  | cons v tape ih =>
    obtain ⟨w, hmem, hw⟩ := h
    obtain rfl | hmem := List.mem_cons.1 hmem
    · have hnone : k.encode (k.decode w) = none := by rw [hw]; rfl
      simp only [encodeTape, hnone]
    · rw [encodeTape, ih ⟨w, hmem, hw⟩]
      cases k.encode (k.decode v) <;> rfl

end

/-- Settles O55: the words of the saved text are the tape's own, which the loader reads back. -/
theorem romSaveIsTheInverseOfLoad : Obligations.RomSaveIsTheInverseOfLoad := by
  refine fun k hk => ⟨fun l tape hne hvalid => ?valid, fun tape h => ?invalid⟩
  case valid =>
    have henc : ∀ w ∈ tape, k.encode (k.decode w) = some w := fun w hw =>
      encode_decode hk (mt decode_eq_invalid_iff.2 (hvalid w hw))
    have hb : base64Decode (tape.flatMap base64Word) = some (tape.flatMap bytesOfWord) := base64Decode_words tape
    have htape : tapeOfBytes (tape.flatMap bytesOfWord) = .ok tape := by
      have hlen := length_flatMap_bytesOfWord tape
      have hpos := List.length_pos_iff.2 hne
      rw [tapeOfBytes_ok (by omega) (List.length_pos_iff.1 (by omega)), wordsOfBytes_flatMap]
    exact ⟨henc, _, by rw [saveRom, encodeTape_of_valid henc, Option.map_some], hb, boot_running hb htape⟩
  case invalid => rw [saveRom, encodeTape_of_invalid h, Option.map_none]

end Sys2Proof.Machine

/-!
PROOFS of the family other: the assembler's operands (R90), what each operand of the spec's forms reads as. The lines
(R91, R93) follow.
-/

namespace Sys2Proof.Machine

/-! ## Numbers and registers -/

/-- Text of an operand or a mnemonic: no comma and no space in it. -/
def Clean (t : List Char) : Prop := ∀ ch ∈ t, ch ≠ ',' ∧ ch ≠ ' '

theorem Clean.no_comma {t : List Char} (h : Clean t) : ',' ∉ t := fun hmem => (h _ hmem).1 rfl

theorem Clean.no_space {t : List Char} (h : Clean t) : ' ' ∉ t := fun hmem => (h _ hmem).2 rfl

theorem asmNum_isDigit {n : Nat} {ch : Char} (h : ch ∈ asmNum n) : ch.isDigit = true :=
  Nat.isDigit_of_mem_toDigits (by decide) (by decide) h

theorem not_mem_asmNum {ch : Char} (h : ch.isDigit = false) (n : Nat) : ch ∉ asmNum n := fun hmem => by
  simp [asmNum_isDigit hmem] at h

@[simp] theorem asmNum_ne_nil (n : Nat) : asmNum n ≠ [] := Nat.toDigits_ne_nil

@[simp] theorem asmReg_ne_nil (n : Nat) : asmReg n ≠ [] := List.cons_ne_nil _ _

@[simp] theorem asmCmp_ne_nil (imm : Bool) (n : Nat) : asmCmp imm n ≠ [] := by
  cases imm <;> exact List.cons_ne_nil _ _

@[simp] theorem asmIndexed_ne_nil (ra imm : Nat) : asmIndexed ra imm ≠ [] := List.cons_ne_nil _ _

/-- What a number below 64 reads as: its word; any other is refused (R95). -/
def word64 (n : Nat) : Option Word := if n < 64 then some (mask6 n) else none

theorem parseNat_asmNum (n : Nat) : parseNat (asmNum n) = some n := by
  have hdigits : (asmNum n).all Char.isDigit = true := List.all_eq_true.2 fun _ => asmNum_isDigit
  rw [parseNat, if_pos ⟨asmNum_ne_nil n, hdigits⟩]
  exact congrArg some Nat.ofDigitChars_ten_toDigits

theorem parseBelow_asmNum (bound n : Nat) : parseBelow bound (asmNum n) = if n < bound then some n else none := by
  simp [parseBelow, parseNat_asmNum, Option.filter_some]

@[simp] theorem parseImm_asmNum (n : Nat) : parseImm (asmNum n) = word64 n := by
  rw [parseImm, parseBelow_asmNum, word64]
  split <;> rfl

@[simp] theorem parseReg_asmReg (n : Nat) : parseReg (asmReg n) = word64 n := parseImm_asmNum n

theorem parseNat_of_nonDigit {t : List Char} (h : ∃ ch ∈ t, ch.isDigit = false) : parseNat t = none := by
  obtain ⟨ch, hmem, hch⟩ := h
  refine if_neg fun ⟨_, hall⟩ => ?_
  simp [List.all_eq_true.1 hall ch hmem] at hch

/-! ## The composite operands -/

/-- A CMP operand: its kind, and its word. -/
@[simp] theorem parseCmpOperand_asmCmp (imm : Bool) (n : Nat) :
    parseCmpOperand (asmCmp imm n) = (word64 n).map (imm, ·) := by
  cases imm with
  | true => exact congrArg (Option.map (true, ·)) (parseImm_asmNum n)
  | false => exact congrArg (Option.map (false, ·)) (parseReg_asmReg n)

/-- Text that begins as neither a register nor an immediate is no CMP operand. -/
theorem parseCmpOperand_of_head {t : List Char} (hr : t.head? ≠ some 'r') (hi : t.head? ≠ some '#') :
    parseCmpOperand t = none := by
  unfold parseCmpOperand
  split
  · simp at hi
  · unfold parseReg
    split
    · simp at hr
    · rfl

/-- The model's split is the library's. -/
theorem splitAtChar_eq_splitOn (sep : Char) (t : List Char) : splitAtChar sep t = t.splitOn sep := by
  induction t with
  | nil => rfl
  | cons c t ih =>
    rw [splitAtChar, ih, List.splitOn_cons_eq_if_modifyHead]
    obtain ⟨w, ws, h⟩ := List.exists_cons_of_ne_nil (List.splitOn_ne_nil sep t)
    simp [h]

theorem splitAtChar_intercalate {sep : Char} {ls : List (List Char)} (h : ∀ l ∈ ls, sep ∉ l) (hne : ls ≠ []) :
    splitAtChar sep ([sep].intercalate ls) = ls := by
  rw [splitAtChar_eq_splitOn, List.splitOn_intercalate sep h hne]

/-- The spaces around a text without spaces, before and behind, are all that is dropped. -/
theorem trimSpaces_eq {t : List Char} (hhead : t.head? ≠ some ' ') (hlast : t.getLast? ≠ some ' ') :
    trimSpaces t = t := by
  have hdrop : t.dropWhile (· == ' ') = t := by
    cases t with
    | nil => rfl
    | cons c t => exact List.dropWhile_cons_of_neg (by simpa using hhead)
  have hend : t.rdropWhile (· == ' ') = t := by
    refine List.rdropWhile_eq_self_iff.2 fun hne hsp => hlast ?_
    rw [List.getLast?_eq_some_getLast hne, eq_of_beq hsp]
  calc trimSpaces t = (t.dropWhile (· == ' ')).rdropWhile (· == ' ') := rfl
    _ = t := by rw [hdrop, hend]

theorem Clean.trimSpaces {t : List Char} (h : Clean t) : Machine.trimSpaces t = t :=
  trimSpaces_eq (fun e => h.no_space (List.mem_of_head? e)) fun e => h.no_space (List.mem_of_getLast? e)

@[simp] theorem clean_asmNum (n : Nat) : Clean (asmNum n) := fun ch hch => by
  have hdigit := asmNum_isDigit hch
  constructor <;> rintro rfl <;> exact absurd hdigit (by decide)

theorem Clean.cons {ch : Char} {t : List Char} (hch : ch ≠ ',' ∧ ch ≠ ' ') (ht : Clean t) : Clean (ch :: t) :=
  List.forall_mem_cons.2 ⟨hch, ht⟩

theorem Clean.append {t u : List Char} (ht : Clean t) (hu : Clean u) : Clean (t ++ u) :=
  List.forall_mem_append.2 ⟨ht, hu⟩

@[simp] theorem clean_asmReg (n : Nat) : Clean (asmReg n) := .cons (by decide) (clean_asmNum n)

@[simp] theorem clean_asmCmp (imm : Bool) (n : Nat) : Clean (asmCmp imm n) := by
  cases imm with
  | true => exact .cons (by decide) (clean_asmNum n)
  | false => exact clean_asmReg n

@[simp] theorem clean_asmIndexed (ra imm : Nat) : Clean (asmIndexed ra imm) :=
  .cons (by decide) (((clean_asmReg ra).append (.cons (by decide) (clean_asmNum imm))).append (by simp [Clean]))

/-- The operand `[ra+imm]`. -/
@[simp] theorem parseIndexed_asmIndexed (ra imm : Nat) :
    parseIndexed (asmIndexed ra imm) = do return (← word64 ra, ← word64 imm) := by
  have hsplit : splitAtChar '+' (asmReg ra ++ '+' :: asmNum imm) = [asmReg ra, asmNum imm] := by
    have hfree : ∀ l ∈ [asmReg ra, asmNum imm], '+' ∉ l := by
      simp [asmReg, not_mem_asmNum]
    have hjoin : asmReg ra ++ '+' :: asmNum imm = ['+'].intercalate [asmReg ra, asmNum imm] := by
      simp [List.intercalate]
    rw [hjoin, splitAtChar_intercalate hfree (by simp)]
  have hbody : ((asmIndexed ra imm).drop 1).dropLast = asmReg ra ++ '+' :: asmNum imm := by
    rw [asmIndexed, List.drop_one, List.tail_cons, List.dropLast_concat]
  obtain ⟨u, hrev⟩ : ∃ u, (asmIndexed ra imm).reverse = ']' :: u :=
    ⟨_, by rw [asmIndexed, List.reverse_cons, List.reverse_concat]; rfl⟩
  have hparts : (splitAtChar '+' ((asmIndexed ra imm).drop 1).dropLast).map trimSpaces = [asmReg ra, asmNum imm] := by
    rw [hbody, hsplit, List.map_cons, List.map_cons, (clean_asmReg ra).trimSpaces, (clean_asmNum imm).trimSpaces]
    rfl
  unfold parseIndexed
  rw [hrev]
  simp only [hparts, parseReg_asmReg, parseImm_asmNum]
  rfl

end Sys2Proof.Machine

/-!
PROOFS of the family other: the assembler's lines (R90 to R95). A line of the spec's spelling splits into its mnemonic
and its operands, and an op's registers, immediates and label parts read as its fields exactly when they are in range.
-/

namespace Sys2Proof.Machine

/-! ## Splitting a line -/

theorem trimSpaces_cons_space (t : List Char) : trimSpaces (' ' :: t) = trimSpaces t := rfl

theorem trimSpaces_concat_space {t : List Char} (h : t.head? ≠ some ' ') : trimSpaces (t ++ [' ']) = trimSpaces t := by
  cases t with
  | nil => rfl
  | cons c t =>
    have hc : ¬ (c == ' ') = true := by simpa using h
    simp [trimSpaces, hc]

theorem asmLine_cons (m : String) (c : Cond) (o : List Char) (os : List (List Char)) :
    asmLine m c (o :: os) = m.toList ++ asmSuffix c ++ ' ' :: (o ++ os.flatMap fun p => ',' :: ' ' :: p) := rfl

/-- The operands of a line, each behind its comma and its space, as segments between commas. -/
theorem operands_eq_intercalate (o : List Char) (os : List (List Char)) :
    ' ' :: (o ++ os.flatMap fun p => ',' :: ' ' :: p) = [','].intercalate ((o :: os).map (' ' :: ·)) := by
  induction os generalizing o with
  | nil => simp [List.intercalate]
  | cons p os ih =>
    have hrest := ih p
    simp only [List.map_cons] at hrest
    rw [List.map_cons, List.map_cons, List.intercalate_cons_cons, ← hrest]
    simp

theorem getLast?_intercalate {sep l : List Char} (ls : List (List Char)) (h : l ≠ []) :
    (sep.intercalate (ls ++ [l])).getLast? = l.getLast? := by
  obtain ⟨c, hc⟩ := List.getLast?_isSome.2 h |> Option.isSome_iff_exists.1
  induction ls with
  | nil => simp [List.intercalate]
  | cons a ls ih =>
    obtain ⟨b, bs, hb⟩ := List.exists_cons_of_ne_nil (List.append_ne_nil_of_right_ne_nil ls (List.cons_ne_nil l []))
    rw [List.cons_append, hb, List.intercalate_cons_cons, ← hb, List.getLast?_append, ih, hc]
    rfl

/-- A mnemonic, and behind its space segments between commas. -/
theorem splitLine_segments {head rest : List Char} {segs : List (List Char)} (hne : head ≠ []) (hhead : Clean head)
    (hrest : ' ' :: rest = [','].intercalate segs) (hsegs : ∀ l ∈ segs, ',' ∉ l) (hs : segs ≠ [])
    (hlast : (' ' :: rest).getLast? ≠ some ' ') :
    splitLine (head ++ ' ' :: rest) = (head, segs.map trimSpaces) := by
  have hspace : ∀ ch ∈ head, (ch != ' ') = true := fun ch hch => by simpa using (hhead ch hch).2
  have htrim : trimSpaces (head ++ ' ' :: rest) = head ++ ' ' :: rest := by
    refine trimSpaces_eq ?_ ?_
    · rw [List.head?_append_of_ne_nil _ hne]
      exact fun e => hhead.no_space (List.mem_of_head? e)
    · rw [List.getLast?_append_of_ne_nil _ (List.cons_ne_nil _ _)]
      exact hlast
  have htake : (head ++ ' ' :: rest).takeWhile (· != ' ') = head := by
    rw [List.takeWhile_append_of_pos hspace]
    simp
  have hdrop : (head ++ ' ' :: rest).dropWhile (· != ' ') = ' ' :: rest := by
    rw [List.dropWhile_append_of_pos hspace]
    rfl
  rw [splitLine, htrim, htake, hdrop, hrest, splitAtChar_intercalate hsegs hs]

theorem clean_asmSuffix (c : Cond) : Clean (asmSuffix c) := by cases c <;> simp [Clean, asmSuffix]

/-- The spec's line of a mnemonic and operands of which the last is not empty. -/
theorem splitLine_asmLine {m : String} {c : Cond} {ops : List (List Char)} {last : List Char}
    (hne : m.toList ≠ []) (hm : Clean m.toList) (hops : ∀ o ∈ ops, Clean o) (hlast : ops.getLast? = some last)
    (hlastNe : last ≠ []) : splitLine (asmLine m c ops) = (m.toList ++ asmSuffix c, ops) := by
  cases ops with
  | nil => cases hlast
  | cons o os =>
    have hrest := operands_eq_intercalate o os
    have hsegs : ∀ l ∈ (o :: os).map (' ' :: ·), ',' ∉ l := by
      intro l hl hcomma
      obtain ⟨p, hp, rfl⟩ := List.mem_map.1 hl
      obtain hc | hc := List.mem_cons.1 hcomma
      · cases hc
      · exact (hops p hp).no_comma hc
    have hend : (' ' :: (o ++ os.flatMap fun p => ',' :: ' ' :: p)).getLast? ≠ some ' ' := by
      obtain ⟨init, hinit⟩ := List.getLast?_eq_some_iff.1 hlast
      rw [hrest, hinit, List.map_append, List.map_singleton, getLast?_intercalate _ (List.cons_ne_nil _ _),
        List.getLast?_cons_of_ne_nil hlastNe]
      exact fun e => (hops last (List.mem_of_getLast? hlast)).no_space (List.mem_of_getLast? e)
    have htrims : ((o :: os).map (' ' :: ·)).map trimSpaces = o :: os := by
      rw [List.map_map]
      exact (List.map_congr_left fun p hp => (hops p hp).trimSpaces).trans (List.map_id _)
    rw [asmLine_cons, splitLine_segments (by simp [hne]) (hm.append (clean_asmSuffix c))
      hrest hsegs (by simp) hend, htrims]

/-! ## Mnemonics -/

/-- A mnemonic with its suffix names its op and its cond. -/
theorem opCondOfName_name (o : Op) (c : Cond) : opCondOfName ((Op.name o).toList ++ asmSuffix c) = some (o, c) := by
  cases o <;> cases c <;> decide

theorem name_ne_nil (o : Op) : (Op.name o).toList ≠ [] := by cases o <;> decide

theorem clean_name (o : Op) : Clean (Op.name o).toList := by cases o <;> simp [Clean, Op.name]

section

variable {k : Codes} {o : Op} {c : Cond} {line : List Char} {ops : List (List Char)}
  (hsplit : splitLine line = ((Op.name o).toList ++ asmSuffix c, ops))
include hsplit

theorem assemble_of_operands {a b v : Word} (h : parseOperands k o ops = some (a, b, v)) :
    assemble k line = some (.ofFields ⟨o, c, a, b, v⟩) := by
  simp only [assemble, hsplit, opCondOfName_name, h, Option.map_some]

theorem assemble_of_noOperands (h : parseOperands k o ops = none) : assemble k line = none := by
  simp only [assemble, hsplit, opCondOfName_name, h, Option.map_none]

/-- A line whose operands read as its fields exactly when they are in range is assembled so. -/
theorem assembles_of_operands {P : Prop} [Decidable P] {a b v : Nat}
    (h : parseOperands k o ops = if P then some (mask6 a, mask6 b, mask6 v) else none) :
    Assembles k line P o c a b v := by
  refine ⟨fun hin => ⟨_, assemble_of_operands hsplit (h.trans (if_pos hin)), fields_ofFields _⟩, fun hout => ?_⟩
  exact assemble_of_noOperands hsplit (h.trans (if_neg hout))

end

/-- The line of an op with clean operands, the last not empty. -/
theorem splitLine_op (o : Op) (c : Cond) {ops : List (List Char)} {last : List Char} (hops : ∀ p ∈ ops, Clean p)
    (hlast : ops.getLast? = some last) (hlastNe : last ≠ []) :
    splitLine (asmLine (Op.name o) c ops) = ((Op.name o).toList ++ asmSuffix c, ops) :=
  splitLine_asmLine (name_ne_nil o) (clean_name o) hops hlast hlastNe

/-! ## Operands in range -/

section

variable (n m p : Nat) {α : Type}

theorem word64_pair (f : Word → Word → α) :
    (do return f (← word64 n) (← word64 m)) = if n < 64 ∧ m < 64 then some (f (mask6 n) (mask6 m)) else none := by
  unfold word64
  split_ifs <;> simp_all

theorem word64_triple (f : Word → Word → Word → α) :
    (do return f (← word64 n) (← word64 m) (← word64 p)) =
      if n < 64 ∧ m < 64 ∧ p < 64 then some (f (mask6 n) (mask6 m) (mask6 p)) else none := by
  unfold word64
  split_ifs <;> simp_all

variable {k : Codes} {o : Op} {c : Cond} {line : List Char} {ops : List (List Char)}

/-- A line whose three operands are numbers below 64, in the columns of R70. -/
theorem assembles_of_triple (hsplit : splitLine line = ((Op.name o).toList ++ asmSuffix c, ops))
    (h : parseOperands k o ops = do return (← word64 n, ← word64 m, ← word64 p)) :
    Assembles k line (n < 64 ∧ m < 64 ∧ p < 64) o c n m p :=
  assembles_of_operands hsplit (h.trans (word64_triple n m p fun a b v => (a, b, v)))

theorem parseOperands_registers (ho : o ∈ [Op.add, .sub, .or, .xor, .and, .shl, .shr]) :
    parseOperands k o [asmReg n, asmReg m, asmReg p] = do return (← word64 n, ← word64 m, ← word64 p) := by
  rw [← parseReg_asmReg, ← parseReg_asmReg, ← parseReg_asmReg]
  simp only [List.mem_cons, List.not_mem_nil, or_false] at ho
  obtain rfl | rfl | rfl | rfl | rfl | rfl | rfl := ho <;> rfl

theorem parseOperands_immediates (ho : o ∈ [Op.addi, .ori, .xori, .andi]) :
    parseOperands k o [asmReg n, asmReg m, asmNum p] = do return (← word64 n, ← word64 m, ← word64 p) := by
  rw [← parseReg_asmReg, ← parseReg_asmReg, ← parseImm_asmNum]
  simp only [List.mem_cons, List.not_mem_nil, or_false] at ho
  obtain rfl | rfl | rfl | rfl := ho <;> rfl

theorem parseOperands_lbl :
    parseOperands k .lbl [asmNum n, asmNum m, asmNum p] = do return (← word64 n, ← word64 m, ← word64 p) := by
  rw [← parseImm_asmNum, ← parseImm_asmNum, ← parseImm_asmNum]
  rfl

theorem parseOperands_jump (ho : o = .jup ∨ o = .jdn) :
    parseOperands k o [asmNum n, asmNum m, asmReg p] = do return (← word64 n, ← word64 m, ← word64 p) := by
  rw [← parseImm_asmNum, ← parseImm_asmNum, ← parseReg_asmReg]
  obtain rfl | rfl := ho <;> rfl

end

end Sys2Proof.Machine

/-!
PROOFS of the family other: the assembler's forms with a sub-field, an index or a device, its pseudo-instructions, the
names that are none of the spec's (R91 to R95), and the instructions that come out.
-/

namespace Sys2Proof.Machine

/-! ## Names -/

theorem lookupName_eq_none {α : Type} {name : List Char} {table : List (String × α)}
    (h : name ∉ table.map fun e => e.1.toList) : lookupName name table = none := by
  induction table with
  | nil => rfl
  | cons e table ih =>
    obtain ⟨hne, htable⟩ := not_or.1 (mt List.mem_cons.2 h)
    rw [lookupName, if_neg (Ne.symm hne), ih htable]

theorem name_of_registers :
    ∀ e ∈ [("ADD", Op.add), ("SUB", .sub), ("OR", .or), ("XOR", .xor), ("AND", .and), ("SHL", .shl), ("SHR", .shr)],
      e.1 = Op.name e.2 ∧ e.2 ∈ [Op.add, .sub, .or, .xor, .and, .shl, .shr] := by decide

theorem name_of_immediates :
    ∀ e ∈ [("ADDI", Op.addi), ("ORI", .ori), ("XORI", .xori), ("ANDI", .andi)],
      e.1 = Op.name e.2 ∧ e.2 ∈ [Op.addi, .ori, .xori, .andi] := by decide

theorem name_of_jump :
    ∀ e ∈ [("JUP", Op.jup), ("JDN", .jdn)], e.1 = Op.name e.2 ∧ (e.2 = .jup ∨ e.2 = .jdn) := by decide

/-- The shift types' names, with the codes of R75. -/
theorem lookup_shiftType : ∀ e ∈ [("LSL", 0), ("LSR", 1), ("ASR", 2), ("ROL", 3)],
    Clean e.1.toList ∧ ∃ ty, lookupName e.1.toList shiftTypeNames = some ty ∧ ty.code.toNat = e.2 := by
  simp only [List.mem_cons, List.not_mem_nil, or_false]
  rintro e (rfl | rfl | rfl | rfl)
  · exact ⟨by simp [Clean], .lsl, rfl, rfl⟩
  · exact ⟨by simp [Clean], .lsr, rfl, rfl⟩
  · exact ⟨by simp [Clean], .asr, rfl, rfl⟩
  · exact ⟨by simp [Clean], .rol, rfl, rfl⟩

/-- The comparators' names, with the codes of R74. -/
theorem lookup_comparator :
    ∀ e ∈ [("TR", 0), ("FA", 1), ("EQ", 2), ("NE", 3), ("SLT", 4), ("SGT", 5), ("ULT", 6), ("UGT", 7)],
      Clean e.1.toList ∧ ∃ cm, lookupName e.1.toList comparatorNames = some cm ∧ cm.code.toNat = e.2 := by
  simp only [List.mem_cons, List.not_mem_nil, or_false]
  rintro e (rfl | rfl | rfl | rfl | rfl | rfl | rfl | rfl)
  · exact ⟨by simp [Clean], .tr, rfl, rfl⟩
  · exact ⟨by simp [Clean], .fa, rfl, rfl⟩
  · exact ⟨by simp [Clean], .eq, rfl, rfl⟩
  · exact ⟨by simp [Clean], .ne, rfl, rfl⟩
  · exact ⟨by simp [Clean], .slt, rfl, rfl⟩
  · exact ⟨by simp [Clean], .sgt, rfl, rfl⟩
  · exact ⟨by simp [Clean], .ult, rfl, rfl⟩
  · exact ⟨by simp [Clean], .ugt, rfl, rfl⟩

/-- FM's modes' names, with the codes of R76. -/
theorem lookup_fmMode : ∀ e ∈ [("U", 0), ("S", 1)],
    Clean e.1.toList ∧ ∃ mode, lookupName e.1.toList fmModeNames = some mode ∧ mode.code.toNat = e.2 := by
  simp only [List.mem_cons, List.not_mem_nil, or_false]
  rintro e (rfl | rfl)
  · exact ⟨by simp [Clean], .unsigned, rfl, rfl⟩
  · exact ⟨by simp [Clean], .signed, rfl, rfl⟩

theorem lookup_device : ∀ e ∈ deviceNames, lookupName e.1.toList deviceNames = some e.2 := by decide

theorem clean_deviceName : ∀ e ∈ deviceNames, Clean e.1.toList := by simp [deviceNames, Clean]

/-- No device's name is a number. -/
theorem lookup_device_asmNum (m : Nat) : lookupName (asmNum m) deviceNames = none := by
  refine lookupName_eq_none fun hmem => ?_
  have hletter : ∀ e ∈ deviceNames, ∃ ch ∈ e.1.toList, ch.isDigit = false := by
    simp [deviceNames]
  obtain ⟨e, he, hname⟩ := List.mem_map.1 hmem
  obtain ⟨ch, hch, hdigit⟩ := hletter e he
  exact not_mem_asmNum hdigit m (hname ▸ hch)

/-! ## Operands with a sub-field, an index or a device -/

section

variable {k : Codes} {name : List Char} (n m p : Nat)

theorem parseOperands_shi {ty : ShiftType} (h : lookupName name shiftTypeNames = some ty) :
    parseOperands k .shi [asmReg n, asmReg m, name, asmNum p] =
      if n < 64 ∧ m < 64 ∧ p < 8 then some (mask6 n, mask6 m, mask6 (ty.code.toNat * 8 + p)) else none := by
  have hsub (hp : p < 8) : shiSub false ty (BitVec.ofNat 3 p) = mask6 (ty.code.toNat * 8 + p) := by
    rw [shiSub_eq_mask6, BitVec.toNat_ofNat, Nat.mod_eq_of_lt hp]
  simp only [parseOperands, parseReg_asmReg, h, parseBelow_asmNum, word64]
  split_ifs <;> simp_all

theorem parseOperands_fm {mode : FmMode} (h : lookupName name fmModeNames = some mode) :
    parseOperands k .fm [asmReg n, asmReg m, name, asmNum p] =
      if n < 64 ∧ m < 64 ∧ p < 16 then some (mask6 n, mask6 m, mask6 (mode.code.toNat * 16 + p)) else none := by
  have hsub (hp : p < 16) : fmSub false mode (BitVec.ofNat 4 p) = mask6 (mode.code.toNat * 16 + p) := by
    rw [fmSub_eq_mask6, BitVec.toNat_ofNat, Nat.mod_eq_of_lt hp]
  simp only [parseOperands, parseReg_asmReg, h, parseBelow_asmNum, word64]
  split_ifs <;> simp_all

theorem cmpTypeOf_code (aImm bImm : Bool) : (cmpTypeOf aImm bImm).code.toNat = aImm.toNat * 2 + bImm.toNat := by
  cases aImm <;> cases bImm <;> rfl

theorem parseOperands_cmp {cm : Comparator} (h : lookupName name comparatorNames = some cm) (aImm bImm : Bool) :
    parseOperands k .cmp [name, asmCmp aImm n, asmCmp bImm m] =
      if n < 64 ∧ m < 64 then
        some (mask6 ((aImm.toNat * 2 + bImm.toNat) * 8 + cm.code.toNat), mask6 n, mask6 m)
      else none := by
  simp only [parseOperands, parseCmpOperand_asmCmp, h, word64, ← cmpTypeOf_code, ← cmpSub_eq_mask6]
  split_ifs <;> simp_all

theorem parseOperands_ld :
    parseOperands k .ld [asmReg n, asmIndexed m p] =
      if n < 64 ∧ m < 64 ∧ p < 64 then some (mask6 n, mask6 m, mask6 p) else none := by
  simp only [parseOperands, parseIndexed_asmIndexed, parseReg_asmReg, word64]
  split_ifs <;> simp_all

theorem parseOperands_st :
    parseOperands k .st [asmIndexed m p, asmReg n] =
      if n < 64 ∧ m < 64 ∧ p < 64 then some (mask6 n, mask6 m, mask6 p) else none := by
  simp only [parseOperands, parseIndexed_asmIndexed, parseReg_asmReg, word64]
  split_ifs <;> simp_all

theorem parseOperands_ioNumber :
    parseOperands k .io [asmReg n, asmNum m, asmReg p] = do return (← word64 n, ← word64 m, ← word64 p) := by
  simp only [parseOperands, parseDevice, lookup_device_asmNum, parseReg_asmReg, parseImm_asmNum]

theorem parseOperands_ioName {dev : Device} {d : Word} (h : lookupName name deviceNames = some dev)
    (hd : k.indexOf dev = some d) :
    parseOperands k .io [asmReg n, name, asmReg p] =
      if n < 64 ∧ p < 64 then some (mask6 n, mask6 d.toNat, mask6 p) else none := by
  rw [mask6_toNat, ← word64_pair n p fun a b => (a, d, b)]
  simp only [parseOperands, parseDevice, h, hd, parseReg_asmReg]
  rfl

/-! ## Operands that are none of the spec's -/

theorem parseOperands_shi_of_noName (h : lookupName name shiftTypeNames = none) :
    parseOperands k .shi [asmReg n, asmReg m, name, asmNum p] = none := by
  simp [parseOperands, h]

theorem parseOperands_fm_of_noName (h : lookupName name fmModeNames = none) :
    parseOperands k .fm [asmReg n, asmReg m, name, asmNum p] = none := by
  simp [parseOperands, h]

theorem parseOperands_cmp_of_noName (h : lookupName name comparatorNames = none) (x y : List Char) :
    parseOperands k .cmp [name, x, y] = none := by
  simp [parseOperands, h]

theorem parseOperands_io_of_noName (h : lookupName name deviceNames = none)
    (hletter : ∃ ch ∈ name, ch.isDigit = false) : parseOperands k .io [asmReg n, name, asmReg p] = none := by
  simp [parseOperands, parseDevice, h, parseImm, parseBelow, parseNat_of_nonDigit hletter]

theorem parseOperands_cmp_of_noLeft (h : parseCmpOperand name = none) (cm y : List Char) :
    parseOperands k .cmp [cm, name, y] = none := by
  simp [parseOperands, h]

theorem parseOperands_cmp_of_noRight (h : parseCmpOperand name = none) (cm x : List Char) :
    parseOperands k .cmp [cm, x, name] = none := by
  simp [parseOperands, h]

end

/-! ## Lines without operands, and the pseudo-instructions -/

theorem splitLine_hlt (c : Cond) : splitLine (asmLine "HLT" c []) = ((Op.name .hlt).toList ++ asmSuffix c, [[]]) := by
  cases c <;> decide

/-- The line of a pseudo-instruction is assembled as its expansion (R93). -/
theorem assembles_of_pseudo {k : Codes} {line mn : List Char} {ops : List (List Char)} {P : Prop} [Decidable P]
    {o : Op} {a b v : Nat} (hsplit : splitLine line = (mn, ops)) (hmn : opCondOfName mn = none)
    (h : parsePseudo mn ops = if P then some ⟨o, .always, mask6 a, mask6 b, mask6 v⟩ else none) :
    Assembles k line P o .always a b v := by
  refine ⟨fun hin => ⟨.ofFields ⟨o, .always, mask6 a, mask6 b, mask6 v⟩, ?_, fields_ofFields _⟩, fun hout => ?_⟩
  · simp only [assemble, hsplit, hmn, h, if_pos hin, Option.map_some]
  · simp only [assemble, hsplit, hmn, h, if_neg hout, Option.map_none]

/-- A pseudo-instruction of a register and another operand, each a number below 64. -/
theorem assembles_of_pseudoPair {k : Codes} {mn : String} {y : List Char} {n m : Nat} {o : Op} {a b v : Nat}
    (f : Word → Word → Fields) (hne : mn.toList ≠ []) (hm : Clean mn.toList)
    (hmn : opCondOfName (mn.toList ++ asmSuffix .always) = none) (hy : Clean y) (hyNe : y ≠ [])
    (h : parsePseudo (mn.toList ++ asmSuffix .always) [asmReg n, y] = do return f (← word64 n) (← word64 m))
    (hf : f (mask6 n) (mask6 m) = ⟨o, .always, mask6 a, mask6 b, mask6 v⟩) :
    Assembles k (asmLine mn .always [asmReg n, y]) (n < 64 ∧ m < 64) o .always a b v := by
  have hsplit := splitLine_asmLine (c := .always) (ops := [asmReg n, y]) hne hm (by simp [hy]) rfl hyNe
  exact assembles_of_pseudo hsplit hmn (by rw [h, word64_pair, hf])

/-- A CMP line whose last operand is empty: without the space at its end, the line ends in its comma. -/
theorem splitLine_cmp_noLast (c : Cond) {x y : List Char} (hx : Clean x) (hy : Clean y) :
    splitLine (asmLine "CMP" c [x, y, []]) = ((Op.name .cmp).toList ++ asmSuffix c, [x, y, []]) := by
  have hline : asmLine "CMP" c [x, y, []] =
      ((Op.name .cmp).toList ++ asmSuffix c ++ ' ' :: (x ++ ',' :: ' ' :: y ++ [','])) ++ [' '] := by
    simp [asmLine, Op.name]
  have hhead : ((Op.name .cmp).toList ++ asmSuffix c ++ ' ' :: (x ++ ',' :: ' ' :: y ++ [','])).head? ≠ some ' ' := by
    simp [Op.name]
  have hsegs : ∀ l ∈ [' ' :: x, ' ' :: y, []], ',' ∉ l := by
    simp [hx.no_comma, hy.no_comma]
  have hend : (' ' :: (x ++ ',' :: ' ' :: y ++ [','])).getLast? ≠ some ' ' := by
    rw [← List.cons_append, List.getLast?_concat]
    simp
  have hsplit := splitLine_segments (by simp [Op.name]) ((clean_name .cmp).append (clean_asmSuffix c))
    (by simp [List.intercalate]) hsegs (by simp) hend
  rw [hline, splitLine, trimSpaces_concat_space hhead, ← splitLine, hsplit]
  simp only [List.map_cons, List.map_nil, trimSpaces_cons_space, hx.trimSpaces, hy.trimSpaces]
  rfl

/-- A CMP line with a first and second operand, whatever its last is. -/
theorem splitLine_cmp (c : Cond) {x y z : List Char} (hx : Clean x) (hy : Clean y) (hz : Clean z) :
    splitLine (asmLine "CMP" c [x, y, z]) = ((Op.name .cmp).toList ++ asmSuffix c, [x, y, z]) := by
  by_cases hne : z = []
  · subst hne
    exact splitLine_cmp_noLast c hx hy
  · exact splitLine_op .cmp c (by simp [hx, hy, hz]) rfl hne

/-! ## The obligations -/

/-- Settles O60: each form's line splits into its operands, and these read as the fields exactly when in range. -/
theorem assemblerTakesEachFormInRange : Obligations.AssemblerTakesEachFormInRange := by
  intro k c n m p
  refine ⟨fun e he => ?registers, fun e he => ?immediates, fun e he => ?shi, fun e he aImm bImm => ?cmp,
    fun e he => ?fm, ?ld, ?st, ?lbl, fun e he => ?jump, ?ioNumber, fun e he d hd => ?ioName, ?hlt, ?nop, ?mov, ?li,
    ?neg, ?not, ?dec, fun name hname => ⟨fun h => ?noShi, fun h aImm bImm => ?noCmp, fun h => ?noFm,
      fun h hletter => ?noDevice, fun hr hi imm => ⟨?noLeft, ?noRight⟩⟩⟩
  case registers =>
    obtain ⟨hn, ho⟩ := name_of_registers e he
    rw [hn]
    exact assembles_of_triple n m p (splitLine_op e.2 c (by simp) rfl (by simp)) (parseOperands_registers n m p ho)
  case immediates =>
    obtain ⟨hn, ho⟩ := name_of_immediates e he
    rw [hn]
    exact assembles_of_triple n m p (splitLine_op e.2 c (by simp) rfl (by simp)) (parseOperands_immediates n m p ho)
  case shi =>
    obtain ⟨hclean, ty, hty, hcode⟩ := lookup_shiftType e he
    rw [← hcode]
    exact assembles_of_operands (splitLine_op .shi c (by simp [hclean]) rfl (by simp)) (parseOperands_shi n m p hty)
  case cmp =>
    obtain ⟨hclean, cm, hcm, hcode⟩ := lookup_comparator e he
    rw [← hcode]
    exact assembles_of_operands (splitLine_op .cmp c (by simp [hclean]) rfl (by simp))
      (parseOperands_cmp n m hcm aImm bImm)
  case fm =>
    obtain ⟨hclean, mode, hmode, hcode⟩ := lookup_fmMode e he
    rw [← hcode]
    exact assembles_of_operands (splitLine_op .fm c (by simp [hclean]) rfl (by simp)) (parseOperands_fm n m p hmode)
  case ld =>
    exact assembles_of_operands (splitLine_op .ld c (by simp) rfl (by simp)) (parseOperands_ld n m p)
  case st =>
    exact assembles_of_operands (splitLine_op .st c (by simp) rfl (by simp)) (parseOperands_st n m p)
  case lbl =>
    exact assembles_of_triple n m p (splitLine_op .lbl c (by simp) rfl (by simp)) (parseOperands_lbl n m p)
  case jump =>
    obtain ⟨hn, ho⟩ := name_of_jump e he
    rw [hn]
    exact assembles_of_triple n m p (splitLine_op e.2 c (by simp) rfl (by simp)) (parseOperands_jump n m p ho)
  case ioNumber =>
    exact assembles_of_triple n m p (splitLine_op .io c (by simp) rfl (by simp)) (parseOperands_ioNumber n m p)
  case ioName =>
    exact assembles_of_operands (splitLine_op .io c (by simp [clean_deviceName e he]) rfl (by simp))
      (parseOperands_ioName n p (lookup_device e he) hd)
  case hlt => exact assembles_of_operands (splitLine_hlt c) rfl
  case nop => exact assembles_of_pseudo (P := True) (mn := "NOP".toList) (ops := [[]]) (by decide) (by decide) rfl
  case mov =>
    exact assembles_of_pseudoPair (fun a b => ⟨.add, .always, a, b, 0⟩) (by simp) (by simp [Clean]) (by decide)
      (clean_asmReg m) (asmReg_ne_nil m) (by rw [← parseReg_asmReg, ← parseReg_asmReg]; rfl) rfl
  case li =>
    exact assembles_of_pseudoPair (fun a b => ⟨.addi, .always, a, 0, b⟩) (by simp) (by simp [Clean]) (by decide)
      (clean_asmNum m) (asmNum_ne_nil m) (by rw [← parseReg_asmReg, ← parseImm_asmNum]; rfl) rfl
  case neg =>
    exact assembles_of_pseudoPair (fun a b => ⟨.sub, .always, a, 0, b⟩) (by simp) (by simp [Clean]) (by decide)
      (clean_asmReg m) (asmReg_ne_nil m) (by rw [← parseReg_asmReg, ← parseReg_asmReg]; rfl) rfl
  case not =>
    exact assembles_of_pseudoPair (fun a b => ⟨.xori, .always, a, b, 63⟩) (by simp) (by simp [Clean]) (by decide)
      (clean_asmReg m) (asmReg_ne_nil m) (by rw [← parseReg_asmReg, ← parseReg_asmReg]; rfl) rfl
  case dec =>
    exact assembles_of_pseudoPair (fun a b => ⟨.addi, .always, a, b, 63⟩) (by simp) (by simp [Clean]) (by decide)
      (clean_asmReg m) (asmReg_ne_nil m) (by rw [← parseReg_asmReg, ← parseReg_asmReg]; rfl) rfl
  all_goals have hclean : Clean name := hname
  case noShi =>
    exact assemble_of_noOperands (splitLine_op .shi c (by simp [hclean]) rfl (by simp))
      (parseOperands_shi_of_noName n m p (lookupName_eq_none h))
  case noCmp =>
    exact assemble_of_noOperands (splitLine_op .cmp c (by simp [hclean]) rfl (by simp))
      (parseOperands_cmp_of_noName (lookupName_eq_none h) _ _)
  case noFm =>
    exact assemble_of_noOperands (splitLine_op .fm c (by simp [hclean]) rfl (by simp))
      (parseOperands_fm_of_noName n m p (lookupName_eq_none h))
  case noDevice =>
    exact assemble_of_noOperands (splitLine_op .io c (by simp [hclean]) rfl (by simp))
      (parseOperands_io_of_noName n p (lookupName_eq_none h) hletter)
  case noLeft =>
    exact assemble_of_noOperands (splitLine_cmp c (by simp [Clean]) hclean (clean_asmCmp imm m))
      (parseOperands_cmp_of_noLeft (parseCmpOperand_of_head hr hi) _ _)
  case noRight =>
    exact assemble_of_noOperands (splitLine_cmp c (by simp [Clean]) (clean_asmCmp imm m) hclean)
      (parseOperands_cmp_of_noRight (parseCmpOperand_of_head hr hi) _ _)

/-- The fields that the operands of a line read as have no sub-field error: SHI, CMP and FM put the bit clear (R95). -/
theorem subErr_of_parseOperands {k : Codes} {o : Op} {args : List (List Char)} {a b v : Word}
    (h : parseOperands k o args = some (a, b, v)) (c : Cond) : Fields.subErr ⟨o, c, a, b, v⟩ = false := by
  unfold parseOperands at h
  split at h
  case h_12 | h_14 =>
    simp only [Option.bind_eq_bind, Option.bind_eq_some_iff, Option.pure_def, Option.some.injEq, Prod.mk.injEq] at h
    obtain ⟨_, -, _, -, _, -, _, -, -, -, rfl⟩ := h
    simp [Fields.subErr]
  case h_13 =>
    simp only [Option.bind_eq_bind, Option.bind_eq_some_iff, Option.pure_def, Option.some.injEq, Prod.mk.injEq] at h
    obtain ⟨_, -, _, -, _, -, rfl, -⟩ := h
    simp [Fields.subErr]
  case h_22 => cases h
  all_goals rfl

theorem subErr_of_parsePseudo {m : List Char} {args : List (List Char)} {f : Fields}
    (h : parsePseudo m args = some f) : Fields.subErr f = false := by
  unfold parsePseudo at h
  split at h
  case h_1 => cases h; rfl
  case h_7 => cases h
  all_goals
    simp only [Option.bind_eq_bind, Option.bind_eq_some_iff, Option.pure_def, Option.some.injEq] at h
    obtain ⟨_, -, _, -, rfl⟩ := h
    rfl

/-- An assembled instruction is that of a record without a sub-field error. -/
theorem wellFormed_of_assemble {k : Codes} {line : List Char} {i : Instr} (h : assemble k line = some i) :
    i.wellFormed = true := by
  suffices hrec : ∃ f, i = Instr.ofFields f ∧ Fields.subErr f = false by
    obtain ⟨f, rfl, herr⟩ := hrec
    rw [wellFormed_ofFields, herr, Bool.not_false]
  unfold assemble at h
  split at h
  split at h
  · obtain ⟨⟨a, b, v⟩, hops, rfl⟩ := Option.map_eq_some_iff.1 h
    exact ⟨_, rfl, subErr_of_parseOperands hops _⟩
  · obtain ⟨f, hf, rfl⟩ := Option.map_eq_some_iff.1 h
    exact ⟨f, rfl, subErr_of_parsePseudo hf⟩

/-- Settles O57: a well-formed instruction has a word, whose field F is not 0 and which decodes to it. -/
theorem assemblerNeverEmitsASubFieldError : Obligations.AssemblerNeverEmitsASubFieldError := by
  intro k line i hk h
  have hwf : i.wellFormed = true := wellFormed_of_assemble h
  have hvalid : i ≠ .invalid := by
    rintro rfl
    cases hwf
  obtain ⟨w, hw⟩ := exists_encode k hvalid
  have hd : k.decode w = i := decode_of_encode hk hw
  exact ⟨hwf, w, hw, fun hF => hvalid (hd ▸ decode_of_fieldF_zero hF), hd⟩

end Sys2Proof.Machine
